-- ==== Sys2Proof/Word.lean ====
section
/-! DEFINITION. The block's word and byte (00_scope.md R6, R7): registers are 32 bits, streams are bytes. -/

namespace Sys2Proof

/-- A register word: REG_WIDTH is 32 bits (R6, R21). -/
abbrev Word := BitVec 32

/-- One byte of an input or output stream, and one byte lane of the bus (R67, R68). -/
abbrev Byte := BitVec 8

end Sys2Proof
end

