-- ==== Sys2Proof/Machine/Bus.lean ====
section
/-! DEFINITION. The bus side of the block: the register map (10_state.md R21), accesses and their byte lanes
(20_memory.md R60 to R67), the hardware reset event (70_reset_and_hazards.md R350) and the bus response. -/

namespace Sys2Proof.Machine

/-- The seven registers of the window (R21). -/
inductive Reg where
  | cmd | status | result | inp | out | ctrl | caps
  deriving DecidableEq, Repr

/-- The offset of a register (R21). -/
def offsetOf : Reg → Nat
  | .cmd => 0x00
  | .status => 0x04
  | .result => 0x08
  | .inp => 0x0C
  | .out => 0x10
  | .ctrl => 0x14
  | .caps => 0x18

/-- The register at an aligned offset of the window; offset 0x1C is reserved (R37, R65). -/
def regAt : Nat → Option Reg
  | 0x00 => some .cmd
  | 0x04 => some .status
  | 0x08 => some .result
  | 0x0C => some .inp
  | 0x10 => some .out
  | 0x14 => some .ctrl
  | 0x18 => some .caps
  | _ => none

/-- What an access transfers. A write carries its byte lanes, lane 0 first (R67), so its
width is their number; a burst is a transfer of another width than 4 (log 12). -/
inductive Xfer where
  | read (width : Nat)
  | write (lanes : List Byte)
  deriving DecidableEq, Repr

/-- The width of a transfer in bytes (R62). -/
def xferWidth : Xfer → Nat
  | .read n => n
  | .write ls => ls.length

/-- One access at a bus address (R61). It names no host: the block does not know which host issued it (R71). -/
structure Access where
  addr : Nat
  xfer : Xfer
  deriving DecidableEq, Repr

/-- What can reach the block: an access, or the hardware reset input between two accesses (R350). -/
inductive Event where
  | access (a : Access)
  | reset
  deriving DecidableEq, Repr

/-- The bus response of the last event. -/
inductive Response where
  /-- No access has been answered since power-on or the last hardware reset. -/
  | none
  /-- A write completed normally, whether or not it was refused with an error code (R314). -/
  | done
  /-- A read completed and returned these lanes, lane 0 first (R67). -/
  | data (lanes : List Byte)
  /-- A bus error: no data and no state change (R64). -/
  | busError
  deriving DecidableEq, Repr

/-- The four lanes of a register word, little-endian: bits [7:0] on lane 0 (R67). -/
def lanesOf (w : Word) : List Byte :=
  [w.extractLsb 7 0, w.extractLsb 15 8, w.extractLsb 23 16, w.extractLsb 31 24]

/-- The register word that four lanes carry (R67). Only four-byte accesses reach a register (R62), so the
value on other lane counts is never used. -/
def wordOfLanes : List Byte → Word
  | [l0, l1, l2, l3] => l3 ++ l2 ++ l1 ++ l0
  | _ => 0

end Sys2Proof.Machine
end

