-- ==== Sys2Proof/Config.lean ====
section
/-! DEFINITION. The fixed constants of 00_scope.md R6 and the two parameters it leaves open. -/

namespace Sys2Proof

namespace Const

/-- CLEAR = 2^MIN_CODE_SIZE (R6, R170). -/
abbrev clear : Nat := 256

/-- EOI = CLEAR + 1 (R6, R170). -/
abbrev eoi : Nat := 257

/-- FIRST_FREE, the first dictionary code (R6, R170). -/
abbrev firstFree : Nat := 258

/-- INIT_WIDTH = MIN_CODE_SIZE + 1 (R6). -/
abbrev initWidth : Nat := 9

/-- DICT_LIMIT = 2^MAX_WIDTH (R6). -/
abbrev dictLimit : Nat := 4096

/-- MAX_CHUNK, the payload bytes of a full sub-block (R6). -/
abbrev maxChunk : Nat := 255

/-- MAX_EXPANSION, the most entries one token can push (R6, R256). -/
abbrev maxExpansion : Nat := 261

end Const

/-- The parameters a model takes as arguments (R6): BASE and OUTQ_CAP. They are constant along a run.
DESIGN CHOICE (log 1): they stand in State, so that every statement about all states is about all parameters. -/
structure Config where
  /-- BASE: the bus address of offset 0x00 (R6, R60). -/
  base : Nat
  /-- OUTQ_CAP: the capacity of the output queue in entries (R6, R39). -/
  outqCap : Nat
  deriving DecidableEq, Repr

namespace Config

/-- The legal parameters of R6: BASE a multiple of 32, OUTQ_CAP in [262, 65535]. -/
abbrev Legal (c : Config) : Prop := 32 ∣ c.base ∧ 262 ≤ c.outqCap ∧ c.outqCap ≤ 65535

/-- OUTQ_CAP 512 is the default of R6; BASE 0 is a DESIGN CHOICE (log 1), unsafe to rest a claim on. -/
def default : Config := { base := 0, outqCap := 512 }

end Config

end Sys2Proof
end

