-- ==== Sys2Proof/Machine/Operands.lean ====
section
/-! DEFINITION. The operand helpers of the flag codec (40_flag_codec.md R130) and the opcode slice (30_encoding.md R99). -/

namespace Sys2Proof.Machine

/-- LEGAL_PLEN (R6, R130). -/
def legalPlen : List (BitVec 9) := [0, 2, 4, 8, 16, 32, 64, 128, 256]

/-- `plen_ok` (R130). -/
def plenOk (l : BitVec 9) : Bool := legalPlen.contains l

/-- `size_code` (R130): 0 for the empty palette, else log2 L − 1; used only where `plenOk`. -/
def sizeCode (l : BitVec 9) : BitVec 3 :=
  if l = 0 then 0 else BitVec.ofNat 3 (Nat.log2 l.toNat - 1)

/-- `present` (R130). -/
def present (l : BitVec 9) : BitVec 1 := if l = 0 then 0 else 1

/-- `plen_of` (R130): the palette length a parsed size field stands for, 0 when the present bit is 0. -/
def plenOf (p : BitVec 1) (z : BitVec 3) : BitVec 9 :=
  if p = 1 then BitVec.ofNat 9 (2 ^ (z.toNat + 1)) else 0

/-- `DISP ≤ 3` (R133): the disposal methods of R134 are 0 to 3. -/
def dispOk (d : BitVec 3) : Bool := d.toNat ≤ 3

/-- OPC = CMD[7:0] (R90). -/
def opcOf (w : Word) : Byte := w.extractLsb 7 0

end Sys2Proof.Machine
end

