-- ==== Sys2Proof/Syntax.lean ====
section
/-! DEFINITION. The operations of the block: one constructor per row of spec/opcode_table.json (30_encoding.md R98, R106).
Operands are the fields of R92 to R97, each a bit slice of the written word (R99). -/

namespace Sys2Proof

/-- One operation: a command written to CMD, a token written to IN, a word written to CTRL, or a register read. -/
inductive Instr where
  /-- NOP (R290). -/
  | nop
  /-- PACK_LSD: pack the logical-screen-descriptor flags (R92, R131). -/
  | packLsd (plen : BitVec 9) (cres : BitVec 3) (sort : BitVec 1)
  /-- PACK_IMG: pack the image-descriptor flags (R93, R132). -/
  | packImg (plen : BitVec 9) (ilace : BitVec 1) (sort : BitVec 1)
  /-- PACK_GCE: pack the graphics-control-extension flags (R94, R133). -/
  | packGce (disp : BitVec 3) (uin : BitVec 1) (trn : BitVec 1)
  /-- UNPACK_LSD: parse a header-flags byte (R95, R140). -/
  | unpackLsd (b : Byte)
  /-- UNPACK_IMG: parse an image-flags byte (R95, R141). -/
  | unpackImg (b : Byte)
  /-- UNPACK_GCE: parse a graphics-control flags byte (R95, R142). -/
  | unpackGce (b : Byte)
  /-- LZW_START: open a job of mode LZW (R250). -/
  | lzwStart
  /-- CHUNK_START: open a job of mode CHUNK (R252). -/
  | chunkStart
  /-- IMGDATA_START: open a job of mode IMGDATA (R251). -/
  | imgdataStart
  /-- FEED: a data token (R96, R254). -/
  | feed (k : Byte)
  /-- END: the end-of-input token (R96, R255). -/
  | endToken
  /-- CTRL_NONE: a CTRL write of 0 (R291). -/
  | ctrlNone
  /-- SRST: a CTRL write with bit 0 set; bit 1 (ERR_CLR) is free (R97, R291, R292). -/
  | srst (errClr : BitVec 1)
  /-- ERRCLR: a CTRL write of 2 (R291, R293). -/
  | errclr
  /-- RD STATUS (R294). -/
  | rdStatus
  /-- RD RESULT (R295). -/
  | rdResult
  /-- POP: a read of OUT (R257). -/
  | pop
  /-- RD CAPS (R296). -/
  | rdCaps
  deriving DecidableEq, Repr

end Sys2Proof
end

