-- ==== Sys2Proof/WellFormed.lean ====
section
/-! DEFINITION. Which operations have legal field values (30_encoding.md R92 to R94, column "legal values").
Every field fits its width by its type; an operation that is not well formed still encodes, decodes and runs, and its
meaning refuses it with the error the spec names (log 11). -/

namespace Sys2Proof

/-- The operands name legal values: PLEN ∈ LEGAL_PLEN (R92, R93) and DISP ∈ 0..3 (R94). -/
def WellFormed : Instr → Bool
  | .packLsd plen _ _ => Machine.plenOk plen
  | .packImg plen _ _ => Machine.plenOk plen
  | .packGce disp _ _ => Machine.dispOk disp
  | .nop | .unpackLsd _ | .unpackImg _ | .unpackGce _ | .lzwStart | .chunkStart | .imgdataStart
  | .feed _ | .endToken | .ctrlNone | .srst _ | .errclr | .rdStatus | .rdResult | .pop | .rdCaps => true

end Sys2Proof
end

