-- ==== Sys2Proof/Decode.lean ====
section
/-! DEFINITION. Decoding an access, total on every address, width, direction and byte lanes (20_memory.md R61 to R66,
30_encoding.md R90 to R103), and the encoder written from the same formats (R91 to R97, R104). -/

namespace Sys2Proof

open Machine (Reg Xfer Access offsetOf regAt xferWidth lanesOf wordOfLanes opcOf)

/-- What an access spells. Every way of spelling no operation has a name. -/
inductive Decoded where
  /-- A listed operation. -/
  | instr (i : Instr)
  /-- CMD[7:0] is no opcode of R98: ERR_OPC (R100). -/
  | badOpcode
  /-- A reserved bit of CMD, IN or CTRL is 1, or an END word carries a byte: ERR_RSVD (R96, R97, R101). -/
  | reservedBits
  /-- The window does not accept the access: a bus error (R64). -/
  | busError
  /-- The address is outside the window: the access does not reach the block (R61). -/
  | outside
  deriving DecidableEq, Repr

/-- A row of the opcode map (R98): the opcode, the mask test and the operation its fields make (R99). -/
structure OpRow where
  opc : Byte
  pattern : Word
  mask : Word
  build : Word → Instr

/-- The complete opcode map of CMD (R98), with the fields of R99. -/
def opcodeMap : List OpRow :=
  [ { opc := 0x00, pattern := 0x00000000, mask := 0xFFFFFFFF, build := fun _ => .nop },
    { opc := 0x10, pattern := 0x00000010, mask := 0xFFE000FF,
      build := fun w => .packLsd (w.extractLsb 16 8) (w.extractLsb 19 17) (w.extractLsb 20 20) },
    { opc := 0x11, pattern := 0x00000011, mask := 0xFFF800FF,
      build := fun w => .packImg (w.extractLsb 16 8) (w.extractLsb 17 17) (w.extractLsb 18 18) },
    { opc := 0x12, pattern := 0x00000012, mask := 0xFFFFE0FF,
      build := fun w => .packGce (w.extractLsb 10 8) (w.extractLsb 11 11) (w.extractLsb 12 12) } ] ++
  [ { opc := 0x18, pattern := 0x00000018, mask := 0xFFFF00FF, build := fun w => .unpackLsd (w.extractLsb 15 8) },
    { opc := 0x19, pattern := 0x00000019, mask := 0xFFFF00FF, build := fun w => .unpackImg (w.extractLsb 15 8) },
    { opc := 0x1A, pattern := 0x0000001A, mask := 0xFFFF00FF, build := fun w => .unpackGce (w.extractLsb 15 8) },
    { opc := 0x20, pattern := 0x00000020, mask := 0xFFFFFFFF, build := fun _ => .lzwStart },
    { opc := 0x21, pattern := 0x00000021, mask := 0xFFFFFFFF, build := fun _ => .chunkStart },
    { opc := 0x22, pattern := 0x00000022, mask := 0xFFFFFFFF, build := fun _ => .imgdataStart } ]

/-- A word written to CMD: read OPC, look it up, check the mask (R103). -/
def decodeCmd (w : Word) : Decoded :=
  match opcodeMap.find? (fun r => r.opc == opcOf w) with
  | none => .badOpcode
  | some r => if w &&& r.mask = r.pattern then .instr (r.build w) else .reservedBits

/-- A word written to IN (R96). -/
def decodeIn (w : Word) : Decoded :=
  if w.extractLsb 31 9 ≠ 0 ∨ (w.extractLsb 8 8 = 1 ∧ w.extractLsb 7 0 ≠ 0) then .reservedBits
  else if w.extractLsb 8 8 = 1 then .instr .endToken
  else .instr (.feed (w.extractLsb 7 0))

/-- A word written to CTRL (R97, R291): SRST takes precedence and its word's bit 1 is free. -/
def decodeCtrl (w : Word) : Decoded :=
  if w.extractLsb 31 2 ≠ 0 then .reservedBits
  else if w.extractLsb 0 0 = 1 then .instr (.srst (w.extractLsb 1 1))
  else if w.extractLsb 1 1 = 1 then .instr .errclr
  else .instr .ctrlNone

/-- A write of a word to a register; a write of a read-only register is a bus error (R66). -/
def decodeWrite (r : Reg) (w : Word) : Decoded :=
  match r with
  | .cmd => decodeCmd w
  | .inp => decodeIn w
  | .ctrl => decodeCtrl w
  | .status | .result | .out | .caps => .busError

/-- A read of a register; a read of a write-only register is a bus error (R66). -/
def decodeRead (r : Reg) : Decoded :=
  match r with
  | .status => .instr .rdStatus
  | .result => .instr .rdResult
  | .out => .instr .pop
  | .caps => .instr .rdCaps
  | .cmd | .inp | .ctrl => .busError

/-- An access at an offset of the window (R62 to R66). -/
def decodeWindow (off : Nat) (x : Xfer) : Decoded :=
  if xferWidth x ≠ 4 then .busError
  else if off % 4 ≠ 0 then .busError
  else match regAt off with
    | none => .busError
    | some r => match x with
      | .read _ => decodeRead r
      | .write lanes => decodeWrite r (wordOfLanes lanes)

/-- An access at a bus address: it reaches the block when BASE ≤ A < BASE + 32 (R61). -/
def decodeAccess (base : Nat) (a : Access) : Decoded :=
  if a.addr < base ∨ base + 32 ≤ a.addr then .outside
  else decodeWindow (a.addr - base) a.xfer

/-- The word an operation is written as, most significant field first (R91 to R97, R104). A read carries no word. -/
def encodeWord : Instr → Word
  | .nop => 0#24 ++ 0x00#8
  | .packLsd plen cres sort => 0#11 ++ sort ++ cres ++ plen ++ 0x10#8
  | .packImg plen ilace sort => 0#13 ++ sort ++ ilace ++ plen ++ 0x11#8
  | .packGce disp uin trn => 0#19 ++ trn ++ uin ++ disp ++ 0x12#8
  | .unpackLsd b => 0#16 ++ b ++ 0x18#8
  | .unpackImg b => 0#16 ++ b ++ 0x19#8
  | .unpackGce b => 0#16 ++ b ++ 0x1A#8
  | .lzwStart => 0#24 ++ 0x20#8
  | .chunkStart => 0#24 ++ 0x21#8
  | .imgdataStart => 0#24 ++ 0x22#8
  | .feed k => 0#23 ++ 0#1 ++ k
  | .endToken => 0#23 ++ 1#1 ++ 0#8
  | .ctrlNone => 0#30 ++ 0#1 ++ 0#1
  | .srst errClr => 0#30 ++ errClr ++ 1#1
  | .errclr => 0#30 ++ 1#1 ++ 0#1
  | .rdStatus => 0
  | .rdResult => 0
  | .pop => 0
  | .rdCaps => 0

/-- The register an operation accesses (R104, R106). -/
def regOf : Instr → Reg
  | .nop | .packLsd _ _ _ | .packImg _ _ _ | .packGce _ _ _ | .unpackLsd _ | .unpackImg _ | .unpackGce _
  | .lzwStart | .chunkStart | .imgdataStart => .cmd
  | .feed _ | .endToken => .inp
  | .ctrlNone | .srst _ | .errclr => .ctrl
  | .rdStatus => .status
  | .rdResult => .result
  | .pop => .out
  | .rdCaps => .caps

/-- The direction of an operation: true for a read (R104, R106). -/
def isRead : Instr → Bool
  | .rdStatus | .rdResult | .pop | .rdCaps => true
  | .nop | .packLsd _ _ _ | .packImg _ _ _ | .packGce _ _ _ | .unpackLsd _ | .unpackImg _ | .unpackGce _
  | .lzwStart | .chunkStart | .imgdataStart | .feed _ | .endToken | .ctrlNone | .srst _ | .errclr => false

/-- The access that performs an operation on a block at `base`: 4 bytes at the register's offset (R104). -/
def encode (base : Nat) (i : Instr) : Access :=
  { addr := base + offsetOf (regOf i)
    xfer := if isRead i then .read 4 else .write (lanesOf (encodeWord i)) }

/-- The access that writes a word to a register of a block at `base` (R8's MemWrite). -/
def writeAccess (base : Nat) (r : Reg) (w : Word) : Access :=
  { addr := base + offsetOf r, xfer := .write (lanesOf w) }

/-- The access that reads a register of a block at `base` (R8's MemRead). -/
def readAccess (base : Nat) (r : Reg) : Access :=
  { addr := base + offsetOf r, xfer := .read 4 }

/-- The access that stands for a row of the opcode table given by its word alone.
DESIGN CHOICE (log 8): the table's words of different registers coincide, so a word is taken as a CMD word if it is one,
else as a CTRL word if it is one, else as an IN word; no bits at all stand for a read of STATUS. -/
def tableAccess (base nbits w : Nat) : Access :=
  let word : Word := BitVec.ofNat 32 w
  if nbits = 0 then readAccess base .status
  else match decodeCmd word with
    | .instr _ => writeAccess base .cmd word
    | _ => match decodeCtrl word with
      | .instr _ => writeAccess base .ctrl word
      | _ => writeAccess base .inp word

/-- The instruction the decoder reads from a table word (log 8). Words longer than 32 bits spell nothing (R90). -/
def decodeTableWord (nbits w : Nat) : Option Instr :=
  if 2 ^ 32 ≤ w then none
  else match decodeAccess 0 (tableAccess 0 nbits w) with
    | .instr i => some i
    | _ => none

end Sys2Proof
end

