-- ==== Sys2Proof/Machine/State.lean ====
section
/-! DEFINITION. The state of the block (10_state.md R38 to R41), the reasons a step can stop, and reset (R45). -/

namespace Sys2Proof.Machine

/-- Why the machine stops with a fault. -/
inductive Fault where
  /-- Raised by FEED and END in a state with PHASE = RUN and MODE = NONE, for which R254 and R255 give no case.
  No run reaches such a state (Inv). Safe: it stops where the spec has no state. -/
  | runWithoutMode
  deriving DecidableEq, Repr

/-- Why an access is given no meaning. -/
inductive Refusal where
  /-- Raised by an arm of exec whose instruction has no meaning yet. Safe. No arm raises it. -/
  | notModelled (mnemonic : String)
  /-- Raised by an access outside the window: it belongs to another device of the bus, whose answer this spec does not
  give (R61: "Accesses outside the window are not the block's concern"). Safe. -/
  | outsideWindow
  deriving DecidableEq, Repr

/-- PHASE (R38). -/
inductive Phase where
  | idle | run
  deriving DecidableEq, Repr

/-- MODE (R38, R29), encoded 0 to 3 in this order. -/
inductive Mode where
  | none | lzw | chunk | imgdata
  deriving DecidableEq, Repr

/-- The error codes 1 to 8 of 60_exceptions.md R312; code 0 is "no error recorded". Codes 9 to 15 are never produced (U8). -/
inductive ErrCode where
  | opc | rsvd | palette | range | busy | nojob | overrun | outfull
  deriving DecidableEq, Repr

/-- An entry of the output queue: a byte and its end-of-job mark (R39). -/
structure Entry where
  byte : Byte
  eoj : Bool
  deriving DecidableEq, Repr

/-- One dictionary entry: the key (prefix code, byte) and its code (R40, R171). -/
structure DictEntry where
  pre : Nat
  byte : Byte
  code : Nat
  deriving DecidableEq, Repr

/-- The LZW engine (R40). DICT is listed newest first, so that codes fall strictly from NEXT−1 to 258. Codes and counters
are exact natural numbers, as R8 and R13 have them (log 10). -/
structure Lzw where
  dict : List DictEntry
  cur : Option Nat
  next : Nat
  width : Nat
  bitbuf : Nat
  bitcnt : Nat
  deriving DecidableEq, Repr

/-- The engine with no bits pending, no match and an empty dictionary. DESIGN CHOICE (log 6): what the engine holds after
reset, where R43 allows any value. -/
def Lzw.blank : Lzw :=
  { dict := [], cur := .none, next := Const.firstFree, width := Const.initWidth, bitbuf := 0, bitcnt := 0 }

/-- The state of the block, its parameters, and the two ends of its bus. -/
structure State where
  /-- The parameters BASE and OUTQ_CAP (R6); no step changes them (log 1). -/
  cfg : Config
  /-- PHASE (R38, R24). -/
  phase : Phase
  /-- MODE (R38, R29). -/
  mode : Mode
  /-- DONE (R38, R25). -/
  done : Bool
  /-- ERR (R38, R28); `none` is code 0 (log 9). -/
  err : Option ErrCode
  /-- RESULT (R38, R32). -/
  result : Word
  /-- Q, oldest entry first (R39). -/
  queue : List Entry
  /-- DICT, CUR, NEXT, WIDTH, BITBUF, BITCNT (R40). -/
  lzw : Lzw
  /-- CBUF, oldest byte first (R41). -/
  cbuf : List Byte
  /-- The model's own field: events that have not reached the block yet, in port order (R70, R71; log 2). -/
  port : List Event
  /-- The model's own field: the bus response to the last event (R64, R67; log 3). -/
  resp : Response
  deriving DecidableEq, Repr

/-- The reset state of a block with given parameters (R45). -/
def State.resetWith (c : Config) : State :=
  { cfg := c, phase := .idle, mode := .none, done := false, err := .none, result := 0, queue := []
    lzw := Lzw.blank, cbuf := [], port := [], resp := .none }

/-- The machine right after reset (R45, R350), with the default parameters (log 1). -/
def State.reset : State := State.resetWith Config.default

end Sys2Proof.Machine
end

