-- ==== Sys2Proof/Machine/Flags.lean ====
section
/-! DEFINITION. The fields of STATUS (10_state.md R23 to R31), the register words a read returns (R34, R36, R294 to R296),
and the readiness test they share with the tokens (43_stream_jobs.md R256). -/

namespace Sys2Proof.Machine

/-- STATUS.MODE (R29). -/
def modeBits : Mode → BitVec 2
  | .none => 0
  | .lzw => 1
  | .chunk => 2
  | .imgdata => 3

/-- STATUS.ERR: the codes of R312. -/
def errBits : Option ErrCode → BitVec 4
  | .none => 0
  | .some .opc => 1
  | .some .rsvd => 2
  | .some .palette => 3
  | .some .range => 4
  | .some .busy => 5
  | .some .nojob => 6
  | .some .overrun => 7
  | .some .outfull => 8

/-- |Q| + MAX_EXPANSION ≤ OUTQ_CAP (R256). -/
def hasRoom (s : State) : Bool := s.queue.length + Const.maxExpansion ≤ s.cfg.outqCap

/-- STATUS.BUSY (R24). -/
def busy (s : State) : Bool := s.phase = .run

/-- STATUS.IN_READY (R26, R256). -/
def inReady (s : State) : Bool := busy s && hasRoom s

/-- STATUS.OUT_VALID (R27). -/
def outValid (s : State) : Bool := 1 ≤ s.queue.length

/-- STATUS, most significant field first: OUT_LEVEL:16 | 0:6 | MODE:2 | ERR:4 | OUT_VALID | IN_READY | DONE | BUSY
(R23, R294). -/
def statusWord (s : State) : Word :=
  BitVec.ofNat 16 s.queue.length ++ 0#6 ++ modeBits s.mode ++ errBits s.err ++
    BitVec.ofBool (outValid s) ++ BitVec.ofBool (inReady s) ++ BitVec.ofBool s.done ++ BitVec.ofBool (busy s)

/-- CAPS: OUTQ_CAP:16 | 0:4 | MAX_WIDTH:4 | MIN_CODE_SIZE:8 (R36, R296). -/
def capsWord (c : Config) : Word := BitVec.ofNat 16 c.outqCap ++ 0#4 ++ 12#4 ++ 8#8

/-- The word OUT returns for an entry: 0:22 | EOJ:1 | VALID:1 | BYTE:8 (R34, R257). -/
def outWord (e : Entry) : Word := 0#22 ++ BitVec.ofBool e.eoj ++ 1#1 ++ e.byte

end Sys2Proof.Machine
end

