-- ==== Sys2Proof/Machine/Ops.lean ====
section
/-! DEFINITION. The named operations over State that the meanings share: the bus response, `raise Err` and its return,
RESULT, the output queue, job bookkeeping and reset. -/

namespace Sys2Proof.Machine

/-- The three outcomes of one step of this machine. -/
abbrev Result := Host.Outcome State Fault Refusal

/-- Put a response on the bus. -/
def respond (r : Response) (s : State) : State := { s with resp := r }

/-- A write that completed. -/
def complete (s : State) : Result := .next (respond .done s)

/-- A read that returns a word on its four lanes (R67). -/
def answer (w : Word) (s : State) : Result := .next (respond (.data (lanesOf w)) s)

/-- `raise Err(code)`, the block's only exception entry (R311): the first error wins and nothing else changes. -/
def raiseErr (e : ErrCode) (s : State) : State :=
  match s.err with
  | .none => { s with err := .some e }
  | .some _ => s

/-- A refused write: the error is recorded and the access completes on the bus (R311, R314, U5). -/
def refuse (e : ErrCode) (s : State) : Result := complete (raiseErr e s)

/-- CTRL.ERR_CLR, the return from an error (R293, R317): ERR ← 0 and nothing else. -/
def clearErr (s : State) : State := { s with err := .none }

/-- RESULT ← w (R32). -/
def setResult (w : Word) (s : State) : State := { s with result := w }

/-- Q.push(b, 0) for each byte in order (R8, R39). -/
def push (bs : List Byte) (s : State) : State :=
  { s with queue := s.queue ++ bs.map (fun b => { byte := b, eoj := false }) }

/-- Q ← q, used to remove the head (R257) and to mark the tail (R259). -/
def setQueue (q : List Entry) (s : State) : State := { s with queue := q }

/-- The LZW engine takes a new value. -/
def setLzw (z : Lzw) (s : State) : State := { s with lzw := z }

/-- CBUF takes a new value. -/
def setCbuf (c : List Byte) (s : State) : State := { s with cbuf := c }

/-- PHASE ← RUN; MODE ← m; DONE ← 0 (R250 to R252). -/
def openJob (m : Mode) (s : State) : State := { s with phase := .run, mode := m, done := false }

/-- PHASE ← IDLE; DONE ← 1; MODE keeps the finished job's mode (R255, R29). -/
def closeJob (s : State) : State := { s with phase := .idle, done := true }

/-- e ← 1 on the most recently pushed entry (R259). -/
def markLast : List Entry → List Entry
  | [] => []
  | [e] => [{ e with eoj := true }]
  | e :: f :: q => e :: markLast (f :: q)

/-- `mark_eoj()` (R259). -/
def markEoj (s : State) : State := setQueue (markLast s.queue) s

/-- The events still to be delivered. They are outside the block: no access changes them. -/
def setPort (es : List Event) (s : State) : State := { s with port := es }

/-- `soft_reset()` (R292, R45): every piece of the block's state takes its reset value. The parameters and the events that
have not reached the block stay (log 14). -/
def softReset (s : State) : State := setPort s.port (State.resetWith s.cfg)

end Sys2Proof.Machine
end

