-- ==== Sys2Proof/Machine/Control.lean ====
section
/-! DEFINITION. No-operation, CTRL writes and plain register reads (44_control.md R290 to R296). -/

namespace Sys2Proof.Machine

/-- NOP (R290): no effect; the write completes. -/
def execNop (s : State) : Result := complete s

/-- A CTRL write of 0 (R291): no effect. -/
def execCtrlNone (s : State) : Result := complete s

/-- SRST (R291, R292). ERR_CLR in the same word is redundant: the reset clears ERR. -/
def execSrst (_errClr : BitVec 1) (s : State) : Result := complete (softReset s)

/-- ERR_CLR (R291, R293). -/
def execErrclr (s : State) : Result := complete (clearErr s)

/-- RD STATUS (R294). -/
def execRdStatus (s : State) : Result := answer (statusWord s) s

/-- RD RESULT (R295). -/
def execRdResult (s : State) : Result := answer s.result s

/-- RD CAPS (R296). -/
def execRdCaps (s : State) : Result := answer (capsWord s.cfg) s

end Sys2Proof.Machine
end

