-- ==== Sys2Proof/Machine/FlagCodec.lean ====
section
/-! DEFINITION. The flag commands (40_flag_codec.md R131 to R143). A byte or a result is written as its field picture, most
significant field first (R9). Reserved bits of the command word are refused in decoding (R313 puts them first). -/

namespace Sys2Proof.Machine

/-- `GCT:1 | CRES:3 | SORT:1 | SIZE:3` (R131). -/
def lsdByte (plen : BitVec 9) (cres : BitVec 3) (sort : BitVec 1) : Byte :=
  present plen ++ cres ++ sort ++ sizeCode plen

/-- `LCT:1 | ILACE:1 | SORT:1 | RSV:2 | SIZE:3`, RSV emitted as 0 (R132). -/
def imgByte (plen : BitVec 9) (ilace sort : BitVec 1) : Byte :=
  present plen ++ ilace ++ sort ++ 0#2 ++ sizeCode plen

/-- `RSV:3 | DISP:3 | UIN:1 | TRN:1`, RSV emitted as 0 (R133). -/
def gceByte (disp : BitVec 3) (uin trn : BitVec 1) : Byte :=
  0#3 ++ disp ++ uin ++ trn

/-- NONCANON of a header-flags byte (R140). -/
def lsdNoncanon (b : Byte) : Bool := b.extractLsb 7 7 = 0 ∧ b.extractLsb 2 0 ≠ 0

/-- NONCANON of an image-flags byte (R141). -/
def imgNoncanon (b : Byte) : Bool :=
  (b.extractLsb 7 7 = 0 ∧ b.extractLsb 2 0 ≠ 0) ∨ b.extractLsb 4 3 ≠ 0

/-- NONCANON of a graphics-control flags byte (R142). -/
def gceNoncanon (b : Byte) : Bool := b.extractLsb 7 5 ≠ 0 ∨ dispOk (b.extractLsb 4 2) = false

/-- RESULT of UNPACK_LSD: `0:14 | NONCANON | GCT | SIZE:3 | SORT | CRES:3 | PLEN:9` (R140). -/
def lsdFields (b : Byte) : Word :=
  0#14 ++ BitVec.ofBool (lsdNoncanon b) ++ b.extractLsb 7 7 ++ b.extractLsb 2 0 ++ b.extractLsb 3 3 ++
    b.extractLsb 6 4 ++ plenOf (b.extractLsb 7 7) (b.extractLsb 2 0)

/-- RESULT of UNPACK_IMG: `0:14 | NONCANON | LCT | SIZE:3 | RSV:2 | SORT | ILACE | PLEN:9` (R141). -/
def imgFields (b : Byte) : Word :=
  0#14 ++ BitVec.ofBool (imgNoncanon b) ++ b.extractLsb 7 7 ++ b.extractLsb 2 0 ++ b.extractLsb 4 3 ++
    b.extractLsb 5 5 ++ b.extractLsb 6 6 ++ plenOf (b.extractLsb 7 7) (b.extractLsb 2 0)

/-- RESULT of UNPACK_GCE: `0:14 | NONCANON | 0:9 | RSV:3 | TRN | UIN | DISP:3` (R142). -/
def gceFields (b : Byte) : Word :=
  0#14 ++ BitVec.ofBool (gceNoncanon b) ++ 0#9 ++ b.extractLsb 7 5 ++ b.extractLsb 0 0 ++ b.extractLsb 1 1 ++
    b.extractLsb 4 2

/-- PACK_LSD (R131). -/
def execPackLsd (plen : BitVec 9) (cres : BitVec 3) (sort : BitVec 1) (s : State) : Result :=
  if plenOk plen then complete (setResult ((lsdByte plen cres sort).setWidth 32) s)
  else refuse .palette s

/-- PACK_IMG (R132). -/
def execPackImg (plen : BitVec 9) (ilace sort : BitVec 1) (s : State) : Result :=
  if plenOk plen then complete (setResult ((imgByte plen ilace sort).setWidth 32) s)
  else refuse .palette s

/-- PACK_GCE (R133). -/
def execPackGce (disp : BitVec 3) (uin trn : BitVec 1) (s : State) : Result :=
  if dispOk disp then complete (setResult ((gceByte disp uin trn).setWidth 32) s)
  else refuse .range s

/-- UNPACK_LSD (R140). -/
def execUnpackLsd (b : Byte) (s : State) : Result := complete (setResult (lsdFields b) s)

/-- UNPACK_IMG (R141). -/
def execUnpackImg (b : Byte) (s : State) : Result := complete (setResult (imgFields b) s)

/-- UNPACK_GCE (R142). -/
def execUnpackGce (b : Byte) (s : State) : Result := complete (setResult (gceFields b) s)

end Sys2Proof.Machine
end

