-- ==== Sys2Proof/Machine/Chunker.lean ====
section
/-! DEFINITION. The block chunker (42_chunker.md R220 to R229). Each step answers the new CBUF and the bytes it pushes. -/

namespace Sys2Proof.Machine

/-- A sub-block: the length prefix and the payload (R220). -/
def subBlock (payload : List Byte) : List Byte := BitVec.ofNat 8 payload.length :: payload

/-- `chunk_byte(b)` (R225): a full sub-block leaves the moment its 255th byte arrives. -/
def chunkByte (b : Byte) (cbuf : List Byte) : List Byte × List Byte :=
  let c := cbuf ++ [b]
  if c.length = Const.maxChunk then ([], subBlock c) else (c, [])

/-- `chunk_byte` for each byte in order (R187, R228). -/
def chunkBytes : List Byte → List Byte → List Byte × List Byte
  | [], cbuf => (cbuf, [])
  | b :: bs, cbuf =>
    let r := chunkByte b cbuf
    let q := chunkBytes bs r.1
    (q.1, r.2 ++ q.2)

/-- The bytes pushed by `chunk_end()` (R227): the last short sub-block, if any, and the terminator. -/
def chunkEnd (cbuf : List Byte) : List Byte :=
  (if 0 < cbuf.length then subBlock cbuf else []) ++ [0x00]

end Sys2Proof.Machine
end

