-- ==== Sys2Proof/Machine/Lzw.lean ====
section
/-! DEFINITION. The LZW compressor (41_lzw.md R170 to R188). Each step answers the new engine and the bytes it sinks, in
order; the job decides where they go (R187; log 13). -/

namespace Sys2Proof.Machine

/-- The `while` loop of `emit_code` (R172): sink the low byte while at least 8 bits are pending. The first argument bounds
the number of turns; BITCNT itself is always enough (log 15). -/
def sinkBytes : Nat → Lzw → Lzw × List Byte
  | 0, z => (z, [])
  | n + 1, z =>
    if 8 ≤ z.bitcnt then
      let rest := sinkBytes n { z with bitbuf := z.bitbuf >>> 8, bitcnt := z.bitcnt - 8 }
      (rest.1, BitVec.ofNat 8 z.bitbuf :: rest.2)
    else (z, [])

/-- `emit_code(c)` (R172): the code fills the next WIDTH bit positions, least significant bit first. -/
def emitCode (c : Nat) (z : Lzw) : Lzw × List Byte :=
  let z1 := { z with bitbuf := z.bitbuf ||| (c <<< z.bitcnt), bitcnt := z.bitcnt + z.width }
  sinkBytes z1.bitcnt z1

/-- `reset_dict()` (R173). -/
def resetDict (z : Lzw) : Lzw := { z with dict := [], next := Const.firstFree, width := Const.initWidth }

/-- `DICT[(p, k)]`, if the pair is in DICT (R40). -/
def lookup (p : Nat) (k : Byte) (d : List DictEntry) : Option Nat :=
  (d.find? (fun e => e.pre == p && e.byte == k)).map DictEntry.code

/-- `lzw_init()` (R174). It sets every field, so nothing of an earlier job is left (R186). -/
def lzwInit : Lzw × List Byte :=
  emitCode Const.clear
    (resetDict { dict := [], cur := none, next := 0, width := 0, bitbuf := 0, bitcnt := 0 })

/-- The insertion of `lzw_byte` (R175): DICT[(p, k)] ← NEXT; NEXT ← NEXT + 1. -/
def insertCode (p : Nat) (k : Byte) (z : Lzw) : Lzw :=
  { z with dict := { pre := p, byte := k, code := z.next } :: z.dict, next := z.next + 1 }

/-- What follows the insertion (R175, R177): a full dictionary emits CLEAR and resets; assigning code 2^WIDTH widens. -/
def afterInsert (z : Lzw) : Lzw × List Byte :=
  if z.next = Const.dictLimit then
    let r := emitCode Const.clear z
    (resetDict r.1, r.2)
  else if z.next - 1 = 2 ^ z.width then ({ z with width := z.width + 1 }, [])
  else (z, [])

/-- `lzw_byte(k)` (R175). -/
def lzwByte (k : Byte) (z : Lzw) : Lzw × List Byte :=
  match z.cur with
  | none => ({ z with cur := some k.toNat }, [])
  | some p =>
    match lookup p k z.dict with
    | some c => ({ z with cur := some c }, [])
    | none =>
      let r1 := emitCode p z
      let r2 := afterInsert (insertCode p k r1.1)
      ({ r2.1 with cur := some k.toNat }, r1.2 ++ r2.2)

/-- The last data code of `lzw_end` and the widening that follows it (R178). -/
def emitCurrent (z : Lzw) : Lzw × List Byte :=
  match z.cur with
  | none => (z, [])
  | some p =>
    let r := emitCode p z
    (if r.1.next = 2 ^ r.1.width then { r.1 with width := r.1.width + 1 } else r.1, r.2)

/-- The final partial byte of `lzw_end`, high bits 0 (R178, R179); afterwards no bit is pending. -/
def flushBits (z : Lzw) : Lzw × List Byte :=
  ({ z with bitbuf := 0, bitcnt := 0 }, if 0 < z.bitcnt then [BitVec.ofNat 8 z.bitbuf] else [])

/-- `lzw_end()` (R178). -/
def lzwEnd (z : Lzw) : Lzw × List Byte :=
  let r1 := emitCurrent z
  let r2 := emitCode Const.eoi r1.1
  let r3 := flushBits r2.1
  (r3.1, r1.2 ++ r2.2 ++ r3.2)

end Sys2Proof.Machine
end

