-- ==== Sys2Proof/Machine/StreamJobs.lean ====
section
/-! DEFINITION. Stream jobs, tokens and the output queue (43_stream_jobs.md R250 to R262). -/

namespace Sys2Proof.Machine

/-- `start_check()` (R253): the error a start raises, ERR_BUSY before ERR_OUTFULL (R313). -/
def startError (s : State) : Option ErrCode :=
  if s.phase = .run then some .busy
  else if s.cfg.outqCap ≤ s.queue.length then some .outfull
  else none

/-- The state checks of a token (R254, R255): ERR_NOJOB before ERR_OVERRUN (R313). -/
def tokenError (s : State) : Option ErrCode :=
  if s.phase = .idle then some .nojob
  else if hasRoom s then none
  else some .overrun

/-- Bytes of a mode IMGDATA go through the chunker, those of mode LZW straight to Q (R187). -/
def throughChunker (bs : List Byte) (s : State) : State :=
  push (chunkBytes bs s.cbuf).2 (setCbuf (chunkBytes bs s.cbuf).1 s)

/-- LZW_START (R250). -/
def execLzwStart (s : State) : Result :=
  match startError s with
  | some e => refuse e s
  | none => complete (push lzwInit.2 (setLzw lzwInit.1 (openJob .lzw s)))

/-- CHUNK_START (R252); `chunk_init` empties CBUF and sinks nothing (R224). -/
def execChunkStart (s : State) : Result :=
  match startError s with
  | some e => refuse e s
  | none => complete (setCbuf [] (openJob .chunk s))

/-- IMGDATA_START (R251): the minimum-code-size byte 0x08 goes to Q, the first LZW byte into CBUF. -/
def execImgdataStart (s : State) : Result :=
  match startError s with
  | some e => refuse e s
  | none =>
    complete (throughChunker lzwInit.2 (setLzw lzwInit.1 (setCbuf [] (push [0x08] (openJob .imgdata s)))))

/-- The effect of an accepted data token (R254). -/
def acceptByte (k : Byte) (s : State) : Result :=
  match s.mode with
  | .lzw => complete (push (lzwByte k s.lzw).2 (setLzw (lzwByte k s.lzw).1 s))
  | .chunk => complete (throughChunker [k] s)
  | .imgdata => complete (throughChunker (lzwByte k s.lzw).2 (setLzw (lzwByte k s.lzw).1 s))
  | .none => .fault .runWithoutMode

/-- FEED, the data token (R254). -/
def execFeed (k : Byte) (s : State) : Result :=
  match tokenError s with
  | some e => refuse e s
  | none => acceptByte k s

/-- `chunk_end()` on the state (R227). -/
def endChunks (s : State) : State := setCbuf [] (push (chunkEnd s.cbuf) s)

/-- The effect of an accepted END token (R255): the units finish, the last entry is marked (R259), the job closes. -/
def acceptEnd (s : State) : Result :=
  match s.mode with
  | .lzw => complete (closeJob (markEoj (push (lzwEnd s.lzw).2 (setLzw (lzwEnd s.lzw).1 s))))
  | .chunk => complete (closeJob (markEoj (endChunks s)))
  | .imgdata =>
    complete (closeJob (markEoj (endChunks (throughChunker (lzwEnd s.lzw).2 (setLzw (lzwEnd s.lzw).1 s)))))
  | .none => .fault .runWithoutMode

/-- END (R255). -/
def execEnd (s : State) : Result :=
  match tokenError s with
  | some e => refuse e s
  | none => acceptEnd s

/-- POP, a read of OUT (R257): an empty queue answers 0 and changes nothing. -/
def execPop (s : State) : Result :=
  match s.queue with
  | [] => answer 0 s
  | e :: q => answer (outWord e) (setQueue q s)

end Sys2Proof.Machine
end

