-- ==== Sys2Proof/Machine/Dispatch.lean ====
section
/-! DEFINITION. exec: one arm per operation of the opcode table, each a direct call of its meaning. -/

namespace Sys2Proof.Machine

def exec (i : Instr) (s : State) : Host.Outcome State Fault Refusal :=
  match i with
  | .nop => Sys2Proof.Machine.execNop s
  | .packLsd plen cres sort => Sys2Proof.Machine.execPackLsd plen cres sort s
  | .packImg plen ilace sort => Sys2Proof.Machine.execPackImg plen ilace sort s
  | .packGce disp uin trn => Sys2Proof.Machine.execPackGce disp uin trn s
  | .unpackLsd b => Sys2Proof.Machine.execUnpackLsd b s
  | .unpackImg b => Sys2Proof.Machine.execUnpackImg b s
  | .unpackGce b => Sys2Proof.Machine.execUnpackGce b s
  | .lzwStart => Sys2Proof.Machine.execLzwStart s
  | .chunkStart => Sys2Proof.Machine.execChunkStart s
  | .imgdataStart => Sys2Proof.Machine.execImgdataStart s
  | .feed k => Sys2Proof.Machine.execFeed k s
  | .endToken => Sys2Proof.Machine.execEnd s
  | .ctrlNone => Sys2Proof.Machine.execCtrlNone s
  | .srst errClr => Sys2Proof.Machine.execSrst errClr s
  | .errclr => Sys2Proof.Machine.execErrclr s
  | .rdStatus => Sys2Proof.Machine.execRdStatus s
  | .rdResult => Sys2Proof.Machine.execRdResult s
  | .pop => Sys2Proof.Machine.execPop s
  | .rdCaps => Sys2Proof.Machine.execRdCaps s

end Sys2Proof.Machine
end

