-- ==== Sys2Proof/Machine/Port.lean ====
section
/-! DEFINITION. What an event at the block's port does: the access dispatch of 20_memory.md R64 in the priority order of
60_exceptions.md R313, and the hardware reset of 70_reset_and_hazards.md R350. -/

namespace Sys2Proof.Machine

/-- One access (R64, R313): a bus error comes before everything and changes nothing but the response (log 4); a bad opcode
comes before reserved bits; a spelled operation then runs. -/
def serveAccess (a : Access) (s : State) : Result :=
  match decodeAccess s.cfg.base a with
  | .instr i => exec i s
  | .badOpcode => refuse .opc s
  | .reservedBits => refuse .rsvd s
  | .busError => .next (respond .busError s)
  | .outside => .refused .outsideWindow

/-- The host's 32-bit write of a register (R8's MemWrite). -/
def writeReg (r : Reg) (w : Word) (s : State) : Result := serveAccess (writeAccess s.cfg.base r w) s

/-- The host's 32-bit read of a register (R8's MemRead). -/
def readReg (r : Reg) (s : State) : Result := serveAccess (readAccess s.cfg.base r) s

/-- The hardware reset input (R350): the same effect as a soft reset; it is no access and answers none. -/
def hardReset (s : State) : State := respond .none (softReset s)

/-- One event. -/
def serveEvent (e : Event) (s : State) : Result :=
  match e with
  | .access a => serveAccess a s
  | .reset => .next (hardReset s)

/-- The oldest event is served; with none the block waits, and never changes state on its own (R261, U16; log 2). -/
def serveNext (s : State) : Result :=
  match s.port with
  | [] => .next s
  | e :: rest => serveEvent e (setPort rest s)

/-- Put an event in front of the port. -/
def offer (e : Event) (s : State) : State := setPort (e :: s.port) s

/-- Put the access of an opcode-table word in front of the port (log 8). -/
def offerTableWord (nbits w : Nat) (s : State) : State := offer (.access (tableAccess s.cfg.base nbits w)) s

end Sys2Proof.Machine
end

