-- ==== Sys2Proof/Machine/Step.lean ====
section
/-! DEFINITION. One step of the machine: the block serves the oldest event of its port (20_memory.md R70). -/

namespace Sys2Proof.Machine

/-- One step (R10, R70): one access or reset event, served in full. -/
def step (s : State) : Host.Outcome State Fault Refusal := serveNext s

/-- The state whose very next step performs the operation of an opcode-table word. The block fetches nothing (R74): an
operation is an access that a host issues, so the word's access is put in front of the port (log 8). -/
def State.withFetchWord (s : State) (nbits w : Nat) : State := offerTableWord nbits w s

end Sys2Proof.Machine
end

