-- ==== Sys2Proof/Machine/Driver.lean ====
section
/-! DEFINITION. The host side: runs of operations with what the host fed and popped (43_stream_jobs.md R258), runs of
events that watch what becomes of one job (R262), and the pseudo-instructions of 30_encoding.md R105, which are host loops
over the block and no block operations. A loop carries a bound on its turns and answers none where the bound is used up
(log 17). -/

namespace Sys2Proof.Machine

/-- The data byte an operation gets accepted into the running job: a data token while IN_READY (R256). -/
def acceptedByte (i : Instr) (s : State) : List Byte :=
  match i with
  | .feed k => if inReady s then [k] else []
  | _ => []

/-- The entries an operation takes out of Q: POP takes the head (R257). -/
def poppedEntries (i : Instr) (s : State) : List Entry :=
  match i with
  | .pop => s.queue.take 1
  | _ => []

/-- What a run of operations leaves: the state, the accepted data bytes and the popped entries, each in order. -/
structure RunResult where
  state : State
  fed : List Byte
  popped : List Entry
  deriving DecidableEq, Repr

/-- A run of operations, none if one of them stops the machine. -/
def runOps : List Instr → State → Option RunResult
  | [], s => some { state := s, fed := [], popped := [] }
  | i :: is, s =>
    match exec i s with
    | .next t =>
      (runOps is t).map fun r =>
        { state := r.state, fed := acceptedByte i s ++ r.fed, popped := poppedEntries i s ++ r.popped }
    | .fault _ => none
    | .refused _ => none

/-- The access that performs an operation on the block of a state. -/
def opEvent (s : State) (i : Instr) : Event := .access (encode s.cfg.base i)

/-- The event is an access that spells the operation. -/
def spells (e : Event) (s : State) (i : Instr) : Bool :=
  match e with
  | .access a => decodeAccess s.cfg.base a = .instr i
  | .reset => false

/-- The event is one of the two resets (R350). -/
def isResetEvent (e : Event) (s : State) : Bool :=
  match e with
  | .reset => true
  | .access _ => spells e s (.srst 0) || spells e s (.srst 1)

/-- What has become of one job (R262, R351). -/
inductive JobWatch where
  /-- Its END token has not been accepted yet. -/
  | running
  /-- Its END was accepted; this many entries, up to and including its EOJ entry, are still to be popped. -/
  | left (n : Nat)
  /-- A reset abandoned it or discarded some of its entries. -/
  | abandoned
  deriving DecidableEq, Repr

/-- What an event that takes the block from s to t makes of the job. The EOJ entry is the last entry of Q when END is
accepted (R259), and POP takes entries in order (R257). -/
def watchEvent (e : Event) (s t : State) (w : JobWatch) : JobWatch :=
  match w with
  | .running =>
    if isResetEvent e s then .abandoned
    else if spells e s .endToken && inReady s then .left t.queue.length
    else .running
  | .left 0 => .left 0
  | .left (n + 1) =>
    if isResetEvent e s then .abandoned else if spells e s .pop then .left n else .left (n + 1)
  | .abandoned => .abandoned

/-- A run of events, with what becomes of the job; none if one of them stops the model. -/
def watchJob : List Event → State → JobWatch → Option (State × JobWatch)
  | [], s, w => some (s, w)
  | e :: es, s, w =>
    match serveEvent e s with
    | .next t => watchJob es t (watchEvent e s t w)
    | .fault _ => none
    | .refused _ => none

/-- The host issues a write. -/
def issue (i : Instr) (s : State) : Option State :=
  match exec i s with
  | .next t => some t
  | .fault _ => none
  | .refused _ => none

/-- The host issues a read and takes the word from the lanes of the response. -/
def readBack (i : Instr) (s : State) : Option (Word × State) :=
  match exec i s with
  | .next t =>
    match t.resp with
    | .data lanes => some (wordOfLanes lanes, t)
    | _ => none
  | .fault _ => none
  | .refused _ => none

/-- The byte of an OUT word, if it is valid (R34). -/
def keptByte (r : Word) : List Byte := if r.extractLsb 8 8 = 1 then [r.extractLsb 7 0] else []

/-- WAIT_READY (R105): read STATUS until IN_READY. -/
def waitReady : Nat → State → Option State
  | 0, _ => none
  | n + 1, s =>
    (readBack .rdStatus s).bind fun r =>
      if r.1.extractLsb 2 2 = 1 then some r.2 else waitReady n r.2

/-- FEEDW (R105), also ENDW with an END token: pop while IN_READY = 0, keep what is valid, then write the token. -/
def feedWhenReady (i : Instr) : Nat → State → Option (List Byte × State)
  | 0, _ => none
  | n + 1, s =>
    (readBack .rdStatus s).bind fun r =>
      if r.1.extractLsb 2 2 = 1 then (issue i r.2).map (fun t => ([], t))
      else (readBack .pop r.2).bind fun p =>
        (feedWhenReady i n p.2).map (fun q => (keptByte p.1 ++ q.1, q.2))

/-- DRAIN (R105): pop until OUT reads invalid. -/
def drain : Nat → State → Option (List Byte × State)
  | 0, _ => none
  | n + 1, s =>
    (readBack .pop s).bind fun p =>
      if p.1.extractLsb 8 8 = 0 then some ([], p.2)
      else (drain n p.2).map (fun q => (p.1.extractLsb 7 0 :: q.1, q.2))

/-- DRAIN_JOB (R105): pop up to and including the entry with EOJ. -/
def drainJob : Nat → State → Option (List Byte × State)
  | 0, _ => none
  | n + 1, s =>
    (readBack .pop s).bind fun p =>
      if p.1.extractLsb 9 9 = 1 then some (keptByte p.1, p.2)
      else (drainJob n p.2).map (fun q => (keptByte p.1 ++ q.1, q.2))

/-- FEEDW for each data byte in order; each loop is bounded by the queue's length. -/
def feedAll : List Byte → State → Option (List Byte × State)
  | [], s => some ([], s)
  | k :: x, s =>
    (feedWhenReady (.feed k) (s.queue.length + 1) s).bind fun r =>
      (feedAll x r.2).map (fun q => (r.1 ++ q.1, q.2))

/-- RUN_JOB (R105): start, FEEDW each byte, ENDW, DRAIN_JOB; the bytes collected on the way, in order. -/
def runJob (start : Instr) (x : List Byte) (s : State) : Option (List Byte × State) :=
  (issue start s).bind fun s1 =>
    (feedAll x s1).bind fun r =>
      (feedWhenReady .endToken (r.2.queue.length + 1) r.2).bind fun e =>
        (drainJob (e.2.queue.length + 1) e.2).map (fun d => (r.1 ++ e.1 ++ d.1, d.2))

end Sys2Proof.Machine
end

