-- ==== Sys2Proof/Machine/Reference.lean ====
section
/-! DEFINITION. The whole-stream functions the spec states its properties with: LZW (41_lzw.md R180), its code stream
(R176, R188), the decoder GIFDecode (R183), CHUNK (42_chunker.md R220), UNCHUNK (R222) and the job output (43_stream_jobs.md
R258). No instruction calls them. Their loops carry bounds that are always enough (log 15). A decoder that is stuck on a
malformed stream answers none (U17; log 18). -/

namespace Sys2Proof.Machine

/-- `lzw_byte` for each byte in order. -/
def lzwBytes : List Byte → Lzw → Lzw × List Byte
  | [], z => (z, [])
  | k :: x, z =>
    let r := lzwByte k z
    let q := lzwBytes x r.1
    (q.1, r.2 ++ q.2)

/-- LZW(x): the bytes sunk by `lzw_init(); lzw_byte(x[0]); …; lzw_end()` (R180). -/
def lzwStream (x : List Byte) : List Byte :=
  let r := lzwBytes x lzwInit.1
  lzwInit.2 ++ r.2 ++ (lzwEnd r.1).2

/-- A code and the width it is emitted at. -/
structure Coded where
  code : Nat
  width : Nat
  deriving DecidableEq, Repr

/-- The codes one `lzw_byte` emits, read off R175: the match, then CLEAR if code 4095 was assigned. -/
def byteCodes (k : Byte) (z : Lzw) : List Coded :=
  match z.cur with
  | none => []
  | some p =>
    match lookup p k z.dict with
    | some _ => []
    | none => ⟨p, z.width⟩ :: if z.next + 1 = Const.dictLimit then [⟨Const.clear, z.width⟩] else []

/-- The codes of `lzw_end`, read off R178: the last match, then EOI at the widened width. -/
def endCodes (z : Lzw) : List Coded :=
  match z.cur with
  | none => [⟨Const.eoi, z.width⟩]
  | some p => [⟨p, z.width⟩, ⟨Const.eoi, if z.next = 2 ^ z.width then z.width + 1 else z.width⟩]

/-- The codes of the data bytes, then those of END. -/
def codesFrom : List Byte → Lzw → List Coded
  | [], z => endCodes z
  | k :: x, z => byteCodes k z ++ codesFrom x (lzwByte k z).1

/-- The code stream of LZW(x), beginning with CLEAR at width 9 (R174, R188). -/
def lzwCodes (x : List Byte) : List Coded := ⟨Const.clear, Const.initWidth⟩ :: codesFrom x lzwInit.1

/-- The bits of a code, least significant first (R172). -/
def codeBits (c : Coded) : List Bool := (List.range c.width).map (fun j => c.code.testBit j)

/-- The value of a bit list, least significant bit first (R172). -/
def bitsValue : List Bool → Nat
  | [] => 0
  | b :: bs => (if b then 1 else 0) + 2 * bitsValue bs

/-- Byte j of the stream holds stream bits 8j to 8j+7; the last byte is padded with zero bits (R172, R179). The first
argument bounds the number of bytes. -/
def packBits : Nat → List Bool → List Byte
  | 0, _ => []
  | n + 1, bits => if bits = [] then [] else BitVec.ofNat 8 (bitsValue (bits.take 8)) :: packBits n (bits.drop 8)

/-- The byte stream of a code stream (R172, R179). -/
def packCodes (cs : List Coded) : List Byte := packBits (cs.flatMap codeBits).length (cs.flatMap codeBits)

/-- The width of the j-th code after a CLEAR (R176). -/
def widthSchedule (j : Nat) : Nat :=
  if j ≤ 255 then 9 else if j ≤ 767 then 10 else if j ≤ 1791 then 11 else 12

/-- str(c) (R171). DICT is listed newest first and a prefix code is older than its entry, so the prefix is looked up in the
rest of the list. -/
def codeString : List DictEntry → Nat → List Byte
  | [], c => [BitVec.ofNat 8 c]
  | e :: d, c => if e.code = c then codeString d e.pre ++ [e.byte] else codeString d c

/-- str(CUR), the bytes CUR stands for; none with no match (R171, R182). -/
def matchString (z : Lzw) : List Byte :=
  match z.cur with
  | none => []
  | some c => codeString z.dict c

/-- The bytes consumed since the last emitted code, after one more byte (R182): a byte whose step emits a code is the first
of them. -/
def unemittedAfter (k : Byte) (z : Lzw) (u : List Byte) : List Byte :=
  match byteCodes k z with
  | [] => u ++ [k]
  | _ :: _ => [k]

/-- The bytes consumed since the last emitted code, after a run of bytes. -/
def unemitted : List Byte → Lzw → List Byte → List Byte
  | [], _, u => u
  | k :: x, z, u => unemitted x (lzwByte k z).1 (unemittedAfter k z u)

/-- The bits of a byte sequence in stream order (R172). -/
def streamBits (s : List Byte) : List Bool := s.flatMap (fun b => (List.range 8).map (fun j => b.getLsbD j))

/-- The state of GIFDecode (R183). `tab` holds the strings of the codes 258, 259, … in order. -/
structure GifDecoder where
  w : Nat
  nxt : Nat
  prev : Option (List Byte)
  tab : List (List Byte)

/-- The decoder at the start and after a CLEAR: literals only (R183). -/
def GifDecoder.fresh : GifDecoder := { w := 9, nxt := 258, prev := none, tab := [] }

/-- str(c) in the decoder's table (R183). -/
def gifString (d : GifDecoder) (c : Nat) : Option (List Byte) :=
  if c < 256 then some [BitVec.ofNat 8 c] else if c < 258 then none else d.tab[c - 258]?

/-- The string a code decodes to after a previous string, and the string the decoder adds (R183). -/
def gifExpand (d : GifDecoder) (p : List Byte) (c : Nat) : Option (List Byte × List Byte) :=
  if c < d.nxt then (gifString d c).map (fun e => (e, p ++ e.take 1))
  else if c = d.nxt then some (p ++ p.take 1, p ++ p.take 1)
  else none

/-- `if nxt < 4096: tab[nxt] = new; nxt = nxt + 1`, then the widening (R183). -/
def gifAdd (d : GifDecoder) (new : List Byte) : GifDecoder :=
  let d1 := if d.nxt < 4096 then { d with tab := d.tab ++ [new], nxt := d.nxt + 1 } else d
  if d1.nxt = 2 ^ d1.w ∧ d1.w < 12 then { d1 with w := d1.w + 1 } else d1

/-- The loop of GIFDecode (R183) over the bits of the stream; `none` where the stream is malformed. The first argument bounds
the number of codes. -/
def gifLoop : Nat → GifDecoder → List Bool → Option (List Byte)
  | 0, _, _ => none
  | n + 1, d, bits =>
    if bits.length < d.w then none
    else
      let c := bitsValue (bits.take d.w)
      let rest := bits.drop d.w
      if c = 256 then gifLoop n GifDecoder.fresh rest
      else if c = 257 then some []
      else match d.prev with
        | none => (gifString d c).bind fun e =>
            (gifLoop n { d with prev := some e } rest).map (fun out => e ++ out)
        | some p => (gifExpand d p c).bind fun en =>
            (gifLoop n { gifAdd d en.2 with prev := some en.1 } rest).map (fun out => en.1 ++ out)

/-- GIFDecode(s) (R183). -/
def gifDecode (s : List Byte) : Option (List Byte) :=
  gifLoop (streamBits s).length GifDecoder.fresh (streamBits s)

/-- The loop of CHUNK (R220). The first argument bounds the number of sub-blocks. -/
def chunkLoop : Nat → List Byte → List Byte
  | 0, _ => [0x00]
  | n + 1, y =>
    if y = [] then [0x00] else subBlock (y.take Const.maxChunk) ++ chunkLoop n (y.drop Const.maxChunk)

/-- CHUNK(y) (R220). -/
def chunked (y : List Byte) : List Byte := chunkLoop y.length y

/-- The loop of UNCHUNK (R222). The first argument bounds the number of sub-blocks. -/
def unchunkLoop : Nat → List Byte → Option (List Byte)
  | 0, _ => none
  | _ + 1, [] => none
  | n + 1, l :: s =>
    if l = 0 then some []
    else if s.length < l.toNat then none
    else (unchunkLoop n (s.drop l.toNat)).map (fun out => s.take l.toNat ++ out)

/-- UNCHUNK(s) (R222). -/
def unchunked (s : List Byte) : Option (List Byte) := unchunkLoop s.length s

/-- What a job of a mode outputs for the data bytes x (R258). -/
def jobOutput (m : Mode) (x : List Byte) : List Byte :=
  match m with
  | .none => []
  | .lzw => lzwStream x
  | .chunk => chunked x
  | .imgdata => 0x08 :: chunked (lzwStream x)

end Sys2Proof.Machine
end

