-- ==== Sys2Proof/Safety.lean ====
section
/-! DEFINITION. What claims are stated in: the invariant of the block between two accesses (10_state.md R39 to R42,
41_lzw.md R182, 00_scope.md R13), quiescence and clean completion (43_stream_jobs.md R262), and views of a state. -/

namespace Sys2Proof

open Machine

/-- The number of bits in the binary form of n > 0 (R8). -/
def bitlen (n : Nat) : Nat := Nat.log2 n + 1

/-- A code that stands for a string while `next` is the next code to assign: a literal or a dictionary code (R171). -/
abbrev StringCode (next c : Nat) : Prop := c < 256 ∨ (258 ≤ c ∧ c < next)

/-- The codes 258 .. next−1, newest first. -/
def codesBelow (next : Nat) : List Nat := (List.range' 258 (next - 258)).reverse

/-- DICT holds exactly the codes 258..NEXT−1, no two entries share a key, and every prefix is an older string code
(R40, R182). -/
structure DictInv (next : Nat) (d : List DictEntry) : Prop where
  codes : d.map DictEntry.code = codesBelow next
  keys : (d.map (fun e => (e.pre, e.byte))).Nodup
  prefixes : ∀ e ∈ d, StringCode e.code e.pre

/-- The engine between two accesses of a job (R40, R42, R182). -/
structure LzwInv (z : Lzw) : Prop where
  next_ge : 258 ≤ z.next
  next_le : z.next ≤ 4095
  width_eq : z.width = max 9 (bitlen (z.next - 1))
  bitcnt_le : z.bitcnt ≤ 7
  bitbuf_lt : z.bitbuf < 2 ^ z.bitcnt
  dict : DictInv z.next z.dict
  cur : ∀ c ∈ z.cur, StringCode z.next c

/-- The jobs that use the LZW engine (R40). -/
abbrev usesLzw (s : State) : Prop := s.phase = .run ∧ (s.mode = .lzw ∨ s.mode = .imgdata)

/-- The jobs that use the chunker (R41). -/
abbrev usesChunker (s : State) : Prop := s.phase = .run ∧ (s.mode = .chunk ∨ s.mode = .imgdata)

/-- The invariant of the block between any two accesses. -/
structure Inv (s : State) : Prop where
  /-- The parameters are legal (R6). -/
  cfg : s.cfg.Legal
  /-- |Q| ≤ OUTQ_CAP (R39). -/
  queue : s.queue.length ≤ s.cfg.outqCap
  /-- A running job has a mode (R29). -/
  mode : s.phase = .run → s.mode ≠ .none
  /-- DONE tells that the most recent job since reset has ended (R25, R29). -/
  done : s.done = true ↔ (s.phase = .idle ∧ s.mode ≠ .none)
  /-- Before the first job since reset, Q is empty (R46). -/
  fresh : s.mode = .none → s.queue = []
  /-- With no job running, the last queued entry ends its job (R258, R259). -/
  ended : s.phase = .idle → ∀ e ∈ s.queue.getLast?, e.eoj = true
  /-- The engine of a running LZW or IMGDATA job (R42, R182). -/
  lzw : usesLzw s → LzwInv s.lzw
  /-- |CBUF| ≤ 254 in a running CHUNK or IMGDATA job (R41). -/
  cbuf : usesChunker s → s.cbuf.length ≤ 254

/-- The block is quiescent (R262). -/
abbrev Quiescent (s : State) : Prop := s.phase = .idle ∧ s.queue = []

/-- The run of accesses es, from a state s in which the job runs to t, has finished the job cleanly (R262): its END token
was accepted, every entry up to and including its EOJ entry has been popped, and ERR = 0. A later job may have started
(R253), so neither PHASE nor the rest of Q is constrained. -/
abbrev FinishedCleanly (es : List Event) (s t : State) : Prop :=
  s.phase = .run ∧ watchJob es s .running = some (t, .left 0) ∧ t.err = none

/-- The entries of a byte list with no end-of-job mark. -/
def plainEntries (bs : List Byte) : List Entry := bs.map (fun b => { byte := b, eoj := false })

/-- The entries of a finished job's output: only the last carries EOJ (R258). -/
def jobEntries (bs : List Byte) : List Entry := markLast (plainEntries bs)

/-- The operation starts a job of a mode. -/
def startOf : Mode → Option Instr
  | .none => none
  | .lzw => some .lzwStart
  | .chunk => some .chunkStart
  | .imgdata => some .imgdataStart

/-- An operation that neither ends nor abandons the running job: anything but an accepted END (R255) and a soft reset
(R351). A rejected END, a start refused by ERR_BUSY, flag commands and reads all stay within the job (R258). -/
def withinJob (i : Instr) (s : State) : Bool :=
  match i with
  | .endToken => !inReady s
  | .srst _ => false
  | .nop | .packLsd _ _ _ | .packImg _ _ _ | .packGce _ _ _ | .unpackLsd _ | .unpackImg _ | .unpackGce _
  | .lzwStart | .chunkStart | .imgdataStart | .feed _ | .ctrlNone | .errclr
  | .rdStatus | .rdResult | .pop | .rdCaps => true

/-- Every operation of a run, at the state it meets, stays within the running job. -/
def runsWithinJob : List Instr → State → Prop
  | [], _ => True
  | i :: is, s => withinJob i s = true ∧ ∀ t, exec i s = .next t → runsWithinJob is t

/-- A flag command (R135). -/
def isFlagCommand : Instr → Bool
  | .packLsd _ _ _ | .packImg _ _ _ | .packGce _ _ _ | .unpackLsd _ | .unpackImg _ | .unpackGce _ => true
  | .nop | .lzwStart | .chunkStart | .imgdataStart | .feed _ | .endToken | .ctrlNone | .srst _ | .errclr
  | .rdStatus | .rdResult | .pop | .rdCaps => false

/-- A stream-start command (R250 to R252). -/
def isStart : Instr → Bool
  | .lzwStart | .chunkStart | .imgdataStart => true
  | .nop | .packLsd _ _ _ | .packImg _ _ _ | .packGce _ _ _ | .unpackLsd _ | .unpackImg _ | .unpackGce _
  | .feed _ | .endToken | .ctrlNone | .srst _ | .errclr | .rdStatus | .rdResult | .pop | .rdCaps => false

/-- A soft reset (R292). -/
def isSoftReset : Instr → Bool
  | .srst _ => true
  | .nop | .packLsd _ _ _ | .packImg _ _ _ | .packGce _ _ _ | .unpackLsd _ | .unpackImg _ | .unpackGce _
  | .lzwStart | .chunkStart | .imgdataStart | .feed _ | .endToken | .ctrlNone | .errclr
  | .rdStatus | .rdResult | .pop | .rdCaps => false

/-- ERR after `raise Err(e)`: the first error wins (R311). -/
def firstError (old : Option ErrCode) (e : ErrCode) : Option ErrCode := if old = none then some e else old

/-- A state after a refused write: ERR by the first-error rule, the bus response, and nothing else (R311, R314). -/
def refusedWith (e : ErrCode) (s : State) : State := { s with err := firstError s.err e, resp := .done }

/-- The bits pending in BITBUF, in stream order (R172). -/
def pendingBits (z : Lzw) : List Bool := (List.range z.bitcnt).map (fun j => z.bitbuf.testBit j)

/-- A condition as a word of value 0 or 1. -/
def bit01 (p : Bool) : Word := if p then 1 else 0

/-- Two states a host cannot tell apart by R43: they agree on everything but the engine state, and on that too wherever a
running job uses it. -/
structure SameToHost (s t : State) : Prop where
  cfg : s.cfg = t.cfg
  phase : s.phase = t.phase
  mode : s.mode = t.mode
  done : s.done = t.done
  err : s.err = t.err
  result : s.result = t.result
  queue : s.queue = t.queue
  port : s.port = t.port
  resp : s.resp = t.resp
  lzw : usesLzw s → s.lzw = t.lzw
  cbuf : usesChunker s → s.cbuf = t.cbuf

end Sys2Proof
end

