-- ==== Sys2Proof/Certificates/Slice0/Obligations.lean ====
section
/-! DEFINITION. The statements for the provers. Each is a property of the block that its docstring's rules of spec/ state. -/

open Sys2Proof Sys2Proof.Machine

/-! ## Encoding and the port -/

/-- Accesses written out by hand, lane 0 first (R67), from the words of R91 to R98, R104 and 95_test_vectors.md. -/
def Obligations.SampleAccessesDecode : Prop :=
  decodeAccess 0x40 ⟨0x40, .write [0x00, 0x00, 0x00, 0x00]⟩ = .instr .nop ∧
  decodeAccess 0x40 ⟨0x40, .write [0x10, 0x02, 0x1E, 0x00]⟩ = .instr (.packLsd 2 7 1) ∧
  decodeAccess 0x40 ⟨0x40, .write [0x11, 0x04, 0x02, 0x00]⟩ = .instr (.packImg 4 1 0) ∧
  decodeAccess 0x40 ⟨0x40, .write [0x12, 0x12, 0x00, 0x00]⟩ = .instr (.packGce 2 0 1) ∧
  decodeAccess 0x40 ⟨0x40, .write [0x1A, 0x09, 0x00, 0x00]⟩ = .instr (.unpackGce 0x09) ∧
  decodeAccess 0x40 ⟨0x40, .write [0x22, 0x00, 0x00, 0x00]⟩ = .instr .imgdataStart ∧
  decodeAccess 0x40 ⟨0x4C, .write [0xAB, 0x00, 0x00, 0x00]⟩ = .instr (.feed 0xAB) ∧
  decodeAccess 0x40 ⟨0x4C, .write [0x00, 0x01, 0x00, 0x00]⟩ = .instr .endToken ∧
  decodeAccess 0x40 ⟨0x54, .write [0x03, 0x00, 0x00, 0x00]⟩ = .instr (.srst 1) ∧
  decodeAccess 0x40 ⟨0x54, .write [0x02, 0x00, 0x00, 0x00]⟩ = .instr .errclr ∧
  decodeAccess 0x40 ⟨0x44, .read 4⟩ = .instr .rdStatus ∧
  decodeAccess 0x40 ⟨0x50, .read 4⟩ = .instr .pop

/-- Decoding inverts encoding for every operation, whatever its operands and wherever the window stands (R91 to R99,
R104, R106). -/
def Obligations.DecodeInvertsEncode : Prop :=
  ∀ (base : Nat) (i : Instr), decodeAccess base (encode base i) = .instr i

/-- An operation is spelled by one access only: no bit of an accepted word is free or dropped (R90, R98, R101, R102). -/
def Obligations.EncodeIsTheOnlySpelling : Prop :=
  ∀ (base : Nat) (a : Access) (i : Instr), decodeAccess base a = .instr i → a = encode base i

/-- A register word's bits [7:0] travel on lane 0, [15:8] on lane 1, [23:16] on lane 2, [31:24] on lane 3 (R67). -/
def Obligations.LanesAreLittleEndian : Prop :=
  ∀ (w : Word), ∃ l0 l1 l2 l3 : Byte, lanesOf w = [l0, l1, l2, l3] ∧
    w.toNat = l0.toNat + 256 * l1.toNat + 65536 * l2.toNat + 16777216 * l3.toNat ∧
    wordOfLanes [l0, l1, l2, l3] = w

/-- A step whose oldest event is an access that spells an operation is that operation's meaning, the access being taken
from the port (R22, R70). -/
def Obligations.StepRunsDecodedInstruction : Prop :=
  ∀ (s : State) (a : Access) (rest : List Event) (i : Instr), s.port = .access a :: rest →
    decodeAccess s.cfg.base a = .instr i → step s = exec i { s with port := rest }

/-- With no event at the port the block changes nothing (R261); an access outside the window does not reach it (R61), and
the model refuses it by name (its choice, log 5). -/
def Obligations.BlockWaitsForItsHost : Prop :=
  (∀ s : State, s.port = [] → step s = .next s) ∧
  (∀ (s : State) (a : Access) (rest : List Event), s.port = .access a :: rest →
    (a.addr < s.cfg.base ∨ s.cfg.base + 32 ≤ a.addr) → step s = .refused .outsideWindow)

/-- Exactly the accesses of R62 to R66 are bus errors; a bus error changes no block state, is not recorded in ERR and
returns no data (R64). That the machine then goes on is the model's reading (log 4). -/
def Obligations.BusErrorsChangeNothing : Prop :=
  ∀ (s : State) (a : Access) (off : Nat), a.addr = s.cfg.base + off → off < 32 →
    ((xferWidth a.xfer ≠ 4 ∨ off % 4 ≠ 0 ∨ off = 0x1C ∨
        ((∃ ls, a.xfer = .write ls) ∧ off ∈ [0x04, 0x08, 0x10, 0x18]) ∨
        ((∃ n, a.xfer = .read n) ∧ off ∈ [0x00, 0x0C, 0x14])) →
      serveAccess a s = .next { s with resp := .busError }) ∧
    (¬ (xferWidth a.xfer ≠ 4 ∨ off % 4 ≠ 0 ∨ off = 0x1C ∨
        ((∃ ls, a.xfer = .write ls) ∧ off ∈ [0x04, 0x08, 0x10, 0x18]) ∨
        ((∃ n, a.xfer = .read n) ∧ off ∈ [0x00, 0x0C, 0x14])) →
      ∀ t, serveAccess a s = .next t → t.resp ≠ .busError)

/-- A CMD word whose OPC is none of the ten raises ERR_OPC and has no other effect; 246 opcodes are illegal (R100). -/
def Obligations.IllegalOpcodesRaiseErrOpc : Prop :=
  (∀ (s : State) (w : Word), (w.extractLsb 7 0).toNat ∉ [0x00, 0x10, 0x11, 0x12, 0x18, 0x19, 0x1A, 0x20, 0x21, 0x22] →
    writeReg .cmd w s = .next (refusedWith .opc s)) ∧
  ((List.range 256).filter (fun n => n ∉ [0x00, 0x10, 0x11, 0x12, 0x18, 0x19, 0x1A, 0x20, 0x21, 0x22])).length = 246

/-- A write with a reserved bit set raises ERR_RSVD and has no other effect, whatever the rest of the word and the state
(R101, with the formats of R91 to R97). -/
def Obligations.ReservedBitsRaiseErrRsvd : Prop :=
  ∀ (s : State) (w : Word),
    (((w.extractLsb 7 0).toNat ∈ [0x00, 0x20, 0x21, 0x22] ∧ w.extractLsb 31 8 ≠ 0) ∨
      ((w.extractLsb 7 0).toNat = 0x10 ∧ w.extractLsb 31 21 ≠ 0) ∨
      ((w.extractLsb 7 0).toNat = 0x11 ∧ w.extractLsb 31 19 ≠ 0) ∨
      ((w.extractLsb 7 0).toNat = 0x12 ∧ w.extractLsb 31 13 ≠ 0) ∨
      ((w.extractLsb 7 0).toNat ∈ [0x18, 0x19, 0x1A] ∧ w.extractLsb 31 16 ≠ 0) →
      writeReg .cmd w s = .next (refusedWith .rsvd s)) ∧
    ((w.extractLsb 31 9 ≠ 0 ∨ (w.extractLsb 8 8 = 1 ∧ w.extractLsb 7 0 ≠ 0)) →
      writeReg .inp w s = .next (refusedWith .rsvd s)) ∧
    (w.extractLsb 31 2 ≠ 0 → writeReg .ctrl w s = .next (refusedWith .rsvd s))

/-- `raise Err` records the code if ERR is 0 and changes nothing else; ERR_CLR is its return (R311, R293, R317). -/
def Obligations.RaiseErrKeepsTheFirstError : Prop :=
  ∀ (s : State) (e : ErrCode),
    (s.err = none → raiseErr e s = { s with err := some e }) ∧
    (s.err ≠ none → raiseErr e s = s) ∧
    (s.err = none → clearErr (raiseErr e s) = s)

/-! ## Flag codec -/

/-- The palette helpers on every legal length: size code log2 L − 1, present exactly when L > 0, and `plen_of` inverts
them (R130). -/
def Obligations.PaletteHelpers : Prop :=
  (∀ l : BitVec 9, plenOk l = true ↔ l.toNat ∈ [0, 2, 4, 8, 16, 32, 64, 128, 256]) ∧
  sizeCode 0 = 0 ∧ present 0 = 0 ∧
  (∀ (n : Fin 8) (l : BitVec 9), l.toNat = 2 ^ (n.val + 1) → (sizeCode l).toNat = n.val ∧ present l = 1) ∧
  (∀ z : BitVec 3, (plenOf 1 z).toNat = 2 ^ (z.toNat + 1) ∧ plenOf 0 z = 0)

/-- PACK_LSD (R131): the byte `(present << 7) | (CRES << 4) | (SORT << 3) | size_code`, ERR_PALETTE on an illegal length,
ERR_RSVD on reserved bits, at CMD and as an operation. -/
def Obligations.PackLsdPacksTheHeaderFlags : Prop :=
  (∀ (s : State) (cres : BitVec 3) (sort : BitVec 1),
    exec (.packLsd 0 cres sort) s =
      .next { s with result := (cres.setWidth 32 <<< 4) ||| (sort.setWidth 32 <<< 3), resp := .done }) ∧
  (∀ (s : State) (n : Fin 8) (plen : BitVec 9) (cres : BitVec 3) (sort : BitVec 1), plen.toNat = 2 ^ (n.val + 1) →
    exec (.packLsd plen cres sort) s =
      .next { s with
        result := ((1 : Word) <<< 7) ||| (cres.setWidth 32 <<< 4) ||| (sort.setWidth 32 <<< 3) ||| BitVec.ofNat 32 n.val
        resp := .done }) ∧
  (∀ (s : State) (plen : BitVec 9) (cres : BitVec 3) (sort : BitVec 1),
    plen.toNat ∉ [0, 2, 4, 8, 16, 32, 64, 128, 256] →
    exec (.packLsd plen cres sort) s = .next (refusedWith .palette s)) ∧
  (∀ (s : State) (w : Word), w.extractLsb 7 0 = 0x10#8 →
    writeReg .cmd w s =
      if w &&& 0xFFE00000 ≠ 0 then .next (refusedWith .rsvd s)
      else exec (.packLsd (w.extractLsb 16 8) (w.extractLsb 19 17) (w.extractLsb 20 20)) s)

/-- PACK_IMG (R132): the byte `(present << 7) | (ILACE << 6) | (SORT << 5) | (0 << 3) | size_code`, with its errors. -/
def Obligations.PackImgPacksTheImageFlags : Prop :=
  (∀ (s : State) (ilace sort : BitVec 1),
    exec (.packImg 0 ilace sort) s =
      .next { s with result := (ilace.setWidth 32 <<< 6) ||| (sort.setWidth 32 <<< 5), resp := .done }) ∧
  (∀ (s : State) (n : Fin 8) (plen : BitVec 9) (ilace sort : BitVec 1), plen.toNat = 2 ^ (n.val + 1) →
    exec (.packImg plen ilace sort) s =
      .next { s with
        result := ((1 : Word) <<< 7) ||| (ilace.setWidth 32 <<< 6) ||| (sort.setWidth 32 <<< 5) ||| BitVec.ofNat 32 n.val
        resp := .done }) ∧
  (∀ (s : State) (plen : BitVec 9) (ilace sort : BitVec 1), plen.toNat ∉ [0, 2, 4, 8, 16, 32, 64, 128, 256] →
    exec (.packImg plen ilace sort) s = .next (refusedWith .palette s)) ∧
  (∀ (s : State) (w : Word), w.extractLsb 7 0 = 0x11#8 →
    writeReg .cmd w s =
      if w &&& 0xFFF80000 ≠ 0 then .next (refusedWith .rsvd s)
      else exec (.packImg (w.extractLsb 16 8) (w.extractLsb 17 17) (w.extractLsb 18 18)) s)

/-- PACK_GCE (R133): the byte `DISP*4 + UIN*2 + TRN` for DISP ≤ 3, ERR_RANGE above, ERR_RSVD on reserved bits. -/
def Obligations.PackGcePacksTheControlFlags : Prop :=
  (∀ (s : State) (disp : BitVec 3) (uin trn : BitVec 1), disp.toNat ≤ 3 →
    exec (.packGce disp uin trn) s =
      .next { s with result := BitVec.ofNat 32 (disp.toNat * 4 + uin.toNat * 2 + trn.toNat), resp := .done }) ∧
  (∀ (s : State) (disp : BitVec 3) (uin trn : BitVec 1), 3 < disp.toNat →
    exec (.packGce disp uin trn) s = .next (refusedWith .range s)) ∧
  (∀ (s : State) (w : Word), w.extractLsb 7 0 = 0x12#8 →
    writeReg .cmd w s =
      if w &&& 0xFFFFE000 ≠ 0 then .next (refusedWith .rsvd s)
      else exec (.packGce (w.extractLsb 10 8) (w.extractLsb 11 11) (w.extractLsb 12 12)) s)

/-- UNPACK_LSD (R140): the result word of every byte, ERR_RSVD on reserved bits, and 144 canonical bytes. -/
def Obligations.UnpackLsdParsesTheHeaderFlags : Prop :=
  (∀ (s : State) (b : Byte),
    exec (.unpackLsd b) s =
      .next { s with
        result := (if b.getLsbD 7 then (1 : Word) <<< ((b.extractLsb 2 0).toNat + 1) else 0) |||
          ((b.extractLsb 6 4).setWidth 32 <<< 9) ||| ((b.extractLsb 3 3).setWidth 32 <<< 12) |||
          ((b.extractLsb 2 0).setWidth 32 <<< 13) ||| ((b.extractLsb 7 7).setWidth 32 <<< 16) |||
          (bit01 (!b.getLsbD 7 && b.extractLsb 2 0 != 0) <<< 17)
        resp := .done }) ∧
  (∀ (s : State) (w : Word), w.extractLsb 7 0 = 0x18#8 →
    writeReg .cmd w s =
      if w &&& 0xFFFF0000 ≠ 0 then .next (refusedWith .rsvd s) else exec (.unpackLsd (w.extractLsb 15 8)) s) ∧
  ((List.range 256).filter (fun n => !(lsdFields (BitVec.ofNat 8 n)).getLsbD 17)).length = 144

/-- UNPACK_IMG (R141): the result word of every byte, ERR_RSVD on reserved bits, and 36 canonical bytes. -/
def Obligations.UnpackImgParsesTheImageFlags : Prop :=
  (∀ (s : State) (b : Byte),
    exec (.unpackImg b) s =
      .next { s with
        result := (if b.getLsbD 7 then (1 : Word) <<< ((b.extractLsb 2 0).toNat + 1) else 0) |||
          ((b.extractLsb 6 6).setWidth 32 <<< 9) ||| ((b.extractLsb 5 5).setWidth 32 <<< 10) |||
          ((b.extractLsb 4 3).setWidth 32 <<< 11) ||| ((b.extractLsb 2 0).setWidth 32 <<< 13) |||
          ((b.extractLsb 7 7).setWidth 32 <<< 16) |||
          (bit01 ((!b.getLsbD 7 && b.extractLsb 2 0 != 0) || b.extractLsb 4 3 != 0) <<< 17)
        resp := .done }) ∧
  (∀ (s : State) (w : Word), w.extractLsb 7 0 = 0x19#8 →
    writeReg .cmd w s =
      if w &&& 0xFFFF0000 ≠ 0 then .next (refusedWith .rsvd s) else exec (.unpackImg (w.extractLsb 15 8)) s) ∧
  ((List.range 256).filter (fun n => !(imgFields (BitVec.ofNat 8 n)).getLsbD 17)).length = 36

/-- UNPACK_GCE (R142): the result word of every byte, ERR_RSVD on reserved bits; 0x00 to 0x0F are the canonical bytes. -/
def Obligations.UnpackGceParsesTheControlFlags : Prop :=
  (∀ (s : State) (b : Byte),
    exec (.unpackGce b) s =
      .next { s with
        result := (b.extractLsb 4 2).setWidth 32 ||| ((b.extractLsb 1 1).setWidth 32 <<< 3) |||
          ((b.extractLsb 0 0).setWidth 32 <<< 4) ||| ((b.extractLsb 7 5).setWidth 32 <<< 5) |||
          (bit01 (b.extractLsb 7 5 != 0 || decide (3 < (b.extractLsb 4 2).toNat)) <<< 17)
        resp := .done }) ∧
  (∀ (s : State) (w : Word), w.extractLsb 7 0 = 0x1A#8 →
    writeReg .cmd w s =
      if w &&& 0xFFFF0000 ≠ 0 then .next (refusedWith .rsvd s) else exec (.unpackGce (w.extractLsb 15 8)) s) ∧
  (∀ b : Byte, (gceFields b).getLsbD 17 = false ↔ b.toNat ≤ 0x0F)

/-- Round trip of the flag codec (R143): repacking the unpacked fields of a canonical byte yields the byte, and unpacking
a packed byte yields NONCANON = 0 and the fields of the pack word. -/
def Obligations.FlagCodecRoundTrips : Prop :=
  (∀ (s : State) (b : Byte),
    ((lsdFields b).getLsbD 17 = false →
      writeReg .cmd (((lsdFields b &&& 0x1FFF) <<< 8) ||| 0x10) s =
        .next { s with result := b.setWidth 32, resp := .done }) ∧
    ((imgFields b).getLsbD 17 = false →
      writeReg .cmd (((imgFields b &&& 0x7FF) <<< 8) ||| 0x11) s =
        .next { s with result := b.setWidth 32, resp := .done }) ∧
    ((gceFields b).getLsbD 17 = false →
      writeReg .cmd (((gceFields b &&& 0x1F) <<< 8) ||| 0x12) s =
        .next { s with result := b.setWidth 32, resp := .done })) ∧
  (∀ (plen : BitVec 9) (cres : BitVec 3) (sort : BitVec 1), plenOk plen = true →
    (lsdFields (lsdByte plen cres sort)).getLsbD 17 = false ∧
    ((lsdFields (lsdByte plen cres sort) &&& 0x1FFF) <<< 8) ||| 0x10 = encodeWord (.packLsd plen cres sort)) ∧
  (∀ (plen : BitVec 9) (ilace sort : BitVec 1), plenOk plen = true →
    (imgFields (imgByte plen ilace sort)).getLsbD 17 = false ∧
    ((imgFields (imgByte plen ilace sort) &&& 0x7FF) <<< 8) ||| 0x11 = encodeWord (.packImg plen ilace sort)) ∧
  (∀ (disp : BitVec 3) (uin trn : BitVec 1), dispOk disp = true →
    (gceFields (gceByte disp uin trn)).getLsbD 17 = false ∧
    ((gceFields (gceByte disp uin trn) &&& 0x1F) <<< 8) ||| 0x12 = encodeWord (.packGce disp uin trn))

/-- Every flag command reads only its word; on success it writes only RESULT, on failure only ERR; it runs in either PHASE
(R135). It succeeds exactly on the legal operands of R92 to R94. -/
def Obligations.FlagCommandsTouchOnlyResultOrErr : Prop :=
  ∀ i : Instr, isFlagCommand i = true →
    (WellFormed i = true → ∃ r : Word, ∀ s : State, exec i s = .next { s with result := r, resp := .done }) ∧
    (WellFormed i = false → ∃ e : ErrCode, ∀ s : State, exec i s = .next (refusedWith e s))

/-! ## LZW compressor -/

/-- `lzw_init` (R174): CLEAR in 9 bits sinks 0x00 and leaves BITBUF = 1, BITCNT = 1; DICT, NEXT, WIDTH, CUR are fresh. -/
def Obligations.LzwInitSinksOneZeroByte : Prop :=
  lzwInit = ({ dict := [], cur := none, next := 258, width := 9, bitbuf := 1, bitcnt := 1 }, [0x00])

/-- `emit_code` (R172): the code's WIDTH bits, bit 0 first, follow the pending bits in the stream; fewer than 8 bits stay
pending; nothing else of the engine changes. -/
def Obligations.EmitCodeAppendsTheCodeBits : Prop :=
  ∀ (z : Lzw) (c : Nat), z.bitbuf < 2 ^ z.bitcnt → c < 2 ^ z.width →
    streamBits (emitCode c z).2 ++ pendingBits (emitCode c z).1 = pendingBits z ++ codeBits ⟨c, z.width⟩ ∧
    (emitCode c z).1.bitcnt ≤ 7 ∧ (emitCode c z).1.bitbuf < 2 ^ (emitCode c z).1.bitcnt ∧
    (emitCode c z).1 = { z with bitbuf := (emitCode c z).1.bitbuf, bitcnt := (emitCode c z).1.bitcnt }

/-- `lzw_byte` (R175) below the dictionary limit: the first byte, an extended match, and an emitted match whose insertion
widens the codes when code 2^WIDTH was assigned. -/
def Obligations.LzwByteExtendsOrEmitsTheMatch : Prop :=
  ∀ (z : Lzw) (k : Byte),
    (z.cur = none → lzwByte k z = ({ z with cur := some k.toNat }, [])) ∧
    (∀ (p : Nat) (e : DictEntry), DictInv z.next z.dict → z.cur = some p → e ∈ z.dict → e.pre = p → e.byte = k →
      lzwByte k z = ({ z with cur := some e.code }, [])) ∧
    (∀ p : Nat, z.cur = some p → (∀ e ∈ z.dict, ¬ (e.pre = p ∧ e.byte = k)) → z.next + 1 ≠ 4096 →
      lzwByte k z =
        ({ (emitCode p z).1 with
            dict := { pre := p, byte := k, code := z.next } :: z.dict
            next := z.next + 1
            width := if z.next = 2 ^ z.width then z.width + 1 else z.width
            cur := some k.toNat },
          (emitCode p z).2))

/-- Dictionary full (R175, R177): the step that assigns code 4095 emits the match and then CLEAR at the current width, and
starts over with NEXT = 258, WIDTH = 9 and the byte as the new match. -/
def Obligations.FullDictionaryClears : Prop :=
  ∀ (z : Lzw) (k : Byte) (p : Nat), z.cur = some p → (∀ e ∈ z.dict, ¬ (e.pre = p ∧ e.byte = k)) → z.next = 4095 →
    lzwByte k z =
      ({ dict := [], cur := some k.toNat, next := 258, width := 9
         bitbuf := (emitCode 256 (emitCode p z).1).1.bitbuf, bitcnt := (emitCode 256 (emitCode p z).1).1.bitcnt },
        (emitCode p z).2 ++ (emitCode 256 (emitCode p z).1).2)

/-- The engine invariants of R182 hold after `lzw_init` and are kept by `lzw_byte`, after which CUR is not NONE. -/
def Obligations.LzwByteKeepsTheEngineInvariant : Prop :=
  LzwInv lzwInit.1 ∧
  ∀ (z : Lzw) (k : Byte), LzwInv z → LzwInv (lzwByte k z).1 ∧ (lzwByte k z).1.cur ≠ none

/-- Bytes sunk: at most 3 per data byte (R181), 2 to 4 at END (R184), and END leaves no bit pending (R178). -/
def Obligations.LzwSinkBounds : Prop :=
  ∀ z : Lzw, LzwInv z →
    (∀ k : Byte, (lzwByte k z).2.length ≤ 3) ∧
    2 ≤ (lzwEnd z).2.length ∧ (lzwEnd z).2.length ≤ 4 ∧ (lzwEnd z).1.bitcnt = 0 ∧ (lzwEnd z).1.bitbuf = 0

/-- An empty input gives the codes CLEAR, EOI at width 9, the bytes 00 03 02 (R179). -/
def Obligations.EmptyInputGivesClearEoi : Prop :=
  lzwCodes [] = [⟨256, 9⟩, ⟨257, 9⟩] ∧ lzwStream [] = [0x00, 0x03, 0x02]

/-- The bytes of LZW(x) are its code stream packed least significant bit first and padded with zero bits (R172, R179,
R180). -/
def Obligations.LzwStreamIsThePackedCodeStream : Prop :=
  ∀ x : List Byte, lzwStream x = packCodes (lzwCodes x)

/-- The j-th code after a CLEAR has width 9 for j in 1..255, 10 for 256..767, 11 for 768..1791, 12 above, the CLEAR that
ends a full dictionary and EOI included (R176). -/
def Obligations.CodeWidthsFollowTheSchedule : Prop :=
  ∀ (x : List Byte) (pre mid post : List Coded) (w : Nat) (c : Coded),
    lzwCodes x = pre ++ [⟨256, w⟩] ++ mid ++ [c] ++ post → (∀ m ∈ mid, m.code ≠ 256) →
    c.width = widthSchedule (mid.length + 1)

/-- The shape of a code stream (R188): CLEAR first, EOI last and only last, string codes between, a further CLEAR exactly
after 3838 data codes (R177), between one and |x| data codes, and the length in bytes of the packed bits. -/
def Obligations.CodeStreamShape : Prop :=
  ∀ x : List Byte,
    (lzwCodes x).head? = some ⟨256, 9⟩ ∧
    (∃ w, (lzwCodes x).getLast? = some ⟨257, w⟩) ∧
    (∀ c ∈ (lzwCodes x).dropLast, c.code = 256 ∨ StringCode 4096 c.code) ∧
    (∀ (pre mid post : List Coded) (v w : Nat), lzwCodes x = pre ++ [⟨256, v⟩] ++ mid ++ [⟨256, w⟩] ++ post →
      (∀ m ∈ mid, m.code ≠ 256) → mid.length = 3838) ∧
    ((lzwCodes x).filter (fun c => c.code != 256 && c.code != 257)).length ≤ x.length ∧
    (x ≠ [] → 1 ≤ ((lzwCodes x).filter (fun c => c.code != 256 && c.code != 257)).length) ∧
    (lzwStream x).length = (((lzwCodes x).map Coded.width).sum + 7) / 8

/-- Decodability, the normative property of the source's §8 (R183): the standard GIF decoder gives back the input. -/
def Obligations.GifDecodeInvertsLzw : Prop :=
  ∀ x : List Byte, gifDecode (lzwStream x) = some x

/-! ## Block chunker -/

/-- The streaming chunker pushes exactly the bytes of CHUNK(y) (R228). -/
def Obligations.StreamingChunkerIsChunk : Prop :=
  ∀ y : List Byte, (chunkBytes y []).2 ++ chunkEnd (chunkBytes y []).1 = chunked y

/-- |CHUNK(y)| = N + ceil(N/255) + 1 (R221). -/
def Obligations.ChunkedLength : Prop :=
  ∀ y : List Byte, (chunked y).length = y.length + (y.length + 254) / 255 + 1

/-- UNCHUNK inverts CHUNK (R222), and an empty input is the terminator alone (R223). -/
def Obligations.UnchunkInvertsChunk : Prop :=
  chunked [] = [0x00] ∧ ∀ y : List Byte, unchunked (chunked y) = some y

/-- One payload byte pushes 0 or 256 entries and leaves at most 254 bytes in CBUF (R226); END pushes 1 to 256, exactly 1
when CBUF is empty, and the terminator last (R227). -/
def Obligations.ChunkerPushCounts : Prop :=
  ∀ c : List Byte, c.length ≤ 254 →
    (∀ b : Byte, ((chunkByte b c).2.length = 0 ∨ (chunkByte b c).2.length = 256) ∧ (chunkByte b c).1.length ≤ 254) ∧
    1 ≤ (chunkEnd c).length ∧ (chunkEnd c).length ≤ 256 ∧ ((chunkEnd c).length = 1 ↔ c = []) ∧
    (chunkEnd c).getLast? = some 0x00

/-! ## Stream jobs and the queue -/

/-- Each start command on an idle block with room opens its job (R250 to R252): PHASE, MODE, DONE, the engine it uses, and
the one entry LZW_START and IMGDATA_START push; nothing else changes. -/
def Obligations.StartsOpenTheirJobs : Prop :=
  ∀ s : State, s.phase = .idle → s.queue.length < s.cfg.outqCap →
    exec .lzwStart s =
      .next { s with
        phase := .run, mode := .lzw, done := false, resp := .done
        lzw := { dict := [], cur := none, next := 258, width := 9, bitbuf := 1, bitcnt := 1 }
        queue := s.queue ++ [{ byte := 0x00, eoj := false }] } ∧
    exec .chunkStart s = .next { s with phase := .run, mode := .chunk, done := false, resp := .done, cbuf := [] } ∧
    exec .imgdataStart s =
      .next { s with
        phase := .run, mode := .imgdata, done := false, resp := .done, cbuf := [0x00]
        lzw := { dict := [], cur := none, next := 258, width := 9, bitbuf := 1, bitcnt := 1 }
        queue := s.queue ++ [{ byte := 0x08, eoj := false }] }

/-- A start while a job runs raises ERR_BUSY, whether or not Q is full; a start on an idle block with Q full raises
ERR_OUTFULL; nothing else changes (R253, R313). -/
def Obligations.StartsAreRefusedWhenBusyOrFull : Prop :=
  ∀ (i : Instr) (s : State), isStart i = true →
    (s.phase = .run → exec i s = .next (refusedWith .busy s)) ∧
    (s.phase = .idle → s.cfg.outqCap ≤ s.queue.length → exec i s = .next (refusedWith .outfull s))

/-- A token without a job raises ERR_NOJOB, with or without room; a token of a running job without room raises
ERR_OVERRUN; the token is dropped (R254, R255, R313). -/
def Obligations.TokensAreRefusedWhenNotReady : Prop :=
  ∀ (k : Byte) (s : State),
    (s.phase = .idle → exec (.feed k) s = .next (refusedWith .nojob s) ∧ exec .endToken s = .next (refusedWith .nojob s)) ∧
    (s.phase = .run → s.cfg.outqCap < s.queue.length + 261 →
      exec (.feed k) s = .next (refusedWith .overrun s) ∧ exec .endToken s = .next (refusedWith .overrun s))

/-- A data token of a running job with room (R254, R187): the units of its mode take the byte, what they sink goes to Q or
through CBUF, and nothing else changes. -/
def Obligations.DataTokensFeedTheUnits : Prop :=
  ∀ (k : Byte) (s : State), s.phase = .run → s.queue.length + 261 ≤ s.cfg.outqCap →
    (s.mode = .lzw → exec (.feed k) s =
      .next { s with
        lzw := (lzwByte k s.lzw).1
        queue := s.queue ++ plainEntries (lzwByte k s.lzw).2
        resp := .done }) ∧
    (s.mode = .chunk → exec (.feed k) s =
      .next { s with
        cbuf := (chunkByte k s.cbuf).1
        queue := s.queue ++ plainEntries (chunkByte k s.cbuf).2
        resp := .done }) ∧
    (s.mode = .imgdata → exec (.feed k) s =
      .next { s with
        lzw := (lzwByte k s.lzw).1
        cbuf := (chunkBytes (lzwByte k s.lzw).2 s.cbuf).1
        queue := s.queue ++ plainEntries (chunkBytes (lzwByte k s.lzw).2 s.cbuf).2
        resp := .done })

/-- The entries one accepted data token pushes (R254): 0 to 3 in mode LZW, 0 or 256 in modes CHUNK and IMGDATA. -/
def Obligations.DataTokenPushCounts : Prop :=
  ∀ (k : Byte) (s : State), Inv s → inReady s = true →
    ∃ (t : State) (bs : List Byte), exec (.feed k) s = .next t ∧ t.queue = s.queue ++ plainEntries bs ∧
      (s.mode = .lzw → bs.length ≤ 3) ∧ (s.mode ≠ .lzw → bs.length = 0 ∨ bs.length = 256)

/-- An accepted END token (R255, R259): the bytes each mode pushes, their counts, EOJ on the last one only, PHASE IDLE,
DONE 1, and MODE, ERR, RESULT and everything outside the engines unchanged. -/
def Obligations.EndClosesTheJob : Prop :=
  ∀ s : State, Inv s → inReady s = true →
    ∃ (bs : List Byte) (z : Lzw) (c : List Byte),
      exec .endToken s =
        .next { s with
          phase := .idle, done := true, resp := .done, queue := s.queue ++ jobEntries bs, lzw := z, cbuf := c } ∧
      (s.mode = .lzw → bs = (lzwEnd s.lzw).2 ∧ c = s.cbuf ∧ 2 ≤ bs.length ∧ bs.length ≤ 4) ∧
      (s.mode = .chunk → bs = chunkEnd s.cbuf ∧ z = s.lzw ∧ 1 ≤ bs.length ∧ bs.length ≤ 256) ∧
      (s.mode = .imgdata →
        bs = (chunkBytes (lzwEnd s.lzw).2 s.cbuf).2 ++ chunkEnd (chunkBytes (lzwEnd s.lzw).2 s.cbuf).1 ∧
        2 ≤ bs.length ∧ bs.length ≤ 261)

/-- POP (R257, R34): an empty queue answers 0 and changes nothing; otherwise the head is removed and returned with VALID and
EOJ. -/
def Obligations.PopReturnsTheHead : Prop :=
  ∀ s : State,
    (s.queue = [] → exec .pop s = .next { s with resp := .data [0, 0, 0, 0] }) ∧
    (∀ (e : Entry) (q : List Entry), s.queue = e :: q →
      exec .pop s =
        .next { s with
          queue := q
          resp := .data (lanesOf (e.byte.setWidth 32 ||| ((1 : Word) <<< 8) ||| (bit01 e.eoj <<< 9))) })

/-! ## Control, status and reset -/

/-- NOP and a CTRL write of 0 change no register (R290, R291); ERR_CLR sets ERR to 0 and changes nothing else (R293). -/
def Obligations.NopAndControlWrites : Prop :=
  ∀ s : State,
    exec .nop s = .next { s with resp := .done } ∧
    exec .ctrlNone s = .next { s with resp := .done } ∧
    exec .errclr s = .next { s with err := none, resp := .done }

/-- RD STATUS (R294) returns the word of R294's formula, with MODE and ERR numbered as in R29 and R312, and has no side
effect. -/
def Obligations.StatusReadsTheState : Prop :=
  (∀ s : State,
    exec .rdStatus s =
      .next { s with
        resp := .data (lanesOf
          ((BitVec.ofNat 32 s.queue.length <<< 16) ||| ((modeBits s.mode).setWidth 32 <<< 8) |||
            ((errBits s.err).setWidth 32 <<< 4) ||| (bit01 (1 ≤ s.queue.length) <<< 3) |||
            (bit01 (s.phase = .run ∧ s.queue.length + 261 ≤ s.cfg.outqCap) <<< 2) |||
            (bit01 s.done <<< 1) ||| bit01 (s.phase = .run))) }) ∧
  [Mode.none, .lzw, .chunk, .imgdata].map modeBits = [0, 1, 2, 3] ∧
  [none, some ErrCode.opc, some .rsvd, some .palette, some .range, some .busy, some .nojob, some .overrun,
    some .outfull].map errBits = [0, 1, 2, 3, 4, 5, 6, 7, 8]

/-- RD RESULT returns RESULT (R295) and RD CAPS returns `(OUTQ_CAP << 16) | (12 << 8) | 8` (R296); neither has a side
effect. -/
def Obligations.ResultAndCapsRead : Prop :=
  ∀ s : State,
    exec .rdResult s = .next { s with resp := .data (lanesOf s.result) } ∧
    exec .rdCaps s = .next { s with resp := .data (lanesOf (BitVec.ofNat 32 ((s.cfg.outqCap <<< 16) ||| (12 <<< 8) ||| 8))) }

/-- A soft reset and the hardware reset put every piece of state at its value of R45 (R292, R350); the engine state, which
R43 leaves open, is not named. STATUS then reads 0. -/
def Obligations.ResetsClearTheBlock : Prop :=
  (∀ (b : BitVec 1) (s : State), ∃ (z : Lzw) (c : List Byte),
    exec (.srst b) s =
      .next { s with
        phase := .idle, mode := .none, done := false, err := none, result := 0, queue := [], lzw := z, cbuf := c
        resp := .done }) ∧
  (∀ (s : State) (rest : List Event), s.port = .reset :: rest → ∃ (z : Lzw) (c : List Byte),
    step s =
      .next { s with
        phase := .idle, mode := .none, done := false, err := none, result := 0, queue := [], lzw := z, cbuf := c
        port := rest, resp := .none }) ∧
  statusWord State.reset = 0 ∧ State.reset.result = 0 ∧ State.reset.queue = [] ∧ State.reset.phase = .idle

/-! ## The whole block -/

/-- The invariant of the block holds in the reset state of every legal block (R6, R45). -/
def Obligations.InvariantHoldsAtReset : Prop :=
  ∀ c : Config, c.Legal → Inv (State.resetWith c)

/-- Every step keeps the invariant of the block: |Q| ≤ OUTQ_CAP, the engine invariants while a job uses the engine, CBUF
below 255, a mode for every running job, DONE and the end-of-job mark of an idle block (R13, R39 to R42, R182, R256). -/
def Obligations.EveryStepKeepsTheInvariant : Prop :=
  ∀ s t : State, Inv s → step s = .next t → Inv t

/-- No step of a block in its invariant faults; only an access outside the window stops the model (R10, R315, and log 5,
log 7 for the model's stops). A bus-error access (R64, R314) counts as a next state here, which is the model's reading
(log 4): U3 calls it a fault. -/
def Obligations.InvariantStatesNeverFault : Prop :=
  ∀ s : State, Inv s →
    (∃ t, step s = .next t) ∨
    (∃ (a : Access) (rest : List Event), s.port = .access a :: rest ∧
      (a.addr < s.cfg.base ∨ s.cfg.base + 32 ≤ a.addr) ∧ step s = .refused .outsideWindow)

/-- Who writes each state element (R46, R24, R25, R28, R29, R32). -/
def Obligations.OnlyTheListedOperationsWrite : Prop :=
  ∀ (i : Instr) (s t : State), exec i s = .next t →
    t.cfg = s.cfg ∧ t.port = s.port ∧
    (t.phase ≠ s.phase → isStart i = true ∨ i = .endToken ∨ isSoftReset i = true) ∧
    (t.mode ≠ s.mode → isStart i = true ∨ isSoftReset i = true) ∧
    (t.done ≠ s.done → isStart i = true ∨ i = .endToken ∨ isSoftReset i = true) ∧
    (t.err ≠ s.err → s.err = none ∨ i = .errclr ∨ isSoftReset i = true) ∧
    (t.result ≠ s.result → isFlagCommand i = true ∨ isSoftReset i = true) ∧
    (t.queue ≠ s.queue → i = .lzwStart ∨ i = .imgdataStart ∨ (∃ k, i = .feed k) ∨ i = .endToken ∨ i = .pop ∨
      isSoftReset i = true) ∧
    (t.lzw ≠ s.lzw → i = .lzwStart ∨ i = .imgdataStart ∨ (usesLzw s ∧ ((∃ k, i = .feed k) ∨ i = .endToken)) ∨
      isSoftReset i = true) ∧
    (t.cbuf ≠ s.cbuf → i = .chunkStart ∨ i = .imgdataStart ∨
      (usesChunker s ∧ ((∃ k, i = .feed k) ∨ i = .endToken)) ∨ isSoftReset i = true)

/-- A step takes one event from the port and never changes the parameters (R6, R70). -/
def Obligations.StepTakesOneEvent : Prop :=
  ∀ s t : State, step s = .next t → t.cfg = s.cfg ∧ t.port = s.port.tail

/-- The engine state of an idle block is unobservable (R43, R186): states that agree on everything but engine state no
running job uses stay so, with equal bus responses, step for step. -/
def Obligations.IdleEngineStateIsUnobservable : Prop :=
  ∀ s t : State, SameToHost s t →
    (∃ s' t', step s = .next s' ∧ step t = .next t' ∧ SameToHost s' t') ∨
    (∃ r, step s = .fault r ∧ step t = .fault r) ∨
    (∃ r, step s = .refused r ∧ step t = .refused r)

/-- Job output (R258, R260): from an accepted start to the accepted END, whatever flag commands, reads, pops, refused
commands and refused tokens stand between, what was popped followed by what is queued is what was queued before followed
by the job's output for its accepted bytes, EOJ on the last entry only. -/
def Obligations.JobOutputIsTheFunctionOfItsInput : Prop :=
  ∀ (m : Mode) (start : Instr) (body : List Instr) (s s1 : State) (r r2 : RunResult),
    Inv s → startOf m = some start → startError s = none → exec start s = .next s1 →
    runsWithinJob body s1 → runOps body s1 = some r → inReady r.state = true →
    runOps [.endToken] r.state = some r2 →
    r.popped ++ r2.state.queue = s.queue ++ jobEntries (jobOutput m r.fed)

/-- Progress (R362, R105): RUN_JOB on a quiescent block ends with every token accepted, hands the host exactly the job's
output, and leaves the block quiescent with DONE = 1 and no new error. -/
def Obligations.RunJobDeliversTheJobOutput : Prop :=
  ∀ (m : Mode) (start : Instr) (x : List Byte) (s : State), Inv s → Quiescent s → startOf m = some start →
    ∃ t : State, runJob start x s = some (jobOutput m x, t) ∧ Quiescent t ∧ t.done = true ∧ t.mode = m ∧
      t.err = s.err ∧ t.result = s.result

/-- DRAIN (R105, R257) collects every queued byte in order and leaves the rest of the block as it was. -/
def Obligations.DrainCollectsTheQueue : Prop :=
  ∀ s : State, drain (s.queue.length + 1) s =
    some (s.queue.map Entry.byte, { s with queue := [], resp := .data [0, 0, 0, 0] })

/-! ## Strings, matches and finished jobs -/

/-- What codes stand for (R171): a literal code for its byte, and the code of a dictionary entry for its prefix's string
followed by its byte. -/
def Obligations.CodesStandForStrings : Prop :=
  ∀ (next : Nat) (d : List DictEntry), DictInv next d →
    (∀ k : Byte, codeString d k.toNat = [k]) ∧
    (∀ e ∈ d, codeString d e.code = codeString d e.pre ++ [e.byte])

/-- The bytes consumed since the last emitted code are str(CUR) (R182): true after `lzw_init`, kept by every `lzw_byte`, and
so true after every input. What a step emits first is the code of exactly the bytes consumed before it. -/
def Obligations.MatchIsTheUnemittedInput : Prop :=
  matchString lzwInit.1 = [] ∧
  (∀ (z : Lzw) (k : Byte), LzwInv z →
    matchString (lzwByte k z).1 = unemittedAfter k z (matchString z) ∧
    ∀ (c : Coded) (cs : List Coded), byteCodes k z = c :: cs → codeString z.dict c.code = matchString z) ∧
  (∀ x : List Byte, matchString (lzwBytes x lzwInit.1).1 = unemitted x lzwInit.1 [])

/-- The same of the block (R182): in a running LZW or IMGDATA job, whatever pops, reads, flag commands and refused writes
stand between, str(CUR) is what the job's accepted bytes have left unemitted. -/
def Obligations.JobMatchIsItsUnemittedInput : Prop :=
  ∀ (start : Instr) (body : List Instr) (s s1 : State) (r : RunResult),
    Inv s → start = .lzwStart ∨ start = .imgdataStart → startError s = none → exec start s = .next s1 →
    runsWithinJob body s1 → runOps body s1 = some r →
    matchString r.state.lzw = unemitted r.fed lzwInit.1 []

/-- The watch of a job counts right (R259, R262): after the job's accepted END, the entries still counted are queued and the
last of them carries EOJ, whatever other jobs, pops and errors followed. -/
def Obligations.WatchedEntriesEndAtTheJobsMark : Prop :=
  ∀ (es : List Event) (s t : State) (n : Nat), Inv s → s.phase = .run →
    watchJob es s .running = some (t, .left (n + 1)) →
    n < t.queue.length ∧ ∃ e, t.queue[n]? = some e ∧ e.eoj = true

/-- When a job has finished cleanly (R262). END and the pops of every entry up to EOJ finish it, with the block quiescent if
nothing else runs, and also if the next job was started in between (R253); one pop less, a reset before the last pop, or an
error left in ERR do not. -/
def Obligations.JobsFinishCleanlyWhenPoppedToTheirMark : Prop :=
  ∀ s : State, Inv s → inReady s = true → s.err = none →
    ∃ n : Nat,
      (∃ t, FinishedCleanly ([opEvent s .endToken] ++ List.replicate (n + 1) (opEvent s .pop)) s t ∧ Quiescent t) ∧
      (∀ i : Instr, isStart i = true →
        ∃ t, FinishedCleanly ([opEvent s .endToken, opEvent s .pop, opEvent s i] ++ List.replicate n (opEvent s .pop)) s t ∧
          t.phase = .run) ∧
      (∀ (m : Nat) (t : State), m ≤ n →
        ¬ FinishedCleanly ([opEvent s .endToken] ++ List.replicate m (opEvent s .pop)) s t) ∧
      (∀ (m : Nat) (es : List Event) (t : State), m ≤ n →
        ¬ FinishedCleanly ([opEvent s .endToken] ++ List.replicate m (opEvent s .pop) ++ [.reset] ++ es) s t ∧
        ¬ FinishedCleanly
            ([opEvent s .endToken] ++ List.replicate m (opEvent s .pop) ++ [opEvent s (.srst 0)] ++ es) s t) ∧
      (∀ (k : Byte) (t : State),
        ¬ FinishedCleanly
            ([opEvent s .endToken] ++ List.replicate (n + 1) (opEvent s .pop) ++ [opEvent s (.feed k)]) s t)
end

