-- ==== Sys2Proof/Laws/Chunker.lean ====
section
/-! SUPPORT. Lengths and composition of the chunker's steps. -/

namespace Sys2Proof.Machine

@[simp] theorem subBlock_length (p : List Byte) : (subBlock p).length = p.length + 1 := by simp [subBlock]

/-- A byte that fills the sub-block sends it out (R225). -/
theorem chunkByte_full {b : Byte} {c : List Byte} (h : c.length = 254) :
    chunkByte b c = ([], subBlock (c ++ [b])) := by simp [chunkByte, h]

/-- A byte that does not fill the sub-block is kept (R225). -/
theorem chunkByte_short {b : Byte} {c : List Byte} (h : c.length ≠ 254) : chunkByte b c = (c ++ [b], []) := by
  have : ¬ c.length + 1 = 255 := by omega
  simp [chunkByte, this]

/-- Sinking a concatenation is sinking its parts in order (R228). -/
theorem chunkBytes_append (x y c : List Byte) :
    chunkBytes (x ++ y) c =
      ((chunkBytes y (chunkBytes x c).1).1, (chunkBytes x c).2 ++ (chunkBytes y (chunkBytes x c).1).2) := by
  induction x generalizing c with
  | nil => simp [chunkBytes]
  | cons b x ih => simp [chunkBytes, ih]

/-- Bytes that leave room in the sub-block are kept. -/
theorem chunkBytes_short {x c : List Byte} (h : c.length + x.length ≤ 254) : chunkBytes x c = (c ++ x, []) := by
  induction x generalizing c with
  | nil => simp [chunkBytes]
  | cons b x ih =>
    simp only [List.length_cons] at h
    rw [chunkBytes, chunkByte_short (by omega), ih (by simp; omega)]
    simp

end Sys2Proof.Machine
end

