-- ==== Sys2Proof/Laws/Decode.lean ====
section
/-! SUPPORT. Small lemmas of the bus and the decoder: byte lanes, offsets, and register accesses at the window. -/

namespace Sys2Proof

open Machine

@[simp] theorem lanesOf_length (w : Word) : (lanesOf w).length = 4 := rfl

/-- Reading the lanes of a word gives the word (R67). -/
@[simp] theorem wordOfLanes_lanesOf (w : Word) : wordOfLanes (lanesOf w) = w := by
  apply BitVec.eq_of_getLsbD_eq
  intro i hi
  simp only [wordOfLanes, lanesOf]
  interval_cases i <;> simp only [BitVec.getLsbD_append, BitVec.getLsbD_extractLsb] <;> simp

@[simp] theorem regAt_offsetOf (r : Reg) : regAt (offsetOf r) = some r := by cases r <;> rfl

theorem offsetOf_lt (r : Reg) : offsetOf r < 32 := by cases r <;> decide

theorem offsetOf_aligned (r : Reg) : offsetOf r % 4 = 0 := by cases r <;> rfl

/-- A 32-bit write of a register of the window decodes as a write of that register (R61 to R66). -/
@[simp] theorem decodeAccess_writeAccess (base : Nat) (r : Reg) (w : Word) :
    decodeAccess base (writeAccess base r w) = decodeWrite r w := by
  have := offsetOf_lt r
  simp [decodeAccess, writeAccess, decodeWindow, xferWidth, offsetOf_aligned, this]

/-- A 32-bit read of a register of the window decodes as a read of that register (R61 to R66). -/
@[simp] theorem decodeAccess_readAccess (base : Nat) (r : Reg) :
    decodeAccess base (readAccess base r) = decodeRead r := by
  have := offsetOf_lt r
  simp [decodeAccess, readAccess, decodeWindow, xferWidth, offsetOf_aligned, this]

end Sys2Proof
end

