-- ==== Sys2Proof/Laws/Driver.lean ====
section
/-! SUPPORT. Runs of events and the watch of one job (43_stream_jobs.md R262). -/

namespace Sys2Proof.Machine

/-- The access of an operation spells that operation and no other, given that decoding inverts its encoding. -/
theorem spells_opEvent (s t : State) (i j : Instr) (hcfg : s.cfg = t.cfg)
    (h : decodeAccess s.cfg.base (encode s.cfg.base i) = .instr i) : spells (opEvent s i) t j = decide (i = j) := by
  simp [spells, opEvent, ← hcfg, h]

@[simp] theorem isResetEvent_reset (s : State) : isResetEvent .reset s = true := rfl

@[simp] theorem watchEvent_abandoned (e : Event) (s t : State) : watchEvent e s t .abandoned = .abandoned := rfl

/-- A finished job stays finished (R262). -/
@[simp] theorem watchEvent_left_zero (e : Event) (s t : State) : watchEvent e s t (.left 0) = .left 0 := rfl

@[simp] theorem watchJob_nil (s : State) (w : JobWatch) : watchJob [] s w = some (s, w) := rfl

theorem watchJob_cons_next {e : Event} {s t : State} (h : serveEvent e s = .next t) (es : List Event) (w : JobWatch) :
    watchJob (e :: es) s w = watchJob es t (watchEvent e s t w) := by
  simp [watchJob, h]

/-- A run of events goes through a state after its first event, or ends at once. -/
theorem watchJob_cons {e : Event} {es : List Event} {s : State} {w : JobWatch} {r : State × JobWatch}
    (h : watchJob (e :: es) s w = some r) :
    ∃ t, serveEvent e s = .next t ∧ watchJob es t (watchEvent e s t w) = some r := by
  unfold watchJob at h
  split at h
  · exact ⟨_, ‹_›, h⟩
  · cases h
  · cases h

/-- Two runs, one after the other. -/
theorem watchJob_append (es fs : List Event) (s : State) (w : JobWatch) :
    watchJob (es ++ fs) s w = (watchJob es s w).bind (fun r => watchJob fs r.1 r.2) := by
  induction es generalizing s w with
  | nil => rfl
  | cons e es ih =>
    simp only [List.cons_append, watchJob]
    split <;> simp [ih]

/-- An abandoned job never finishes (R262, R351). -/
theorem watchJob_abandoned {es : List Event} {s t : State} {w : JobWatch}
    (h : watchJob es s .abandoned = some (t, w)) : w = .abandoned := by
  induction es generalizing s with
  | nil => simpa using (Prod.mk.inj (Option.some.inj h)).2.symm
  | cons e es ih =>
    obtain ⟨u, -, h⟩ := watchJob_cons h
    exact ih h

end Sys2Proof.Machine
end

