-- ==== Sys2Proof/Laws/Lzw.lean ====
section
/-! SUPPORT. The bit packer and the dictionary of the LZW engine. -/

namespace Sys2Proof.Machine

/-- The sinking loop (R172) touches only BITBUF and BITCNT, and sinks BITCNT / 8 bytes. -/
theorem sinkBytes_spec (n : Nat) (z : Lzw) (h : z.bitcnt ≤ 8 * n + 7) :
    (sinkBytes n z).1 =
        { z with bitbuf := z.bitbuf >>> (8 * (z.bitcnt / 8)), bitcnt := z.bitcnt % 8 } ∧
      (sinkBytes n z).2.length = z.bitcnt / 8 := by
  induction n generalizing z with
  | zero =>
    have h0 : z.bitcnt / 8 = 0 := by omega
    have h1 : z.bitcnt % 8 = z.bitcnt := by omega
    simp [sinkBytes, h0, h1]
  | succ n ih =>
    unfold sinkBytes
    split
    · rename_i h8
      obtain ⟨h1, h2⟩ := ih { z with bitbuf := z.bitbuf >>> 8, bitcnt := z.bitcnt - 8 } (by simp; omega)
      refine ⟨?_, ?_⟩
      · rw [h1]
        have e1 : (z.bitcnt - 8) % 8 = z.bitcnt % 8 := by omega
        have e2 : 8 + 8 * ((z.bitcnt - 8) / 8) = 8 * (z.bitcnt / 8) := by omega
        simp only [e1, ← Nat.shiftRight_add, e2]
      · simp only [List.length_cons, h2]
        omega
    · have h0 : z.bitcnt / 8 = 0 := by omega
      have h1 : z.bitcnt % 8 = z.bitcnt := by omega
      simp [h0, h1]

/-- `emit_code` (R172) touches only BITBUF and BITCNT, leaves fewer than 8 bits and sinks the full bytes. -/
theorem emitCode_spec (c : Nat) (z : Lzw) :
    (emitCode c z).1 =
        { z with
          bitbuf := (z.bitbuf ||| (c <<< z.bitcnt)) >>> (8 * ((z.bitcnt + z.width) / 8))
          bitcnt := (z.bitcnt + z.width) % 8 } ∧
      (emitCode c z).2.length = (z.bitcnt + z.width) / 8 := by
  have := sinkBytes_spec (z.bitcnt + z.width)
    { z with bitbuf := z.bitbuf ||| (c <<< z.bitcnt), bitcnt := z.bitcnt + z.width } (by simp; omega)
  simpa [emitCode] using this

@[simp] theorem emitCode_dict (c : Nat) (z : Lzw) : (emitCode c z).1.dict = z.dict := by rw [(emitCode_spec c z).1]
@[simp] theorem emitCode_cur (c : Nat) (z : Lzw) : (emitCode c z).1.cur = z.cur := by rw [(emitCode_spec c z).1]
@[simp] theorem emitCode_next (c : Nat) (z : Lzw) : (emitCode c z).1.next = z.next := by rw [(emitCode_spec c z).1]
@[simp] theorem emitCode_width (c : Nat) (z : Lzw) : (emitCode c z).1.width = z.width := by rw [(emitCode_spec c z).1]

theorem emitCode_bitcnt (c : Nat) (z : Lzw) : (emitCode c z).1.bitcnt = (z.bitcnt + z.width) % 8 := by
  rw [(emitCode_spec c z).1]

theorem emitCode_length (c : Nat) (z : Lzw) : (emitCode c z).2.length = (z.bitcnt + z.width) / 8 :=
  (emitCode_spec c z).2

/-- A successful lookup finds an entry with that key (R40). -/
theorem lookup_eq_some {p : Nat} {k : Byte} {d : List DictEntry} {c : Nat} (h : lookup p k d = some c) :
    ∃ e ∈ d, e.pre = p ∧ e.byte = k ∧ e.code = c := by
  simp only [lookup, Option.map_eq_some_iff] at h
  obtain ⟨e, he, rfl⟩ := h
  have := List.find?_some he
  exact ⟨e, List.mem_of_find?_eq_some he, by simp_all⟩

/-- A failed lookup means that no entry has the key (R40). -/
theorem lookup_eq_none {p : Nat} {k : Byte} {d : List DictEntry} :
    lookup p k d = none ↔ ∀ e ∈ d, ¬ (e.pre = p ∧ e.byte = k) := by
  simp [lookup]

theorem codesBelow_firstFree : codesBelow 258 = [] := rfl

theorem codesBelow_succ {n : Nat} (h : 258 ≤ n) : codesBelow (n + 1) = n :: codesBelow n := by
  have e : n + 1 - 258 = (n - 258) + 1 := by omega
  unfold codesBelow
  rw [e, List.range'_1_concat]
  simp
  omega

/-- The empty dictionary is canonical (R173). -/
theorem dictInv_empty : DictInv 258 [] := ⟨rfl, List.nodup_nil, by simp⟩

/-- Every dictionary operation keeps the canonical form: `reset_dict` makes the empty one, and assigning NEXT to an absent
key of an existing prefix keeps it (R175, R182). -/
theorem dictInv_insert {n p : Nat} {k : Byte} {d : List DictEntry} (hd : DictInv n d) (hn : 258 ≤ n)
    (hp : StringCode n p) (hk : lookup p k d = none) :
    DictInv (n + 1) ({ pre := p, byte := k, code := n } :: d) := by
  refine ⟨?_, ?_, ?_⟩
  · simp [codesBelow_succ hn, hd.codes]
  · simp only [List.map_cons, List.nodup_cons]
    refine ⟨?_, hd.keys⟩
    simp only [List.mem_map, not_exists, not_and, Prod.mk.injEq]
    intro e he hpre hbyte
    exact lookup_eq_none.1 hk e he ⟨hpre, hbyte⟩
  · intro e he
    rcases List.mem_cons.1 he with rfl | he
    · exact hp
    · exact hd.prefixes e he

/-- Every code of a canonical dictionary is below NEXT. -/
theorem dictInv_code_lt {n : Nat} {d : List DictEntry} (hd : DictInv n d) {e : DictEntry} (he : e ∈ d) :
    258 ≤ e.code ∧ e.code < n := by
  have hm : e.code ∈ codesBelow n := hd.codes ▸ List.mem_map_of_mem he
  simp [codesBelow] at hm
  omega

/-- In a canonical dictionary a key has one code. -/
theorem lookup_of_mem {n : Nat} {d : List DictEntry} (hd : DictInv n d) {e : DictEntry} (he : e ∈ d) :
    lookup e.pre e.byte d = some e.code := by
  cases h : lookup e.pre e.byte d with
  | none => exact absurd ⟨rfl, rfl⟩ (lookup_eq_none.1 h e he)
  | some c =>
    obtain ⟨f, hf, hp, hb, rfl⟩ := lookup_eq_some h
    have : f = e := List.inj_on_of_nodup_map hd.keys hf he (by simp [hp, hb])
    rw [this]

theorem matchString_none {z : Lzw} (h : z.cur = none) : matchString z = [] := by simp [matchString, h]

theorem matchString_some {z : Lzw} {c : Nat} (h : z.cur = some c) : matchString z = codeString z.dict c := by
  simp [matchString, h]

/-- A code that no listed entry has stands for one byte (R171). -/
theorem codeString_literal {d : List DictEntry} {c : Nat} (h : ∀ e ∈ d, e.code ≠ c) :
    codeString d c = [BitVec.ofNat 8 c] := by
  induction d with
  | nil => rfl
  | cons e d ih =>
    rw [codeString, if_neg (h e List.mem_cons_self), ih fun f hf => h f (List.mem_cons_of_mem _ hf)]

/-- The newest entry changes the string of no other code (R171). -/
theorem codeString_cons_ne {e : DictEntry} {d : List DictEntry} {c : Nat} (h : e.code ≠ c) :
    codeString (e :: d) c = codeString d c := by rw [codeString, if_neg h]

theorem unemittedAfter_nil {k : Byte} {z : Lzw} (h : byteCodes k z = []) (u : List Byte) :
    unemittedAfter k z u = u ++ [k] := by simp [unemittedAfter, h]

theorem unemittedAfter_cons {k : Byte} {z : Lzw} {c : Coded} {cs : List Coded} (h : byteCodes k z = c :: cs)
    (u : List Byte) : unemittedAfter k z u = [k] := by simp [unemittedAfter, h]

/-- The compressor on two inputs, one after the other. -/
theorem lzwBytes_append (x y : List Byte) (z : Lzw) :
    lzwBytes (x ++ y) z = ((lzwBytes y (lzwBytes x z).1).1, (lzwBytes x z).2 ++ (lzwBytes y (lzwBytes x z).1).2) := by
  induction x generalizing z with
  | nil => simp [lzwBytes]
  | cons k x ih => simp [lzwBytes, ih]

theorem unemitted_append (x y : List Byte) (z : Lzw) (u : List Byte) :
    unemitted (x ++ y) z u = unemitted y (lzwBytes x z).1 (unemitted x z u) := by
  induction x generalizing z u with
  | nil => rfl
  | cons k x ih => simp [lzwBytes, unemitted, ih]

end Sys2Proof.Machine
end

