-- ==== Sys2Proof/Laws/State.lean ====
section
/-! SUPPORT. One lemma per field of State per named update of Machine/Ops.lean, so that no later proof unfolds a record
update. -/

namespace Sys2Proof.Machine

@[simp] theorem respond_cfg (r : Response) (s : State) : (respond r s).cfg = s.cfg := rfl
@[simp] theorem respond_phase (r : Response) (s : State) : (respond r s).phase = s.phase := rfl
@[simp] theorem respond_mode (r : Response) (s : State) : (respond r s).mode = s.mode := rfl
@[simp] theorem respond_done (r : Response) (s : State) : (respond r s).done = s.done := rfl
@[simp] theorem respond_err (r : Response) (s : State) : (respond r s).err = s.err := rfl
@[simp] theorem respond_result (r : Response) (s : State) : (respond r s).result = s.result := rfl
@[simp] theorem respond_queue (r : Response) (s : State) : (respond r s).queue = s.queue := rfl
@[simp] theorem respond_lzw (r : Response) (s : State) : (respond r s).lzw = s.lzw := rfl
@[simp] theorem respond_cbuf (r : Response) (s : State) : (respond r s).cbuf = s.cbuf := rfl
@[simp] theorem respond_port (r : Response) (s : State) : (respond r s).port = s.port := rfl
@[simp] theorem respond_resp (r : Response) (s : State) : (respond r s).resp = r := rfl

@[simp] theorem clearErr_cfg (s : State) : (clearErr s).cfg = s.cfg := rfl
@[simp] theorem clearErr_phase (s : State) : (clearErr s).phase = s.phase := rfl
@[simp] theorem clearErr_mode (s : State) : (clearErr s).mode = s.mode := rfl
@[simp] theorem clearErr_done (s : State) : (clearErr s).done = s.done := rfl
@[simp] theorem clearErr_err (s : State) : (clearErr s).err = none := rfl
@[simp] theorem clearErr_result (s : State) : (clearErr s).result = s.result := rfl
@[simp] theorem clearErr_queue (s : State) : (clearErr s).queue = s.queue := rfl
@[simp] theorem clearErr_lzw (s : State) : (clearErr s).lzw = s.lzw := rfl
@[simp] theorem clearErr_cbuf (s : State) : (clearErr s).cbuf = s.cbuf := rfl
@[simp] theorem clearErr_port (s : State) : (clearErr s).port = s.port := rfl
@[simp] theorem clearErr_resp (s : State) : (clearErr s).resp = s.resp := rfl

@[simp] theorem setResult_cfg (w : Word) (s : State) : (setResult w s).cfg = s.cfg := rfl
@[simp] theorem setResult_phase (w : Word) (s : State) : (setResult w s).phase = s.phase := rfl
@[simp] theorem setResult_mode (w : Word) (s : State) : (setResult w s).mode = s.mode := rfl
@[simp] theorem setResult_done (w : Word) (s : State) : (setResult w s).done = s.done := rfl
@[simp] theorem setResult_err (w : Word) (s : State) : (setResult w s).err = s.err := rfl
@[simp] theorem setResult_result (w : Word) (s : State) : (setResult w s).result = w := rfl
@[simp] theorem setResult_queue (w : Word) (s : State) : (setResult w s).queue = s.queue := rfl
@[simp] theorem setResult_lzw (w : Word) (s : State) : (setResult w s).lzw = s.lzw := rfl
@[simp] theorem setResult_cbuf (w : Word) (s : State) : (setResult w s).cbuf = s.cbuf := rfl
@[simp] theorem setResult_port (w : Word) (s : State) : (setResult w s).port = s.port := rfl
@[simp] theorem setResult_resp (w : Word) (s : State) : (setResult w s).resp = s.resp := rfl

@[simp] theorem setQueue_cfg (q : List Entry) (s : State) : (setQueue q s).cfg = s.cfg := rfl
@[simp] theorem setQueue_phase (q : List Entry) (s : State) : (setQueue q s).phase = s.phase := rfl
@[simp] theorem setQueue_mode (q : List Entry) (s : State) : (setQueue q s).mode = s.mode := rfl
@[simp] theorem setQueue_done (q : List Entry) (s : State) : (setQueue q s).done = s.done := rfl
@[simp] theorem setQueue_err (q : List Entry) (s : State) : (setQueue q s).err = s.err := rfl
@[simp] theorem setQueue_result (q : List Entry) (s : State) : (setQueue q s).result = s.result := rfl
@[simp] theorem setQueue_queue (q : List Entry) (s : State) : (setQueue q s).queue = q := rfl
@[simp] theorem setQueue_lzw (q : List Entry) (s : State) : (setQueue q s).lzw = s.lzw := rfl
@[simp] theorem setQueue_cbuf (q : List Entry) (s : State) : (setQueue q s).cbuf = s.cbuf := rfl
@[simp] theorem setQueue_port (q : List Entry) (s : State) : (setQueue q s).port = s.port := rfl
@[simp] theorem setQueue_resp (q : List Entry) (s : State) : (setQueue q s).resp = s.resp := rfl

@[simp] theorem setLzw_cfg (z : Lzw) (s : State) : (setLzw z s).cfg = s.cfg := rfl
@[simp] theorem setLzw_phase (z : Lzw) (s : State) : (setLzw z s).phase = s.phase := rfl
@[simp] theorem setLzw_mode (z : Lzw) (s : State) : (setLzw z s).mode = s.mode := rfl
@[simp] theorem setLzw_done (z : Lzw) (s : State) : (setLzw z s).done = s.done := rfl
@[simp] theorem setLzw_err (z : Lzw) (s : State) : (setLzw z s).err = s.err := rfl
@[simp] theorem setLzw_result (z : Lzw) (s : State) : (setLzw z s).result = s.result := rfl
@[simp] theorem setLzw_queue (z : Lzw) (s : State) : (setLzw z s).queue = s.queue := rfl
@[simp] theorem setLzw_lzw (z : Lzw) (s : State) : (setLzw z s).lzw = z := rfl
@[simp] theorem setLzw_cbuf (z : Lzw) (s : State) : (setLzw z s).cbuf = s.cbuf := rfl
@[simp] theorem setLzw_port (z : Lzw) (s : State) : (setLzw z s).port = s.port := rfl
@[simp] theorem setLzw_resp (z : Lzw) (s : State) : (setLzw z s).resp = s.resp := rfl

@[simp] theorem setCbuf_cfg (c : List Byte) (s : State) : (setCbuf c s).cfg = s.cfg := rfl
@[simp] theorem setCbuf_phase (c : List Byte) (s : State) : (setCbuf c s).phase = s.phase := rfl
@[simp] theorem setCbuf_mode (c : List Byte) (s : State) : (setCbuf c s).mode = s.mode := rfl
@[simp] theorem setCbuf_done (c : List Byte) (s : State) : (setCbuf c s).done = s.done := rfl
@[simp] theorem setCbuf_err (c : List Byte) (s : State) : (setCbuf c s).err = s.err := rfl
@[simp] theorem setCbuf_result (c : List Byte) (s : State) : (setCbuf c s).result = s.result := rfl
@[simp] theorem setCbuf_queue (c : List Byte) (s : State) : (setCbuf c s).queue = s.queue := rfl
@[simp] theorem setCbuf_lzw (c : List Byte) (s : State) : (setCbuf c s).lzw = s.lzw := rfl
@[simp] theorem setCbuf_cbuf (c : List Byte) (s : State) : (setCbuf c s).cbuf = c := rfl
@[simp] theorem setCbuf_port (c : List Byte) (s : State) : (setCbuf c s).port = s.port := rfl
@[simp] theorem setCbuf_resp (c : List Byte) (s : State) : (setCbuf c s).resp = s.resp := rfl

@[simp] theorem setPort_cfg (es : List Event) (s : State) : (setPort es s).cfg = s.cfg := rfl
@[simp] theorem setPort_phase (es : List Event) (s : State) : (setPort es s).phase = s.phase := rfl
@[simp] theorem setPort_mode (es : List Event) (s : State) : (setPort es s).mode = s.mode := rfl
@[simp] theorem setPort_done (es : List Event) (s : State) : (setPort es s).done = s.done := rfl
@[simp] theorem setPort_err (es : List Event) (s : State) : (setPort es s).err = s.err := rfl
@[simp] theorem setPort_result (es : List Event) (s : State) : (setPort es s).result = s.result := rfl
@[simp] theorem setPort_queue (es : List Event) (s : State) : (setPort es s).queue = s.queue := rfl
@[simp] theorem setPort_lzw (es : List Event) (s : State) : (setPort es s).lzw = s.lzw := rfl
@[simp] theorem setPort_cbuf (es : List Event) (s : State) : (setPort es s).cbuf = s.cbuf := rfl
@[simp] theorem setPort_port (es : List Event) (s : State) : (setPort es s).port = es := rfl
@[simp] theorem setPort_resp (es : List Event) (s : State) : (setPort es s).resp = s.resp := rfl

@[simp] theorem openJob_cfg (m : Mode) (s : State) : (openJob m s).cfg = s.cfg := rfl
@[simp] theorem openJob_phase (m : Mode) (s : State) : (openJob m s).phase = .run := rfl
@[simp] theorem openJob_mode (m : Mode) (s : State) : (openJob m s).mode = m := rfl
@[simp] theorem openJob_done (m : Mode) (s : State) : (openJob m s).done = false := rfl
@[simp] theorem openJob_err (m : Mode) (s : State) : (openJob m s).err = s.err := rfl
@[simp] theorem openJob_result (m : Mode) (s : State) : (openJob m s).result = s.result := rfl
@[simp] theorem openJob_queue (m : Mode) (s : State) : (openJob m s).queue = s.queue := rfl
@[simp] theorem openJob_lzw (m : Mode) (s : State) : (openJob m s).lzw = s.lzw := rfl
@[simp] theorem openJob_cbuf (m : Mode) (s : State) : (openJob m s).cbuf = s.cbuf := rfl
@[simp] theorem openJob_port (m : Mode) (s : State) : (openJob m s).port = s.port := rfl
@[simp] theorem openJob_resp (m : Mode) (s : State) : (openJob m s).resp = s.resp := rfl

@[simp] theorem closeJob_cfg (s : State) : (closeJob s).cfg = s.cfg := rfl
@[simp] theorem closeJob_phase (s : State) : (closeJob s).phase = .idle := rfl
@[simp] theorem closeJob_mode (s : State) : (closeJob s).mode = s.mode := rfl
@[simp] theorem closeJob_done (s : State) : (closeJob s).done = true := rfl
@[simp] theorem closeJob_err (s : State) : (closeJob s).err = s.err := rfl
@[simp] theorem closeJob_result (s : State) : (closeJob s).result = s.result := rfl
@[simp] theorem closeJob_queue (s : State) : (closeJob s).queue = s.queue := rfl
@[simp] theorem closeJob_lzw (s : State) : (closeJob s).lzw = s.lzw := rfl
@[simp] theorem closeJob_cbuf (s : State) : (closeJob s).cbuf = s.cbuf := rfl
@[simp] theorem closeJob_port (s : State) : (closeJob s).port = s.port := rfl
@[simp] theorem closeJob_resp (s : State) : (closeJob s).resp = s.resp := rfl

@[simp] theorem push_cfg (bs : List Byte) (s : State) : (push bs s).cfg = s.cfg := rfl
@[simp] theorem push_phase (bs : List Byte) (s : State) : (push bs s).phase = s.phase := rfl
@[simp] theorem push_mode (bs : List Byte) (s : State) : (push bs s).mode = s.mode := rfl
@[simp] theorem push_done (bs : List Byte) (s : State) : (push bs s).done = s.done := rfl
@[simp] theorem push_err (bs : List Byte) (s : State) : (push bs s).err = s.err := rfl
@[simp] theorem push_result (bs : List Byte) (s : State) : (push bs s).result = s.result := rfl
@[simp] theorem push_queue (bs : List Byte) (s : State) : (push bs s).queue = s.queue ++ bs.map (fun b => { byte := b, eoj := false }) := rfl
@[simp] theorem push_lzw (bs : List Byte) (s : State) : (push bs s).lzw = s.lzw := rfl
@[simp] theorem push_cbuf (bs : List Byte) (s : State) : (push bs s).cbuf = s.cbuf := rfl
@[simp] theorem push_port (bs : List Byte) (s : State) : (push bs s).port = s.port := rfl
@[simp] theorem push_resp (bs : List Byte) (s : State) : (push bs s).resp = s.resp := rfl

@[simp] theorem markEoj_cfg (s : State) : (markEoj s).cfg = s.cfg := rfl
@[simp] theorem markEoj_phase (s : State) : (markEoj s).phase = s.phase := rfl
@[simp] theorem markEoj_mode (s : State) : (markEoj s).mode = s.mode := rfl
@[simp] theorem markEoj_done (s : State) : (markEoj s).done = s.done := rfl
@[simp] theorem markEoj_err (s : State) : (markEoj s).err = s.err := rfl
@[simp] theorem markEoj_result (s : State) : (markEoj s).result = s.result := rfl
@[simp] theorem markEoj_queue (s : State) : (markEoj s).queue = markLast s.queue := rfl
@[simp] theorem markEoj_lzw (s : State) : (markEoj s).lzw = s.lzw := rfl
@[simp] theorem markEoj_cbuf (s : State) : (markEoj s).cbuf = s.cbuf := rfl
@[simp] theorem markEoj_port (s : State) : (markEoj s).port = s.port := rfl
@[simp] theorem markEoj_resp (s : State) : (markEoj s).resp = s.resp := rfl

@[simp] theorem softReset_cfg (s : State) : (softReset s).cfg = s.cfg := rfl
@[simp] theorem softReset_phase (s : State) : (softReset s).phase = .idle := rfl
@[simp] theorem softReset_mode (s : State) : (softReset s).mode = .none := rfl
@[simp] theorem softReset_done (s : State) : (softReset s).done = false := rfl
@[simp] theorem softReset_err (s : State) : (softReset s).err = none := rfl
@[simp] theorem softReset_result (s : State) : (softReset s).result = 0 := rfl
@[simp] theorem softReset_queue (s : State) : (softReset s).queue = [] := rfl
@[simp] theorem softReset_lzw (s : State) : (softReset s).lzw = Lzw.blank := rfl
@[simp] theorem softReset_cbuf (s : State) : (softReset s).cbuf = [] := rfl
@[simp] theorem softReset_port (s : State) : (softReset s).port = s.port := rfl
@[simp] theorem softReset_resp (s : State) : (softReset s).resp = .none := rfl

end Sys2Proof.Machine
end

