-- ==== Sys2Proof/Laws/Ops.lean ====
section
/-! SUPPORT. What each shared operation and each meaning can do, said once; later proofs cite these instead of unfolding. -/

namespace Sys2Proof.Machine

/-- `raise Err` with no error recorded (R311). -/
theorem raiseErr_of_none {s : State} (h : s.err = none) (e : ErrCode) : raiseErr e s = { s with err := some e } := by
  simp [raiseErr, h]

/-- `raise Err` with an error recorded (R311). -/
theorem raiseErr_of_ne_none {s : State} (h : s.err ≠ none) (e : ErrCode) : raiseErr e s = s := by
  unfold raiseErr
  split
  · contradiction
  · rfl

/-- `raise Err` changes ERR only (R311). -/
theorem raiseErr_eq (e : ErrCode) (s : State) : raiseErr e s = { s with err := (raiseErr e s).err } := by
  by_cases h : s.err = none
  · simp [raiseErr_of_none h]
  · simp [raiseErr_of_ne_none h]

@[simp] theorem raiseErr_cfg (e : ErrCode) (s : State) : (raiseErr e s).cfg = s.cfg := by rw [raiseErr_eq]
@[simp] theorem raiseErr_phase (e : ErrCode) (s : State) : (raiseErr e s).phase = s.phase := by rw [raiseErr_eq]
@[simp] theorem raiseErr_mode (e : ErrCode) (s : State) : (raiseErr e s).mode = s.mode := by rw [raiseErr_eq]
@[simp] theorem raiseErr_done (e : ErrCode) (s : State) : (raiseErr e s).done = s.done := by rw [raiseErr_eq]
@[simp] theorem raiseErr_result (e : ErrCode) (s : State) : (raiseErr e s).result = s.result := by rw [raiseErr_eq]
@[simp] theorem raiseErr_queue (e : ErrCode) (s : State) : (raiseErr e s).queue = s.queue := by rw [raiseErr_eq]
@[simp] theorem raiseErr_lzw (e : ErrCode) (s : State) : (raiseErr e s).lzw = s.lzw := by rw [raiseErr_eq]
@[simp] theorem raiseErr_cbuf (e : ErrCode) (s : State) : (raiseErr e s).cbuf = s.cbuf := by rw [raiseErr_eq]
@[simp] theorem raiseErr_port (e : ErrCode) (s : State) : (raiseErr e s).port = s.port := by rw [raiseErr_eq]
@[simp] theorem raiseErr_resp (e : ErrCode) (s : State) : (raiseErr e s).resp = s.resp := by rw [raiseErr_eq]

@[simp] theorem complete_eq_next {s t : State} : complete s = .next t ↔ respond .done s = t := by simp [complete]

@[simp] theorem answer_eq_next {w : Word} {s t : State} :
    answer w s = .next t ↔ respond (.data (lanesOf w)) s = t := by simp [answer]

@[simp] theorem refuse_eq_next {e : ErrCode} {s t : State} :
    refuse e s = .next t ↔ respond .done (raiseErr e s) = t := by simp [refuse]

/-! ### The end-of-job mark (R259) -/

theorem markLast_append_singleton (q : List Entry) (e : Entry) : markLast (q ++ [e]) = q ++ [{ e with eoj := true }] := by
  induction q with
  | nil => rfl
  | cons a q ih => cases q with
    | nil => rfl
    | cons b q => simpa [markLast] using ih

@[simp] theorem markLast_length (q : List Entry) : (markLast q).length = q.length := by
  cases q using List.reverseRecOn with
  | nil => rfl
  | append_singleton q e => simp [markLast_append_singleton]

/-- Marking touches only the most recently pushed entries. -/
theorem markLast_append {p : List Entry} (hp : p ≠ []) (q : List Entry) : markLast (q ++ p) = q ++ markLast p := by
  cases p using List.reverseRecOn with
  | nil => contradiction
  | append_singleton p e => rw [← List.append_assoc, markLast_append_singleton, markLast_append_singleton, List.append_assoc]

/-! ### The checks (R253 to R256) -/

theorem startError_eq_none {s : State} : startError s = none ↔ s.phase = .idle ∧ s.queue.length < s.cfg.outqCap := by
  unfold startError
  cases s.phase <;> simp

theorem tokenError_eq_none {s : State} : tokenError s = none ↔ inReady s = true := by
  unfold tokenError inReady busy
  cases s.phase <;> cases hasRoom s <;> simp

theorem hasRoom_iff {s : State} : hasRoom s = true ↔ s.queue.length + 261 ≤ s.cfg.outqCap := by
  simp [hasRoom]

/-! ### What a meaning can do -/

/-- Every start either refuses with the error of `start_check` or opens its job (R253). -/
theorem execLzwStart_next {s t : State} (h : execLzwStart s = .next t) :
    (∃ e, startError s = some e ∧ t = respond .done (raiseErr e s)) ∨
    (startError s = none ∧ t = respond .done (push lzwInit.2 (setLzw lzwInit.1 (openJob .lzw s)))) := by
  unfold execLzwStart at h
  split at h
  · exact .inl ⟨_, ‹_›, (refuse_eq_next.1 h).symm⟩
  · exact .inr ⟨‹_›, (complete_eq_next.1 h).symm⟩

theorem execChunkStart_next {s t : State} (h : execChunkStart s = .next t) :
    (∃ e, startError s = some e ∧ t = respond .done (raiseErr e s)) ∨
    (startError s = none ∧ t = respond .done (setCbuf [] (openJob .chunk s))) := by
  unfold execChunkStart at h
  split at h
  · exact .inl ⟨_, ‹_›, (refuse_eq_next.1 h).symm⟩
  · exact .inr ⟨‹_›, (complete_eq_next.1 h).symm⟩

theorem execImgdataStart_next {s t : State} (h : execImgdataStart s = .next t) :
    (∃ e, startError s = some e ∧ t = respond .done (raiseErr e s)) ∨
    (startError s = none ∧
      t = respond .done
        (throughChunker lzwInit.2 (setLzw lzwInit.1 (setCbuf [] (push [0x08] (openJob .imgdata s)))))) := by
  unfold execImgdataStart at h
  split at h
  · exact .inl ⟨_, ‹_›, (refuse_eq_next.1 h).symm⟩
  · exact .inr ⟨‹_›, (complete_eq_next.1 h).symm⟩

/-- A data token is refused, or its mode's units take the byte (R254). -/
theorem execFeed_next {k : Byte} {s t : State} (h : execFeed k s = .next t) :
    (∃ e, tokenError s = some e ∧ t = respond .done (raiseErr e s)) ∨
    (tokenError s = none ∧ s.mode = .lzw ∧
      t = respond .done (push (lzwByte k s.lzw).2 (setLzw (lzwByte k s.lzw).1 s))) ∨
    (tokenError s = none ∧ s.mode = .chunk ∧ t = respond .done (throughChunker [k] s)) ∨
    (tokenError s = none ∧ s.mode = .imgdata ∧
      t = respond .done (throughChunker (lzwByte k s.lzw).2 (setLzw (lzwByte k s.lzw).1 s))) := by
  unfold execFeed at h
  split at h
  · exact .inl ⟨_, ‹_›, (refuse_eq_next.1 h).symm⟩
  · unfold acceptByte at h
    split at h
    · exact .inr (.inl ⟨‹_›, ‹_›, (complete_eq_next.1 h).symm⟩)
    · exact .inr (.inr (.inl ⟨‹_›, ‹_›, (complete_eq_next.1 h).symm⟩))
    · exact .inr (.inr (.inr ⟨‹_›, ‹_›, (complete_eq_next.1 h).symm⟩))
    · cases h

/-- An END token is refused, or the units of its mode finish and the job closes (R255). -/
theorem execEnd_next {s t : State} (h : execEnd s = .next t) :
    (∃ e, tokenError s = some e ∧ t = respond .done (raiseErr e s)) ∨
    (tokenError s = none ∧ s.mode = .lzw ∧
      t = respond .done (closeJob (markEoj (push (lzwEnd s.lzw).2 (setLzw (lzwEnd s.lzw).1 s))))) ∨
    (tokenError s = none ∧ s.mode = .chunk ∧ t = respond .done (closeJob (markEoj (endChunks s)))) ∨
    (tokenError s = none ∧ s.mode = .imgdata ∧
      t = respond .done (closeJob (markEoj (endChunks
        (throughChunker (lzwEnd s.lzw).2 (setLzw (lzwEnd s.lzw).1 s)))))) := by
  unfold execEnd at h
  split at h
  · exact .inl ⟨_, ‹_›, (refuse_eq_next.1 h).symm⟩
  · unfold acceptEnd at h
    split at h
    · exact .inr (.inl ⟨‹_›, ‹_›, (complete_eq_next.1 h).symm⟩)
    · exact .inr (.inr (.inl ⟨‹_›, ‹_›, (complete_eq_next.1 h).symm⟩))
    · exact .inr (.inr (.inr ⟨‹_›, ‹_›, (complete_eq_next.1 h).symm⟩))
    · cases h

/-- POP answers 0, or removes the head (R257). -/
theorem execPop_next {s t : State} (h : execPop s = .next t) :
    (s.queue = [] ∧ t = respond (.data (lanesOf 0)) s) ∨
    (∃ e q, s.queue = e :: q ∧ t = respond (.data (lanesOf (outWord e))) (setQueue q s)) := by
  unfold execPop at h
  split at h
  · exact .inl ⟨‹_›, (answer_eq_next.1 h).symm⟩
  · exact .inr ⟨_, _, ‹_›, (answer_eq_next.1 h).symm⟩

end Sys2Proof.Machine
end

