-- ==== Sys2Proof/Laws/PerInstr.lean ====
section
/-! SUPPORT. A property stated for every operation as syntax: the word it is written as matches its row of
spec/opcode_table.json, at the row's register and in the row's direction. -/

namespace Sys2Proof.Laws

open Machine

/-- A row of spec/opcode_table.json: match, mask, offset and access. -/
structure TableRow where
  pattern : Word
  mask : Word
  offset : Nat
  read : Bool

/-- The row of each operation, copied from spec/opcode_table.json. -/
def tableRow : Instr → TableRow
  | .nop => ⟨0x00000000, 0xFFFFFFFF, 0x00, false⟩
  | .packLsd _ _ _ => ⟨0x00000010, 0xFFE000FF, 0x00, false⟩
  | .packImg _ _ _ => ⟨0x00000011, 0xFFF800FF, 0x00, false⟩
  | .packGce _ _ _ => ⟨0x00000012, 0xFFFFE0FF, 0x00, false⟩
  | .unpackLsd _ => ⟨0x00000018, 0xFFFF00FF, 0x00, false⟩
  | .unpackImg _ => ⟨0x00000019, 0xFFFF00FF, 0x00, false⟩
  | .unpackGce _ => ⟨0x0000001A, 0xFFFF00FF, 0x00, false⟩
  | .lzwStart => ⟨0x00000020, 0xFFFFFFFF, 0x00, false⟩
  | .chunkStart => ⟨0x00000021, 0xFFFFFFFF, 0x00, false⟩
  | .imgdataStart => ⟨0x00000022, 0xFFFFFFFF, 0x00, false⟩
  | .feed _ => ⟨0x00000000, 0xFFFFFF00, 0x0C, false⟩
  | .endToken => ⟨0x00000100, 0xFFFFFFFF, 0x0C, false⟩
  | .ctrlNone => ⟨0x00000000, 0xFFFFFFFF, 0x14, false⟩
  | .srst _ => ⟨0x00000001, 0xFFFFFFFD, 0x14, false⟩
  | .errclr => ⟨0x00000002, 0xFFFFFFFF, 0x14, false⟩
  | .rdStatus => ⟨0x00000000, 0x00000000, 0x04, true⟩
  | .rdResult => ⟨0x00000000, 0x00000000, 0x08, true⟩
  | .pop => ⟨0x00000000, 0x00000000, 0x10, true⟩
  | .rdCaps => ⟨0x00000000, 0x00000000, 0x18, true⟩

/-- A field that a mask leaves out does not reach the masked word: the masked bits are those of the pattern. -/
theorem masked_eq {w m p : Word} (h : ∀ i < 32, (w.getLsbD i && m.getLsbD i) = p.getLsbD i) : w &&& m = p :=
  BitVec.eq_of_getLsbD_eq fun i hi => by simpa using h i hi

namespace EncodesToRow

/-- The operation's word passes its row's mask test, at the row's offset and in the row's direction. -/
def Statement (i : Instr) : Prop :=
  encodeWord i &&& (tableRow i).mask = (tableRow i).pattern ∧ offsetOf (regOf i) = (tableRow i).offset ∧
    isRead i = (tableRow i).read

theorem nop : Statement .nop := ⟨by decide, rfl, rfl⟩
theorem packLsd (plen : BitVec 9) (cres : BitVec 3) (sort : BitVec 1) : Statement (.packLsd plen cres sort) :=
  ⟨masked_eq fun i hi => by interval_cases i <;> simp only [encodeWord, tableRow, BitVec.getLsbD_append] <;> simp, rfl, rfl⟩
theorem packImg (plen : BitVec 9) (ilace sort : BitVec 1) : Statement (.packImg plen ilace sort) :=
  ⟨masked_eq fun i hi => by interval_cases i <;> simp only [encodeWord, tableRow, BitVec.getLsbD_append] <;> simp, rfl, rfl⟩
theorem packGce (disp : BitVec 3) (uin trn : BitVec 1) : Statement (.packGce disp uin trn) :=
  ⟨masked_eq fun i hi => by interval_cases i <;> simp only [encodeWord, tableRow, BitVec.getLsbD_append] <;> simp, rfl, rfl⟩
theorem unpackLsd (b : Byte) : Statement (.unpackLsd b) :=
  ⟨masked_eq fun i hi => by interval_cases i <;> simp only [encodeWord, tableRow, BitVec.getLsbD_append] <;> simp, rfl, rfl⟩
theorem unpackImg (b : Byte) : Statement (.unpackImg b) :=
  ⟨masked_eq fun i hi => by interval_cases i <;> simp only [encodeWord, tableRow, BitVec.getLsbD_append] <;> simp, rfl, rfl⟩
theorem unpackGce (b : Byte) : Statement (.unpackGce b) :=
  ⟨masked_eq fun i hi => by interval_cases i <;> simp only [encodeWord, tableRow, BitVec.getLsbD_append] <;> simp, rfl, rfl⟩
theorem lzwStart : Statement .lzwStart := ⟨by decide, rfl, rfl⟩
theorem chunkStart : Statement .chunkStart := ⟨by decide, rfl, rfl⟩
theorem imgdataStart : Statement .imgdataStart := ⟨by decide, rfl, rfl⟩
theorem feed (k : Byte) : Statement (.feed k) :=
  ⟨masked_eq fun i hi => by interval_cases i <;> simp only [encodeWord, tableRow, BitVec.getLsbD_append] <;> simp, rfl, rfl⟩
theorem endToken : Statement .endToken := ⟨by decide, rfl, rfl⟩
theorem ctrlNone : Statement .ctrlNone := ⟨by decide, rfl, rfl⟩
theorem srst (errClr : BitVec 1) : Statement (.srst errClr) :=
  ⟨masked_eq fun i hi => by interval_cases i <;> simp only [encodeWord, tableRow, BitVec.getLsbD_append] <;> simp, rfl, rfl⟩
theorem errclr : Statement .errclr := ⟨by decide, rfl, rfl⟩
theorem rdStatus : Statement .rdStatus := ⟨by decide, rfl, rfl⟩
theorem rdResult : Statement .rdResult := ⟨by decide, rfl, rfl⟩
theorem pop : Statement .pop := ⟨by decide, rfl, rfl⟩
theorem rdCaps : Statement .rdCaps := ⟨by decide, rfl, rfl⟩

end EncodesToRow

end Sys2Proof.Laws
end

