-- ==== Sys2Proof/Laws/Step.lean ====
section
/-! SUPPORT. What a step can do, said once. -/

namespace Sys2Proof.Machine

/-- Every way an access answers a next state (R64, R313). -/
theorem serveAccess_next {a : Access} {s t : State} (h : serveAccess a s = .next t) :
    (∃ i, decodeAccess s.cfg.base a = .instr i ∧ exec i s = .next t) ∨
    (decodeAccess s.cfg.base a = .badOpcode ∧ t = respond .done (raiseErr .opc s)) ∨
    (decodeAccess s.cfg.base a = .reservedBits ∧ t = respond .done (raiseErr .rsvd s)) ∨
    (decodeAccess s.cfg.base a = .busError ∧ t = respond .busError s) := by
  unfold serveAccess at h
  split at h
  · exact .inl ⟨_, ‹_›, h⟩
  · exact .inr (.inl ⟨‹_›, (refuse_eq_next.1 h).symm⟩)
  · exact .inr (.inr (.inl ⟨‹_›, (refuse_eq_next.1 h).symm⟩))
  · exact .inr (.inr (.inr ⟨‹_›, (Host.Outcome.next.inj h).symm⟩))
  · cases h

/-- Every way a step answers a next state: the block waits, is reset, or serves an access. -/
theorem step_next {s t : State} (h : step s = .next t) :
    (s.port = [] ∧ t = s) ∨
    (∃ rest, s.port = .reset :: rest ∧ t = hardReset (setPort rest s)) ∨
    (∃ a rest, s.port = .access a :: rest ∧ serveAccess a (setPort rest s) = .next t) := by
  unfold step serveNext at h
  split at h
  · exact .inl ⟨‹_›, (Host.Outcome.next.inj h).symm⟩
  · rename_i e rest hp
    cases e with
    | access a => exact .inr (.inr ⟨a, rest, hp, h⟩)
    | reset => exact .inr (.inl ⟨rest, hp, (Host.Outcome.next.inj h).symm⟩)

end Sys2Proof.Machine
end

