-- ==== Sys2Proof/Tests/Slice0.lean ====
section
/-! SUPPORT. Tests of single steps against the vectors of 95_test_vectors.md and the examples of the rules, the WellFormed
smoke test, one hand-written word per constructor, and witnesses that meet the hypotheses of the statements. -/

namespace Sys2Proof.Tests

open Machine

/-- The next state of an outcome. -/
def nextOf : Result → Option State
  | .next t => some t
  | .fault _ => none
  | .refused _ => none

/-- An idle block at BASE 0x40 with the smallest queue. -/
def idle : State := State.resetWith { base := 0x40, outqCap := 262 }

/-- The block of the vectors: OUTQ_CAP 512. -/
def block : State := State.resetWith { base := 0x40, outqCap := 512 }

/-- An idle block whose queue is full. -/
def full : State := { idle with queue := List.replicate 262 ⟨0, true⟩ }

/-- A running CHUNK job with no room for a token: 252 + 261 = 513. -/
def noRoom : State := { block with phase := .run, mode := .chunk, queue := List.replicate 252 ⟨0, false⟩ }

/-- A running LZW job with nothing fed: V-ST1. -/
def lzwJob : State :=
  { block with phase := .run, mode := .lzw, queue := [⟨0x00, false⟩]
               lzw := { Lzw.blank with bitbuf := 1, bitcnt := 1 } }

/-- A running CHUNK job with nothing fed: V-ST2. -/
def chunkJob : State := { block with phase := .run, mode := .chunk }

/-- A running IMGDATA job with nothing fed: V-ST3. -/
def imgJob : State :=
  { block with phase := .run, mode := .imgdata, queue := [⟨0x08, false⟩], cbuf := [0x00]
               lzw := { Lzw.blank with bitbuf := 1, bitcnt := 1 } }

/-- STATUS after an operation. -/
def statusAfter (i : Instr) (s : State) : Option Word := (nextOf (exec i s)).map statusWord

/-- RESULT after an operation from reset. -/
def resultOf (i : Instr) : Option Word := (nextOf (exec i block)).map State.result

/-! ### WellFormed -/

theorem test_wellFormed_plen_legal : WellFormed (.packLsd 256 7 1) = true ∧ WellFormed (.packImg 0 1 1) = true := by decide
theorem test_wellFormed_refuses_plen_one : WellFormed (.packLsd 1 0 0) = false := by decide
theorem test_wellFormed_refuses_plen_257 : WellFormed (.packImg 257 0 0) = false := by decide
theorem test_wellFormed_refuses_disp_four : WellFormed (.packGce 4 0 0) = false ∧ WellFormed (.packGce 3 1 1) = true := by
  decide

/-! ### Decoding: words written out bit by bit from R91 to R97 -/

theorem test_decode_nop : decodeCmd 0b00000000000000000000000000000000 = .instr .nop := by decide
/-- Format PL: reserved 11, SORT 1, CRES 011, PLEN 000010000, OPC 0x10. -/
theorem test_decode_packLsd : decodeCmd 0b00000000000101100001000000010000 = .instr (.packLsd 16 3 1) := by decide
/-- Format PI: reserved 13, SORT 0, ILACE 1, PLEN 100000000, OPC 0x11. -/
theorem test_decode_packImg : decodeCmd 0b00000000000000110000000000010001 = .instr (.packImg 256 1 0) := by decide
/-- Format G: reserved 19, TRN 1, UIN 0, DISP 010, OPC 0x12. -/
theorem test_decode_packGce : decodeCmd 0b00000000000000000001001000010010 = .instr (.packGce 2 0 1) := by decide
/-- Format U: reserved 16, BYTE 10000001, OPC. -/
theorem test_decode_unpackLsd : decodeCmd 0b00000000000000001000000100011000 = .instr (.unpackLsd 0x81) := by decide
theorem test_decode_unpackImg : decodeCmd 0b00000000000000001000000100011001 = .instr (.unpackImg 0x81) := by decide
theorem test_decode_unpackGce : decodeCmd 0b00000000000000001000000100011010 = .instr (.unpackGce 0x81) := by decide
theorem test_decode_lzwStart : decodeCmd 0b00000000000000000000000000100000 = .instr .lzwStart := by decide
theorem test_decode_chunkStart : decodeCmd 0b00000000000000000000000000100001 = .instr .chunkStart := by decide
theorem test_decode_imgdataStart : decodeCmd 0b00000000000000000000000000100010 = .instr .imgdataStart := by decide
theorem test_decode_feed : decodeIn 0b00000000000000000000000011111110 = .instr (.feed 0xFE) := by decide
theorem test_decode_end : decodeIn 0b00000000000000000000000100000000 = .instr .endToken := by decide
theorem test_decode_ctrlNone : decodeCtrl 0b00000000000000000000000000000000 = .instr .ctrlNone := by decide
theorem test_decode_srst :
    decodeCtrl 0b00000000000000000000000000000001 = .instr (.srst 0) ∧
    decodeCtrl 0b00000000000000000000000000000011 = .instr (.srst 1) := by decide
theorem test_decode_errclr : decodeCtrl 0b00000000000000000000000000000010 = .instr .errclr := by decide
theorem test_decode_reads :
    decodeAccess 0x40 ⟨0x44, .read 4⟩ = .instr .rdStatus ∧ decodeAccess 0x40 ⟨0x48, .read 4⟩ = .instr .rdResult ∧
    decodeAccess 0x40 ⟨0x50, .read 4⟩ = .instr .pop ∧ decodeAccess 0x40 ⟨0x58, .read 4⟩ = .instr .rdCaps := by decide
/-- V-DC2, V-DC3, V-DC5, V-DC7, V-PK9, V-PK14. -/
theorem test_decode_rejects :
    decodeCmd 0x00000100 = .reservedBits ∧ decodeCmd 0x0000007F = .badOpcode ∧ decodeCmd 0x00000013 = .badOpcode ∧
    decodeCmd 0x00000120 = .reservedBits ∧ decodeCmd 0x00200010 = .reservedBits ∧
    decodeCmd 0x00081011 = .reservedBits := by decide
/-- V-ST7, V-ST8, V-CT4, V-CT5. -/
theorem test_decode_rejects_tokens_and_control :
    decodeIn 0x00000141 = .reservedBits ∧ decodeIn 0x00000200 = .reservedBits ∧
    decodeCtrl 0x00000006 = .reservedBits ∧ decodeCtrl 0x00000004 = .reservedBits := by decide
/-- V-BE1 to V-BE11. -/
theorem test_decode_bus_errors :
    [Access.mk 0x40 (.write [0x10]), ⟨0x44, .read 2⟩, ⟨0x42, .write [0, 0, 0, 0]⟩, ⟨0x5C, .read 4⟩,
      ⟨0x5C, .write [0, 0, 0, 0]⟩, ⟨0x40, .read 4⟩, ⟨0x4C, .read 4⟩, ⟨0x54, .read 4⟩, ⟨0x44, .write [0, 0, 0, 0]⟩,
      ⟨0x50, .write [0, 0, 0, 0]⟩, ⟨0x50, .read 8⟩].map (decodeAccess 0x40) = List.replicate 11 .busError := by decide
theorem test_decode_outside : decodeAccess 0x40 ⟨0x3F, .read 4⟩ = .outside ∧ decodeAccess 0x40 ⟨0x60, .read 4⟩ = .outside := by
  decide
theorem test_decodeTableWord :
    decodeTableWord 32 0x1212 = some (.packGce 2 0 1) ∧ decodeTableWord 32 0x100 = some .endToken ∧
    decodeTableWord 32 1 = some (.srst 0) ∧ decodeTableWord 32 0x41 = some (.feed 0x41) := by decide

/-! ### Flag codec: V-PK2, V-PK3, V-PK10, V-PK16, V-PK18 and the table of 2.2 -/

theorem test_packLsd : resultOf (.packLsd 2 7 1) = some 0x000000F8 ∧ resultOf (.packLsd 256 7 1) = some 0x000000FF := by decide
theorem test_packLsd_palette : statusAfter (.packLsd 1 0 0) block = some 0x00000030 := by decide
theorem test_packImg : resultOf (.packImg 4 1 1) = some 0x000000E1 ∧ resultOf (.packImg 0 1 0) = some 0x00000040 := by decide
theorem test_packImg_palette : statusAfter (.packImg 272 0 0) block = some 0x00000030 := by decide
theorem test_packGce : resultOf (.packGce 2 0 1) = some 0x00000009 ∧ resultOf (.packGce 3 1 1) = some 0x0000000F := by decide
theorem test_packGce_range : statusAfter (.packGce 4 0 0) block = some 0x00000040 := by decide
theorem test_unpackLsd :
    resultOf (.unpackLsd 0x87) = some 0x0001E100 ∧ resultOf (.unpackLsd 0x47) = some 0x0002E800 := by decide
theorem test_unpackImg :
    resultOf (.unpackImg 0xE1) = some 0x00012604 ∧ resultOf (.unpackImg 0x18) = some 0x00021800 := by decide
theorem test_unpackGce :
    resultOf (.unpackGce 0x09) = some 0x00000012 ∧ resultOf (.unpackGce 0xE1) = some 0x000200F0 := by decide

/-! ### Jobs, tokens, queue: V-ST1 to V-ST13, V-LZ1, V-LZ8, P5 -/

theorem test_lzwStart : nextOf (exec .lzwStart block) = some { lzwJob with resp := .done } := by decide
theorem test_lzwStart_busy : statusAfter .lzwStart lzwJob = some 0x0001015D := by decide
theorem test_chunkStart : statusAfter .chunkStart block = some 0x00000205 := by decide
theorem test_chunkStart_busy : statusAfter .chunkStart lzwJob = some 0x0001015D := by decide
/-- R253: ERR_OUTFULL at |Q| = OUTQ_CAP (a queue of one entry keeps the test small). -/
theorem test_imgdataStart_outfull :
    (nextOf (exec .imgdataStart { idle with cfg := { base := 0, outqCap := 1 }, queue := [⟨0, true⟩] })).map State.err =
      some (some .outfull) := by decide
theorem test_imgdataStart : nextOf (exec .imgdataStart block) = some { imgJob with resp := .done } := by decide
/-- P5: after 0x41 the second 0x41 emits code 65 and sinks one byte, 0x83 (the checks on V-ST14). -/
theorem test_feed_emits :
    (nextOf (exec (.feed 0x41) { lzwJob with lzw := { lzwJob.lzw with cur := some 0x41 } })).map State.queue =
      some [⟨0x00, false⟩, ⟨0x83, false⟩] := by decide
theorem test_feed_nojob : statusAfter (.feed 0x41) block = some 0x00000060 := by decide
/-- V-LZ1 and V-ST4: the empty job outputs 00 03 02 with EOJ on the last. -/
theorem test_end_empty :
    (nextOf (exec .endToken lzwJob)).map State.queue = some [⟨0x00, false⟩, ⟨0x03, false⟩, ⟨0x02, true⟩] ∧
    statusAfter .endToken lzwJob = some 0x0003010A := by decide
/-- V-ID1: the empty IMGDATA job. -/
theorem test_end_imgdata :
    (nextOf (exec .endToken imgJob)).map State.queue =
      some [⟨0x08, false⟩, ⟨0x03, false⟩, ⟨0x00, false⟩, ⟨0x03, false⟩, ⟨0x02, false⟩, ⟨0x00, true⟩] := by decide
theorem test_pop_eoj :
    (nextOf (exec .pop { block with queue := [⟨0x02, true⟩] })).map State.resp = some (.data [0x02, 0x03, 0, 0]) := by decide
theorem test_pop_empty : nextOf (exec .pop block) = some { block with resp := .data [0, 0, 0, 0] } := by decide

/-! ### Whole-stream functions: V-LZ3, V-LZ7, V-CH4, V-CH12 -/

theorem test_lzwStream :
    lzwStream [0x00, 0x00] = [0x00, 0x01, 0x00, 0x08, 0x08] ∧
    lzwStream [1, 2, 1, 2, 1, 2, 1] = [0x00, 0x03, 0x08, 0x10, 0x48, 0x30, 0x20] := by decide
theorem test_gifDecode : gifDecode [0x00, 0x01, 0x08, 0x0C, 0x08] = some [0, 0, 0] := by decide
theorem test_chunked :
    chunked [0x03, 0x0A, 0x11] = [0x03, 0x03, 0x0A, 0x11, 0x00] ∧
    unchunked [0x03, 0x00, 0xFF, 0x00, 0x00] = some [0x00, 0xFF, 0x00] := by decide

/-! ### Control and status: V-CT1 to V-CT8, V-ST15, V-DC1 -/

theorem test_nop : nextOf (exec .nop lzwJob) = some { lzwJob with resp := .done } := by decide
theorem test_ctrlNone : nextOf (exec .ctrlNone lzwJob) = some { lzwJob with resp := .done } := by decide
theorem test_srst : nextOf (exec (.srst 1) { lzwJob with err := some .nojob, result := 0x80 }) =
    some { block with resp := .done } := by decide
theorem test_errclr : nextOf (exec .errclr { block with err := some .nojob, result := 0x80 }) =
    some { block with result := 0x80, resp := .done } := by decide
theorem test_rdStatus : (nextOf (exec .rdStatus lzwJob)).map State.resp = some (.data [0x0D, 0x01, 0x01, 0x00]) := by decide
theorem test_rdResult :
    (nextOf (exec .rdResult { block with result := 0x00010002 })).map State.resp = some (.data [0x02, 0x00, 0x01, 0x00]) := by
  decide
theorem test_rdCaps :
    (nextOf (exec .rdCaps block)).map State.resp = some (.data [0x08, 0x0C, 0x00, 0x02]) ∧
    (nextOf (exec .rdCaps idle)).map State.resp = some (.data [0x08, 0x0C, 0x06, 0x01]) := by decide

/-! ### Steps at the port -/

/-- Byte lanes (R67): PACK_LSD plen=2 arrives as 10 02 00 00. -/
theorem test_step_access :
    (nextOf (step { block with port := [.access ⟨0x40, .write [0x10, 0x02, 0x00, 0x00]⟩] })).map State.result =
      some 0x00000080 := by decide
theorem test_step_illegal :
    (nextOf (step { block with port := [.access ⟨0x40, .write [0x7F, 0x00, 0x00, 0x00]⟩] })).map statusWord =
      some 0x00000010 := by decide
theorem test_step_bus_error :
    nextOf (step { lzwJob with port := [.access ⟨0x50, .read 8⟩, .reset] }) =
      some { lzwJob with port := [.reset], resp := .busError } := by decide
theorem test_step_reset : nextOf (step { lzwJob with port := [.reset] }) = some block := by decide
theorem test_withFetchWord :
    (nextOf (step (State.reset.withFetchWord 32 0x22))).map statusWord = some 0x0001030D := by decide

/-! ### Witnesses: concrete data that meet the hypotheses of the statements -/

theorem engine_inv : LzwInv { Lzw.blank with bitbuf := 1, bitcnt := 1 } :=
  { next_ge := by decide, next_le := by decide, width_eq := by decide, bitcnt_le := by decide, bitbuf_lt := by decide
    dict := ⟨rfl, List.nodup_nil, by decide⟩, cur := by decide }

theorem idle_inv : Inv idle :=
  { cfg := by decide, queue := by decide, mode := by decide, done := by decide, fresh := by decide, ended := by decide
    lzw := fun h => absurd h.1 (by decide), cbuf := by decide }

theorem lzwJob_inv : Inv lzwJob :=
  { cfg := by decide, queue := by decide, mode := by decide, done := by decide, fresh := by decide, ended := by decide
    lzw := fun _ => engine_inv, cbuf := by decide }

theorem chunkJob_inv : Inv chunkJob :=
  { cfg := by decide, queue := by decide, mode := by decide, done := by decide, fresh := by decide, ended := by decide
    lzw := fun h => absurd h.2 (by decide), cbuf := by decide }

theorem imgJob_inv : Inv imgJob :=
  { cfg := by decide, queue := by decide, mode := by decide, done := by decide, fresh := by decide, ended := by decide
    lzw := fun _ => engine_inv, cbuf := by decide }

theorem witness_EncodeIsTheOnlySpelling :
    decodeAccess 0x40 ⟨0x40, .write [0x12, 0x1B, 0x00, 0x00]⟩ = .instr (.packGce 3 1 1) ∧
    decodeAccess 0x40 ⟨0x58, .read 4⟩ = .instr .rdCaps := by decide

theorem witness_StepRunsDecodedInstruction :
    ({ idle with port := [.access ⟨0x4C, .write [0x00, 0x01, 0, 0]⟩] } : State).port =
      .access ⟨0x4C, .write [0x00, 0x01, 0, 0]⟩ :: [] ∧
    decodeAccess idle.cfg.base ⟨0x4C, .write [0x00, 0x01, 0, 0]⟩ = .instr .endToken := by decide

theorem witness_BlockWaitsForItsHost :
    idle.port = [] ∧ 0x3C < idle.cfg.base ∧ idle.cfg.base + 32 ≤ 0x60 ∧
    ({ idle with port := [.access ⟨0x60, .read 4⟩] } : State).port = .access ⟨0x60, .read 4⟩ :: [] := by decide

/-- A wrong width, a misaligned offset, the reserved offset, both wrong directions, and an accepted access. -/
theorem witness_BusErrorsChangeNothing :
    xferWidth (.read 2) ≠ 4 ∧ 0x1F % 4 ≠ 0 ∧ 0x1F < 32 ∧ 0x1C < 32 ∧
    (∃ ls, Xfer.write [0, 0, 0, 0] = .write ls) ∧ (0x18 : Nat) ∈ [0x04, 0x08, 0x10, 0x18] ∧
    (∃ n, Xfer.read 4 = .read n) ∧ (0x00 : Nat) ∈ [0x00, 0x0C, 0x14] ∧
    xferWidth (.read 4) = 4 ∧ 0x18 % 4 = 0 ∧ (0x18 : Nat) ∉ [0x00, 0x0C, 0x14] ∧
    nextOf (serveAccess ⟨0x58, .read 4⟩ idle) = some { idle with resp := .data [0x08, 0x0C, 0x06, 0x01] } := by
  refine ⟨by decide, by decide, by decide, by decide, ⟨_, rfl⟩, by decide, ⟨_, rfl⟩, by decide, by decide, by decide,
    by decide, by decide⟩

theorem witness_IllegalOpcodesRaiseErrOpc :
    ((0x00000001 : Word).extractLsb 7 0).toNat ∉ [0x00, 0x10, 0x11, 0x12, 0x18, 0x19, 0x1A, 0x20, 0x21, 0x22] ∧
    ((0xFFFFFFFF : Word).extractLsb 7 0).toNat ∉ [0x00, 0x10, 0x11, 0x12, 0x18, 0x19, 0x1A, 0x20, 0x21, 0x22] := by
  constructor <;> decide

theorem witness_ReservedBitsRaiseErrRsvd :
    ((0x80000022 : Word).extractLsb 7 0).toNat ∈ [0x00, 0x20, 0x21, 0x22] ∧ (0x80000022 : Word).extractLsb 31 8 ≠ 0 ∧
    ((0x00200010 : Word).extractLsb 7 0).toNat = 0x10 ∧ (0x00200010 : Word).extractLsb 31 21 ≠ 0 ∧
    ((0x00080011 : Word).extractLsb 7 0).toNat = 0x11 ∧ (0x00080011 : Word).extractLsb 31 19 ≠ 0 ∧
    ((0x00002012 : Word).extractLsb 7 0).toNat = 0x12 ∧ (0x00002012 : Word).extractLsb 31 13 ≠ 0 ∧
    ((0x00010018 : Word).extractLsb 7 0).toNat ∈ [0x18, 0x19, 0x1A] ∧ (0x00010018 : Word).extractLsb 31 16 ≠ 0 ∧
    (0x00000200 : Word).extractLsb 31 9 ≠ 0 ∧
    (0x00000101 : Word).extractLsb 8 8 = 1 ∧ (0x00000101 : Word).extractLsb 7 0 ≠ 0 ∧
    (0x00000004 : Word).extractLsb 31 2 ≠ 0 := by decide

theorem witness_RaiseErrKeepsTheFirstError : idle.err = none ∧ ({ idle with err := some .busy } : State).err ≠ none := by decide

theorem witness_PaletteHelpers : (2 : BitVec 9).toNat = 2 ^ (0 + 1) ∧ (256 : BitVec 9).toNat = 2 ^ (7 + 1) := by decide

/-- Lengths at the ends of each clause of PackLsd and PackImg, and words of the two opcodes. -/
theorem witness_PackLsd_PackImg :
    (2 : BitVec 9).toNat = 2 ^ (0 + 1) ∧ (256 : BitVec 9).toNat = 2 ^ (7 + 1) ∧
    (∀ l ∈ [(1 : BitVec 9), 3, 255, 257, 511], l.toNat ∉ [0, 2, 4, 8, 16, 32, 64, 128, 256]) ∧
    (0x00200010 : Word).extractLsb 7 0 = 0x10#8 ∧ (0x001F0010 : Word).extractLsb 7 0 = 0x10#8 ∧
    (0x00080011 : Word).extractLsb 7 0 = 0x11#8 := by decide

theorem witness_PackGce :
    (3 : BitVec 3).toNat ≤ 3 ∧ 3 < (4 : BitVec 3).toNat ∧ (0x00001F12 : Word).extractLsb 7 0 = 0x12#8 := by decide

theorem witness_Unpack :
    (0x0000FF18 : Word).extractLsb 7 0 = 0x18#8 ∧ (0x0001FF19 : Word).extractLsb 7 0 = 0x19#8 ∧
    (0x0000001A : Word).extractLsb 7 0 = 0x1A#8 := by decide

theorem witness_FlagCodecRoundTrips :
    (lsdFields 0xFF).getLsbD 17 = false ∧ (imgFields 0xE1).getLsbD 17 = false ∧ (gceFields 0x0F).getLsbD 17 = false ∧
    plenOk 256 = true ∧ plenOk 0 = true ∧ dispOk 3 = true := by decide

theorem witness_FlagCommandsTouchOnlyResultOrErr :
    isFlagCommand (.packLsd 1 0 0) = true ∧ WellFormed (.packLsd 1 0 0) = false ∧
    isFlagCommand (.unpackGce 0xFF) = true ∧ WellFormed (.unpackGce 0xFF) = true := by decide

theorem witness_EmitCodeAppendsTheCodeBits :
    lzwJob.lzw.bitbuf < 2 ^ lzwJob.lzw.bitcnt ∧ 511 < 2 ^ lzwJob.lzw.width := by decide

/-- The three clauses of the LZW byte step: no match yet, a known pair, an unknown pair at a widening and a plain step. -/
theorem witness_LzwByteExtendsOrEmitsTheMatch :
    lzwJob.lzw.cur = none ∧
    (∃ z : Lzw, DictInv z.next z.dict ∧ z.cur = some 0 ∧ (⟨0, 1, 258⟩ : DictEntry) ∈ z.dict) ∧
    (∃ z : Lzw, z.cur = some 0 ∧ (∀ e ∈ z.dict, ¬ (e.pre = 0 ∧ e.byte = 1)) ∧ z.next + 1 ≠ 4096 ∧ z.next = 2 ^ z.width) ∧
    (∃ z : Lzw, z.cur = some 0 ∧ (∀ e ∈ z.dict, ¬ (e.pre = 0 ∧ e.byte = 1)) ∧ z.next + 1 ≠ 4096 ∧ z.next ≠ 2 ^ z.width) :=
  ⟨rfl,
   ⟨{ Lzw.blank with dict := [⟨0, 1, 258⟩], next := 259, cur := some 0 }, ⟨by decide, by decide, by decide⟩, rfl, by decide⟩,
   ⟨{ Lzw.blank with next := 512, cur := some 0 }, rfl, by decide, by decide, by decide⟩,
   ⟨{ Lzw.blank with cur := some 0 }, rfl, by decide, by decide, by decide⟩⟩

theorem witness_FullDictionaryClears :
    ∃ z : Lzw, z.cur = some 5 ∧ (∀ e ∈ z.dict, ¬ (e.pre = 5 ∧ e.byte = 7)) ∧ z.next = 4095 :=
  ⟨{ Lzw.blank with next := 4095, width := 12, cur := some 5 }, rfl, by decide, rfl⟩

theorem witness_CodeWidthsFollowTheSchedule :
    lzwCodes [] = [] ++ [⟨256, 9⟩] ++ [] ++ [⟨257, 9⟩] ++ [] ∧ (∀ m ∈ ([] : List Coded), m.code ≠ 256) := by decide

/-- A step that serves a reset event, and the two outcomes of a state in its invariant. -/
theorem witness_StepTakesOneEvent_InvariantStatesNeverFault :
    step { lzwJob with port := [.reset] } = .next (hardReset { lzwJob with port := [] }) ∧
    Inv lzwJob ∧ step lzwJob = .next lzwJob ∧ Inv { idle with port := [.access ⟨0x60, .read 4⟩] } ∧
    step { idle with port := [.access ⟨0x60, .read 4⟩] } = .refused .outsideWindow :=
  ⟨rfl, lzwJob_inv, rfl,
   { cfg := by decide, queue := by decide, mode := by decide, done := by decide, fresh := by decide, ended := by decide
     lzw := fun h => absurd h.1 (by decide), cbuf := by decide }, rfl⟩

/-- An engine inside a match whose dictionary entries are newer than their prefixes. -/
structure Matching (z : Lzw) (p : Nat) : Prop where
  cur : z.cur = some p
  code : p ≠ 256
  old : p < z.next
  entries : ∀ e ∈ z.dict, e.pre < e.code ∧ 258 ≤ e.code ∧ e.code < z.next

/-- Enough zero bytes leave the match and emit one data code, followed by CLEAR if it assigned code 4095. -/
theorem zeros_emit (n : Nat) : ∀ (z : Lzw) (p : Nat), Matching z p → 258 ≤ z.next → z.next ≤ p + n →
    ∃ (m : Nat) (z' : Lzw) (c w : Nat), c ≠ 256 ∧
      (∀ rest, codesFrom (List.replicate m 0 ++ rest) z =
        ⟨c, w⟩ :: ((if z.next + 1 = 4096 then [⟨256, w⟩] else []) ++ codesFrom rest z')) ∧
      (z.next + 1 ≠ 4096 → Matching z' 0 ∧ z'.next = z.next + 1) := by
  induction n with
  | zero => intro z p hz _ hn; have := hz.old; omega
  | succ n ih =>
    intro z p hz h258 hn
    cases hl : lookup p 0 z.dict with
    | some c =>
      have hstep : lzwByte 0 z = ({ z with cur := some c }, []) := by
        simp only [lzwByte, hz.cur, hl]
      obtain ⟨e, he, rfl, -, rfl⟩ := lookup_eq_some hl
      obtain ⟨h1, h2, h3⟩ := hz.entries e he
      obtain ⟨m, z', c', w, hc, hcodes, hnext⟩ :=
        ih { z with cur := some e.code } e.code ⟨rfl, by omega, h3, hz.entries⟩ h258 (by simp only; omega)
      refine ⟨m + 1, z', c', w, hc, fun rest => ?_, hnext⟩
      have hno : byteCodes 0 z = [] := by simp only [byteCodes, hz.cur, hl]
      rw [List.replicate_succ, List.cons_append, codesFrom, hno, hstep]
      exact hcodes rest
    | none =>
      refine ⟨1, (lzwByte 0 z).1, p, z.width, hz.code, fun rest => ?_, fun hne => ?_⟩
      · simp only [List.replicate_one, codesFrom, byteCodes, hz.cur, hl, List.cons_append]
        rfl
      · have hstep : (lzwByte 0 z).1 =
            { (afterInsert (insertCode p 0 (emitCode p z).1)).1 with cur := some 0 } := by
          simp only [lzwByte, hz.cur, hl]
          rfl
        have hdict : (lzwByte 0 z).1.dict = ⟨p, 0, z.next⟩ :: z.dict ∧ (lzwByte 0 z).1.next = z.next + 1 := by
          rw [hstep]
          unfold afterInsert
          simp only [insertCode, emitCode_next, emitCode_dict]
          rw [if_neg hne]
          split <;> simp
        refine ⟨⟨by rw [hstep], by decide, by rw [hdict.2]; omega, ?_⟩, hdict.2⟩
        rw [hdict.1, hdict.2]
        intro e he
        rcases List.mem_cons.mp he with rfl | he
        · exact ⟨hz.old, h258, Nat.lt_succ_self _⟩
        · have := hz.entries e he; exact ⟨this.1, this.2.1, by omega⟩

/-- Enough zero bytes fill the dictionary: data codes, then CLEAR. -/
theorem zeros_fill (n : Nat) : ∀ (z : Lzw) (p : Nat), Matching z p → 258 ≤ z.next → z.next + n = 4095 →
    ∃ (m : Nat) (z' : Lzw) (mid : List Coded) (w : Nat), (∀ c ∈ mid, c.code ≠ 256) ∧
      ∀ rest, codesFrom (List.replicate m 0 ++ rest) z = mid ++ ⟨256, w⟩ :: codesFrom rest z' := by
  induction n with
  | zero =>
    intro z p hz h258 hn
    obtain ⟨m, z', c, w, hc, hcodes, -⟩ := zeros_emit z.next z p hz h258 (by omega)
    refine ⟨m, z', [⟨c, w⟩], w, by simpa using hc, fun rest => ?_⟩
    rw [hcodes, if_pos (by omega)]; rfl
  | succ n ih =>
    intro z p hz h258 hn
    obtain ⟨m, z1, c, w, hc, hcodes, hnext⟩ := zeros_emit z.next z p hz h258 (by omega)
    obtain ⟨hz1, hn1⟩ := hnext (by omega)
    obtain ⟨m2, z2, mid, w2, hmid, hcodes2⟩ := ih z1 0 hz1 (by omega) (by omega)
    refine ⟨m + m2, z2, ⟨c, w⟩ :: mid, w2, ?_, fun rest => ?_⟩
    · intro d hd
      rcases List.mem_cons.mp hd with rfl | hd
      exacts [hc, hmid d hd]
    · rw [← List.replicate_append_replicate, List.append_assoc, hcodes, if_neg (by omega), List.nil_append, hcodes2]
      rfl

/-- A code stream with a second CLEAR, which the clause on full dictionaries of CodeStreamShape needs. -/
theorem witness_CodeStreamShape :
    ∃ (x : List Byte) (pre mid post : List Coded) (v w : Nat),
      lzwCodes x = pre ++ [⟨256, v⟩] ++ mid ++ [⟨256, w⟩] ++ post ∧ ∀ m ∈ mid, m.code ≠ 256 := by
  obtain ⟨m, z', mid, w, hmid, hcodes⟩ := zeros_fill 3837 (lzwByte 0 lzwInit.1).1 0
    ⟨rfl, by decide, by decide, by intro e he; cases he⟩ (by decide) rfl
  refine ⟨0 :: List.replicate m 0, [], mid, codesFrom [] z', 9, w, ?_, hmid⟩
  have h := hcodes []
  rw [List.append_nil] at h
  have hno : byteCodes 0 lzwInit.1 = [] := rfl
  simp only [lzwCodes, codesFrom, hno, h]
  simp

theorem witness_ChunkerPushCounts : ([] : List Byte).length ≤ 254 ∧ (List.replicate 254 (0 : Byte)).length ≤ 254 :=
  ⟨by decide, List.length_replicate.le⟩

theorem witness_StartsOpenTheirJobs : idle.phase = .idle ∧ idle.queue.length < idle.cfg.outqCap := by decide

theorem witness_StartsAreRefusedWhenBusyOrFull :
    isStart .chunkStart = true ∧ lzwJob.phase = .run ∧ full.phase = .idle ∧ full.cfg.outqCap ≤ full.queue.length :=
  ⟨rfl, rfl, rfl, (List.length_replicate (n := 262) (a := (⟨0, true⟩ : Entry))).ge⟩

theorem witness_TokensAreRefusedWhenNotReady :
    idle.phase = .idle ∧ noRoom.phase = .run ∧ noRoom.cfg.outqCap < noRoom.queue.length + 261 :=
  ⟨rfl, rfl, by
    have h := List.length_replicate (n := 252) (a := (⟨0, false⟩ : Entry))
    show 512 < (List.replicate 252 (⟨0, false⟩ : Entry)).length + 261
    rw [h]; decide⟩

/-- One running job of each mode, the first at the limit |Q| = 251 of the default queue. -/
theorem witness_DataTokensFeedTheUnits :
    lzwJob.phase = .run ∧ lzwJob.mode = .lzw ∧ lzwJob.queue.length + 261 ≤ lzwJob.cfg.outqCap ∧
    251 + 261 ≤ lzwJob.cfg.outqCap ∧ chunkJob.phase = .run ∧ chunkJob.mode = .chunk ∧
    chunkJob.queue.length + 261 ≤ chunkJob.cfg.outqCap ∧ imgJob.phase = .run ∧ imgJob.mode = .imgdata ∧
    imgJob.queue.length + 261 ≤ imgJob.cfg.outqCap := by decide

theorem witness_DataTokenPushCounts_EndClosesTheJob :
    (Inv lzwJob ∧ inReady lzwJob = true ∧ lzwJob.mode = .lzw) ∧
    (Inv chunkJob ∧ inReady chunkJob = true ∧ chunkJob.mode = .chunk) ∧
    (Inv imgJob ∧ inReady imgJob = true ∧ imgJob.mode = .imgdata) :=
  ⟨⟨lzwJob_inv, by decide, rfl⟩, ⟨chunkJob_inv, by decide, rfl⟩, ⟨imgJob_inv, by decide, rfl⟩⟩

theorem witness_PopReturnsTheHead : idle.queue = [] ∧ lzwJob.queue = ⟨0x00, false⟩ :: [] := by decide

theorem witness_ResetsClearTheBlock : ({ lzwJob with port := [.reset] } : State).port = .reset :: [] := by decide

theorem witness_InvariantHoldsAtReset :
    ({ base := 0, outqCap := 262 } : Config).Legal ∧ ({ base := 0xFFFFFFE0, outqCap := 65535 } : Config).Legal := by decide

theorem witness_LzwByteKeeps_LzwSinkBounds : LzwInv lzwJob.lzw := engine_inv

/-- A state in its invariant and a step of it that answers a next state. -/
theorem witness_EveryStepKeepsTheInvariant :
    Inv lzwJob ∧ step lzwJob = .next lzwJob := ⟨lzwJob_inv, rfl⟩

theorem witness_OnlyTheListedOperationsWrite : exec .nop idle = .next (respond .done idle) := rfl

theorem witness_IdleEngineStateIsUnobservable : SameToHost idle { idle with lzw := lzwJob.lzw, cbuf := [0xFF] } :=
  { cfg := rfl, phase := rfl, mode := rfl, done := rfl, err := rfl, result := rfl, queue := rfl, port := rfl, resp := rfl
    lzw := by decide, cbuf := by decide }

/-- The state after LZW_START and one data byte, named by the operations themselves. -/
theorem witness_JobOutputIsTheFunctionOfItsInput :
    Inv idle ∧ startOf .chunk = some .chunkStart ∧ startError idle = none ∧
    (∃ s1 r r2, exec .chunkStart idle = .next s1 ∧ runsWithinJob [.feed 0x41] s1 ∧ runOps [.feed 0x41] s1 = some r ∧
      inReady r.state = true ∧ runOps [.endToken] r.state = some r2) :=
  ⟨idle_inv, rfl, by decide, _, _, _, rfl, ⟨rfl, fun _ _ => trivial⟩, rfl, by decide, rfl⟩

theorem witness_RunJobDeliversTheJobOutput : Inv idle ∧ Quiescent idle ∧ startOf .imgdata = some .imgdataStart :=
  ⟨idle_inv, by decide, rfl⟩

/-- A dictionary of two entries, the newer one on the older: 258 is (0, 1), 259 is (258, 0). -/
def twoEntries : List DictEntry := [⟨258, 0, 259⟩, ⟨0, 1, 258⟩]

/-- str(258) and str(259) by hand from R171. -/
theorem test_codeString : codeString twoEntries 258 = [0, 1] ∧ codeString twoEntries 259 = [0, 1, 0] := by decide

theorem witness_CodesStandForStrings : DictInv 260 twoEntries ∧ (⟨258, 0, 259⟩ : DictEntry) ∈ twoEntries :=
  ⟨⟨by decide, by decide, by decide⟩, by decide⟩

/-- An engine in its invariant inside a match, with a byte that extends it and a byte that emits it. -/
theorem witness_MatchIsTheUnemittedInput :
    ∃ z : Lzw, LzwInv z ∧ byteCodes 1 z = [] ∧ byteCodes 7 z = [⟨0, 9⟩] :=
  ⟨{ dict := twoEntries, cur := some 0, next := 260, width := 9, bitbuf := 0, bitcnt := 0 },
   { next_ge := by decide, next_le := by decide, width_eq := by decide, bitcnt_le := by decide, bitbuf_lt := by decide
     dict := ⟨by decide, by decide, by decide⟩, cur := by decide }, by decide, by decide⟩

theorem witness_JobMatchIsItsUnemittedInput :
    Inv idle ∧ startError idle = none ∧
    (∃ s1 r, exec .imgdataStart idle = .next s1 ∧ runsWithinJob [.feed 0x41, .pop] s1 ∧
      runOps [.feed 0x41, .pop] s1 = some r) :=
  ⟨idle_inv, by decide, _, _, rfl, ⟨rfl, fun _ _ => ⟨rfl, fun _ _ => trivial⟩⟩, rfl⟩

theorem witness_WatchedEntriesEndAtTheJobsMark :
    Inv lzwJob ∧ lzwJob.phase = .run ∧ ∃ t, watchJob [opEvent lzwJob .endToken] lzwJob .running = some (t, .left (2 + 1)) :=
  ⟨lzwJob_inv, rfl, _, rfl⟩

theorem witness_JobsFinishCleanlyWhenPoppedToTheirMark :
    Inv chunkJob ∧ inReady chunkJob = true ∧ chunkJob.err = none ∧ isStart .lzwStart = true :=
  ⟨chunkJob_inv, by decide, rfl, rfl⟩

/-- An empty CHUNK job is its terminator: one pop finishes it cleanly, and the next job's start changes nothing of that
(R262, R253). -/
theorem test_finishedCleanly_beside_a_later_job :
    ∃ t, FinishedCleanly [opEvent chunkJob .endToken, opEvent chunkJob .pop, opEvent chunkJob .lzwStart] chunkJob t ∧
      t.phase = .run ∧ t.queue = [⟨0x00, false⟩] :=
  ⟨_, ⟨rfl, rfl, rfl⟩, rfl, rfl⟩

end Sys2Proof.Tests
end

section
/-! Proofs of the scope family: what an operation can do, how the units move their state, and the invariant of the block. -/

/-! ### The chunker's counts (42_chunker.md R226, R227) -/

namespace Sys2Proof.Machine

/-- A run of payload bytes sends out one full sub-block for every 255 bytes gathered, and keeps the rest. -/
theorem chunkBytes_length {x c : List Byte} (hc : c.length ≤ 254) :
    (chunkBytes x c).1.length = (c.length + x.length) % 255 ∧
      (chunkBytes x c).2.length = 256 * ((c.length + x.length) / 255) := by
  induction x generalizing c with
  | nil => simp only [chunkBytes, List.length_nil]; omega
  | cons b x ih =>
    by_cases hfull : c.length = 254
    · obtain ⟨hkept, hsent⟩ := ih (c := []) (by simp)
      simp only [chunkBytes, chunkByte_full hfull, List.length_append, subBlock_length, List.length_cons, List.length_nil,
        hkept, hsent]
      omega
    · obtain ⟨hkept, hsent⟩ := ih (c := c ++ [b]) (by simp; omega)
      simp only [chunkBytes, chunkByte_short hfull, List.nil_append, List.length_append, List.length_cons, List.length_nil,
        hkept, hsent]
      omega

/-- CBUF never holds a full sub-block (R41). -/
theorem chunkBytes_cbuf_le {x c : List Byte} (hc : c.length ≤ 254) : (chunkBytes x c).1.length ≤ 254 := by
  rw [(chunkBytes_length hc).1]
  omega

/-- The bytes of one data token complete at most one sub-block (R254). -/
theorem chunkBytes_sent_le {x c : List Byte} (hc : c.length ≤ 254) (hx : x.length ≤ 255) :
    (chunkBytes x c).2.length ≤ 256 := by
  rw [(chunkBytes_length hc).2]
  omega

/-- The last sub-block is its payload, a length byte if it is not empty, and the terminator (R227). -/
theorem chunkEnd_length (c : List Byte) : (chunkEnd c).length = if c = [] then 1 else c.length + 2 := by
  cases c <;> simp [chunkEnd]

/-- The bytes pushed at END: four tail bytes, which may complete a sub-block, then the last sub-block (R255). -/
theorem chunkBytes_chunkEnd_length_le {x c : List Byte} (hc : c.length ≤ 254) (hx : x.length ≤ 4) :
    (chunkBytes x c).2.length + (chunkEnd (chunkBytes x c).1).length ≤ 261 := by
  obtain ⟨hkept, hsent⟩ := chunkBytes_length (x := x) hc
  rw [chunkEnd_length, hsent]
  split <;> omega

end Sys2Proof.Machine

/-! ### The width of the codes (41_lzw.md R176, R182) -/

namespace Sys2Proof

open Machine

theorem lt_two_pow_bitlen (n : Nat) : n < 2 ^ bitlen n := Nat.lt_log2_self

theorem bitlen_le {n k : Nat} (hn : n ≠ 0) (h : n < 2 ^ k) : bitlen n ≤ k := (Nat.log2_lt hn).2 h

/-- A number is one bit longer than its predecessor exactly where it is a power of two. -/
theorem bitlen_succ {n : Nat} (hn : n ≠ 0) :
    bitlen (n + 1) = if n + 1 = 2 ^ bitlen n then bitlen n + 1 else bitlen n := by
  have hge : 2 ^ n.log2 ≤ n := Nat.log2_self_le hn
  have hlt := lt_two_pow_bitlen n
  unfold bitlen at *
  split
  · next h => rw [h, Nat.log2_two_pow]
  · next h =>
    have hlog : (n + 1).log2 = n.log2 := (Nat.log2_eq_iff (Nat.succ_ne_zero n)).2 ⟨by omega, by omega⟩
    rw [hlog]

section
variable {z : Lzw} (hz : LzwInv z)
include hz

theorem LzwInv.bitlen_ge : 9 ≤ bitlen (z.next - 1) := by
  have hge := hz.next_ge
  by_contra hshort
  have hpow : 2 ^ bitlen (z.next - 1) ≤ 2 ^ 8 := Nat.pow_le_pow_right (by omega) (by omega)
  have hlt := lt_two_pow_bitlen (z.next - 1)
  omega

/-- From the first assigned code on the maximum of R42 is its second argument. -/
theorem LzwInv.width_eq_bitlen : z.width = bitlen (z.next - 1) := by
  rw [hz.width_eq, Nat.max_eq_right hz.bitlen_ge]

theorem LzwInv.width_ge : 9 ≤ z.width := hz.width_eq_bitlen ▸ hz.bitlen_ge

theorem LzwInv.width_le : z.width ≤ 12 := by
  have hge := hz.next_ge
  have hle := hz.next_le
  rw [hz.width_eq_bitlen]
  exact bitlen_le (by omega) (by omega)

theorem LzwInv.next_le_two_pow : z.next ≤ 2 ^ z.width := by
  have hlt := lt_two_pow_bitlen (z.next - 1)
  rw [hz.width_eq_bitlen]
  omega

/-- Every code below NEXT fits its width (R182). -/
theorem LzwInv.code_lt {c : Nat} (hc : StringCode z.next c) : c < 2 ^ z.width := by
  have hge := hz.next_ge
  have hpow := hz.next_le_two_pow
  rcases hc with hc | hc <;> omega

/-- Assigning NEXT widens the codes exactly if NEXT is 2^WIDTH (R175), which keeps the width of R182. -/
theorem LzwInv.width_succ : (if z.next = 2 ^ z.width then z.width + 1 else z.width) = max 9 (bitlen z.next) := by
  have hge := hz.next_ge
  have hsucc := bitlen_succ (n := z.next - 1) (by omega)
  rw [Nat.sub_add_cancel (by omega), ← hz.width_eq_bitlen] at hsucc
  have hw := hz.width_ge
  rw [← hsucc, Nat.max_eq_right]
  rw [hsucc]
  split <;> omega

end

end Sys2Proof

/-! ### The engine's steps (41_lzw.md R172 to R178) -/

namespace Sys2Proof.Machine

theorem emitCode_bitcnt_le (c : Nat) (z : Lzw) : (emitCode c z).1.bitcnt ≤ 7 := by
  rw [emitCode_bitcnt]
  omega

/-- A code that fits its width leaves no stray bit above the pending ones (R172). -/
theorem emitCode_bitbuf_lt {c : Nat} {z : Lzw} (hz : z.bitbuf < 2 ^ z.bitcnt) (hc : c < 2 ^ z.width) :
    (emitCode c z).1.bitbuf < 2 ^ (emitCode c z).1.bitcnt := by
  have hbuf : z.bitbuf < 2 ^ (z.bitcnt + z.width) := hz.trans_le (Nat.pow_le_pow_right (by omega) (by omega))
  have hcode : c <<< z.bitcnt < 2 ^ (z.bitcnt + z.width) := by
    rw [Nat.shiftLeft_eq, Nat.add_comm, Nat.pow_add]
    exact Nat.mul_lt_mul_of_pos_right hc (by positivity)
  have hor := Nat.or_lt_two_pow hbuf hcode
  have hsplit : z.bitcnt + z.width = (z.bitcnt + z.width) % 8 + 8 * ((z.bitcnt + z.width) / 8) := by omega
  rw [(emitCode_spec c z).1, Nat.shiftRight_eq_div_pow]
  apply Nat.div_lt_of_lt_mul
  rwa [← Nat.pow_add, Nat.add_comm, ← hsplit]

/-- The bit packer does not see the dictionary. -/
theorem sinkBytes_insertCode (n p : Nat) (k : Byte) (z : Lzw) :
    sinkBytes n (insertCode p k z) = (insertCode p k (sinkBytes n z).1, (sinkBytes n z).2) := by
  induction n generalizing z with
  | zero => rfl
  | succ n ih =>
    unfold sinkBytes
    split
    · next h =>
      rw [if_pos (show 8 ≤ z.bitcnt from h)]
      exact congrArg (fun r : Lzw × List Byte => (r.1, BitVec.ofNat 8 z.bitbuf :: r.2))
        (ih { z with bitbuf := z.bitbuf >>> 8, bitcnt := z.bitcnt - 8 })
    · next h => rw [if_neg (show ¬ 8 ≤ z.bitcnt from h)]

theorem emitCode_insertCode (c p : Nat) (k : Byte) (z : Lzw) :
    emitCode c (insertCode p k z) = (insertCode p k (emitCode c z).1, (emitCode c z).2) :=
  sinkBytes_insertCode _ p k { z with bitbuf := z.bitbuf ||| (c <<< z.bitcnt), bitcnt := z.bitcnt + z.width }

section
variable {k : Byte} {z : Lzw} {p : Nat}

/-- The first byte of a job starts a match (R175). -/
theorem lzwByte_start (hcur : z.cur = none) : lzwByte k z = ({ z with cur := some k.toNat }, []) := by
  simp [lzwByte, hcur]

/-- A known extension becomes the match (R175). -/
theorem lzwByte_extend {c : Nat} (hcur : z.cur = some p) (hl : lookup p k z.dict = some c) :
    lzwByte k z = ({ z with cur := some c }, []) := by
  simp [lzwByte, hcur, hl]

/-- An unknown extension below the limit: the match leaves, its extension is assigned, the codes may widen (R175). -/
theorem lzwByte_emit (hcur : z.cur = some p) (hl : lookup p k z.dict = none) (hn : z.next + 1 ≠ 4096) :
    lzwByte k z =
      ({ (emitCode p z).1 with
          dict := { pre := p, byte := k, code := z.next } :: z.dict
          next := z.next + 1
          width := if z.next = 2 ^ z.width then z.width + 1 else z.width
          cur := some k.toNat },
        (emitCode p z).2) := by
  simp only [lzwByte, hcur, hl, afterInsert, insertCode, emitCode_next, emitCode_dict, emitCode_width, if_neg hn,
    Nat.add_sub_cancel]
  split <;> simp

/-- The step that assigns code 4095 also emits CLEAR and starts over (R175, R177). -/
theorem lzwByte_clear (hcur : z.cur = some p) (hl : lookup p k z.dict = none) (hn : z.next + 1 = 4096) :
    lzwByte k z =
      ({ resetDict (emitCode Const.clear (emitCode p z).1).1 with cur := some k.toNat },
        (emitCode p z).2 ++ (emitCode Const.clear (emitCode p z).1).2) := by
  have hfull : (insertCode p k (emitCode p z).1).next = Const.dictLimit :=
    (congrArg (· + 1) (emitCode_next p z)).trans hn
  simp only [lzwByte, hcur, hl, afterInsert, if_pos hfull, emitCode_insertCode]
  rfl

end

/-- `lzw_init` (R174): CLEAR in 9 bits sinks one zero byte and leaves one pending bit. -/
theorem lzwInit_eq :
    lzwInit = ({ dict := [], cur := none, next := 258, width := 9, bitbuf := 1, bitcnt := 1 }, [0x00]) := by decide

end Sys2Proof.Machine

/-! ### The engine's invariant (10_state.md R42, 41_lzw.md R181, R182, R184) -/

namespace Sys2Proof

open Machine

/-- An engine with an empty dictionary, as R173 leaves it. -/
theorem lzwInv_resetDict {z : Lzw} (hcnt : z.bitcnt ≤ 7) (hbuf : z.bitbuf < 2 ^ z.bitcnt)
    (hcur : ∀ c ∈ z.cur, c < 256) : LzwInv (resetDict z) where
  next_ge := Nat.le_refl _
  next_le := show 258 ≤ 4095 by decide
  width_eq := show 9 = max 9 (bitlen 257) by decide
  bitcnt_le := hcnt
  bitbuf_lt := hbuf
  dict := dictInv_empty
  cur c hc := .inl (hcur c hc)

theorem lzwInv_lzwInit : LzwInv lzwInit.1 := by
  rw [lzwInit_eq]
  exact lzwInv_resetDict (z := ⟨[], none, 0, 0, 1, 1⟩) (by decide) (by decide) (by simp)

/-- Every case of `lzw_byte` keeps the engine's invariant. -/
theorem LzwInv.lzwByte {z : Lzw} (hz : LzwInv z) (k : Byte) : LzwInv (Machine.lzwByte k z).1 := by
  have hk : ∀ c ∈ some k.toNat, c < 256 := by simpa using k.isLt
  cases hcur : z.cur with
  | none =>
    rw [lzwByte_start hcur]
    exact { hz with cur := fun c hc => .inl (hk c hc) }
  | some p =>
    have hp : StringCode z.next p := hz.cur p hcur
    have hbuf : (emitCode p z).1.bitbuf < 2 ^ (emitCode p z).1.bitcnt := emitCode_bitbuf_lt hz.bitbuf_lt (hz.code_lt hp)
    cases hl : lookup p k z.dict with
    | some c =>
      rw [lzwByte_extend hcur hl]
      obtain ⟨e, he, -, -, rfl⟩ := lookup_eq_some hl
      exact { hz with cur := by simpa using .inr (dictInv_code_lt hz.dict he) }
    | none =>
      have hge := hz.next_ge
      have hle := hz.next_le
      by_cases hn : z.next + 1 = 4096
      · rw [lzwByte_clear hcur hl hn]
        have hclear : Const.clear < 2 ^ (emitCode p z).1.width := by
          have hpow := hz.next_le_two_pow
          rw [emitCode_width]
          exact Nat.lt_of_lt_of_le (by decide : 256 < 258) (hge.trans hpow)
        exact lzwInv_resetDict (z := { (emitCode Const.clear (emitCode p z).1).1 with cur := some k.toNat })
          (emitCode_bitcnt_le _ _) (emitCode_bitbuf_lt hbuf hclear) hk
      · rw [lzwByte_emit hcur hl hn]
        exact
          { next_ge := by simp only; omega
            next_le := by simp only; omega
            width_eq := hz.width_succ
            bitcnt_le := emitCode_bitcnt_le p z
            bitbuf_lt := hbuf
            dict := dictInv_insert hz.dict hge hp hl
            cur := fun c hc => .inl (hk c hc) }

/-- A data byte sinks at most 3 bytes (R181). -/
theorem LzwInv.lzwByte_length_le {z : Lzw} (hz : LzwInv z) (k : Byte) : (Machine.lzwByte k z).2.length ≤ 3 := by
  have hcnt := hz.bitcnt_le
  have hwidth := hz.width_le
  cases hcur : z.cur with
  | none => simp [lzwByte_start hcur]
  | some p =>
    cases hl : lookup p k z.dict with
    | some c => simp [lzwByte_extend hcur hl]
    | none =>
      by_cases hn : z.next + 1 = 4096
      · simp only [lzwByte_clear hcur hl hn, List.length_append, emitCode_length, emitCode_bitcnt, emitCode_width]
        omega
      · simp only [lzwByte_emit hcur hl hn, emitCode_length]
        omega

/-- The last data code sinks whole bytes and leaves at most 7 bits for an EOI of at most 12 (R178). -/
theorem LzwInv.emitCurrent_bits {z : Lzw} (hz : LzwInv z) :
    8 * (emitCurrent z).2.length + (emitCurrent z).1.bitcnt ≤ 19 ∧
      9 ≤ (emitCurrent z).1.width ∧ (emitCurrent z).1.width ≤ 12 := by
  have hcnt := hz.bitcnt_le
  have hge := hz.width_ge
  have hle := hz.width_le
  cases hcur : z.cur with
  | none =>
    simp only [emitCurrent, hcur, List.length_nil]
    omega
  | some p =>
    have hwiden : z.next = 2 ^ z.width → z.width ≤ 11 := fun h => by
      have hnext := hz.next_le
      by_contra hw
      rw [h, show z.width = 12 by omega] at hnext
      omega
    simp only [emitCurrent, hcur, emitCode_next, emitCode_width, emitCode_length]
    split
    · next h =>
      have hw := hwiden h
      simp only [emitCode_bitcnt]
      omega
    · simp only [emitCode_bitcnt, emitCode_width]
      omega

/-- END sinks 2 to 4 bytes (R184). -/
theorem LzwInv.lzwEnd_length {z : Lzw} (hz : LzwInv z) :
    2 ≤ (lzwEnd z).2.length ∧ (lzwEnd z).2.length ≤ 4 := by
  obtain ⟨hbits, hge, hle⟩ := hz.emitCurrent_bits
  simp only [lzwEnd, flushBits, List.length_append, emitCode_length, emitCode_bitcnt]
  split <;> simp only [List.length_cons, List.length_nil] <;> omega

end Sys2Proof
end

section
/-! ### What an operation can do, said once for `exec` -/

namespace Sys2Proof.Machine

section
variable (bs : List Byte) (s : State)

@[simp] theorem throughChunker_cfg : (throughChunker bs s).cfg = s.cfg := rfl
@[simp] theorem throughChunker_phase : (throughChunker bs s).phase = s.phase := rfl
@[simp] theorem throughChunker_mode : (throughChunker bs s).mode = s.mode := rfl
@[simp] theorem throughChunker_done : (throughChunker bs s).done = s.done := rfl
@[simp] theorem throughChunker_port : (throughChunker bs s).port = s.port := rfl
@[simp] theorem throughChunker_lzw : (throughChunker bs s).lzw = s.lzw := rfl
@[simp] theorem throughChunker_cbuf : (throughChunker bs s).cbuf = (chunkBytes bs s.cbuf).1 := rfl
@[simp] theorem throughChunker_queue_length :
    (throughChunker bs s).queue.length = s.queue.length + (chunkBytes bs s.cbuf).2.length := by simp [throughChunker]

@[simp] theorem endChunks_cfg : (endChunks s).cfg = s.cfg := rfl
@[simp] theorem endChunks_mode : (endChunks s).mode = s.mode := rfl
@[simp] theorem endChunks_port : (endChunks s).port = s.port := rfl
@[simp] theorem endChunks_queue_length :
    (endChunks s).queue.length = s.queue.length + (chunkEnd s.cbuf).length := by simp [endChunks]

theorem push_queue_length : (push bs s).queue.length = s.queue.length + bs.length := by simp

end

theorem inReady_iff {s : State} : inReady s = true ↔ s.phase = .run ∧ s.queue.length + 261 ≤ s.cfg.outqCap := by
  simp [inReady, busy, hasRoom_iff]

/-- The next states an operation can lead to, each named by what the operation did. -/
inductive Effect (s : State) : Instr → State → Prop
  | nothing (i : Instr) : i = .nop ∨ i = .ctrlNone → Effect s i (respond .done s)
  | answered (i : Instr) (w : Word) : isRead i = true → Effect s i (respond (.data (lanesOf w)) s)
  | refused (i : Instr) (e : ErrCode) : Effect s i (respond .done (raiseErr e s))
  | result (i : Instr) (w : Word) : isFlagCommand i = true → Effect s i (respond .done (setResult w s))
  | errclr : Effect s .errclr (respond .done (clearErr s))
  | srst (b : BitVec 1) : Effect s (.srst b) (respond .done (softReset s))
  | startLzw : startError s = none →
      Effect s .lzwStart (respond .done (push lzwInit.2 (setLzw lzwInit.1 (openJob .lzw s))))
  | startChunk : startError s = none → Effect s .chunkStart (respond .done (setCbuf [] (openJob .chunk s)))
  | startImgdata : startError s = none →
      Effect s .imgdataStart (respond .done
        (throughChunker lzwInit.2 (setLzw lzwInit.1 (setCbuf [] (push [0x08] (openJob .imgdata s))))))
  | feedLzw (k : Byte) : inReady s = true → s.mode = .lzw →
      Effect s (.feed k) (respond .done (push (lzwByte k s.lzw).2 (setLzw (lzwByte k s.lzw).1 s)))
  | feedChunk (k : Byte) : inReady s = true → s.mode = .chunk →
      Effect s (.feed k) (respond .done (throughChunker [k] s))
  | feedImgdata (k : Byte) : inReady s = true → s.mode = .imgdata →
      Effect s (.feed k) (respond .done (throughChunker (lzwByte k s.lzw).2 (setLzw (lzwByte k s.lzw).1 s)))
  | endLzw : inReady s = true → s.mode = .lzw →
      Effect s .endToken (respond .done (closeJob (markEoj (push (lzwEnd s.lzw).2 (setLzw (lzwEnd s.lzw).1 s)))))
  | endChunk : inReady s = true → s.mode = .chunk →
      Effect s .endToken (respond .done (closeJob (markEoj (endChunks s))))
  | endImgdata : inReady s = true → s.mode = .imgdata →
      Effect s .endToken (respond .done (closeJob (markEoj (endChunks
        (throughChunker (lzwEnd s.lzw).2 (setLzw (lzwEnd s.lzw).1 s))))))
  | popped (e : Entry) (q : List Entry) : s.queue = e :: q →
      Effect s .pop (respond (.data (lanesOf (outWord e))) (setQueue q s))

/-- A flag command with a check on its operand writes RESULT or is refused (R131 to R133). -/
theorem effect_of_checked {i : Instr} {ok : Bool} {w : Word} {e : ErrCode} {s t : State} (hi : isFlagCommand i = true)
    (h : (if ok then complete (setResult w s) else refuse e s) = .next t) : Effect s i t := by
  cases ok with
  | true => exact complete_eq_next.1 h ▸ .result i w hi
  | false => exact refuse_eq_next.1 h ▸ .refused i e

/-- `exec` leads to nothing but the listed effects. -/
theorem exec_effect {i : Instr} {s t : State} (h : exec i s = .next t) : Effect s i t := by
  cases i with
  | nop => exact complete_eq_next.1 h ▸ .nothing _ (.inl rfl)
  | ctrlNone => exact complete_eq_next.1 h ▸ .nothing _ (.inr rfl)
  | packLsd plen cres sort => exact effect_of_checked rfl h
  | packImg plen ilace sort => exact effect_of_checked rfl h
  | packGce disp uin trn => exact effect_of_checked rfl h
  | unpackLsd b => exact complete_eq_next.1 h ▸ .result _ _ rfl
  | unpackImg b => exact complete_eq_next.1 h ▸ .result _ _ rfl
  | unpackGce b => exact complete_eq_next.1 h ▸ .result _ _ rfl
  | errclr => exact complete_eq_next.1 h ▸ .errclr
  | srst b => exact complete_eq_next.1 h ▸ .srst b
  | rdStatus => exact answer_eq_next.1 h ▸ .answered _ _ rfl
  | rdResult => exact answer_eq_next.1 h ▸ .answered _ _ rfl
  | rdCaps => exact answer_eq_next.1 h ▸ .answered _ _ rfl
  | lzwStart =>
    obtain ⟨e, -, rfl⟩ | ⟨hok, rfl⟩ := execLzwStart_next h
    · exact .refused _ e
    · exact .startLzw hok
  | chunkStart =>
    obtain ⟨e, -, rfl⟩ | ⟨hok, rfl⟩ := execChunkStart_next h
    · exact .refused _ e
    · exact .startChunk hok
  | imgdataStart =>
    obtain ⟨e, -, rfl⟩ | ⟨hok, rfl⟩ := execImgdataStart_next h
    · exact .refused _ e
    · exact .startImgdata hok
  | feed k =>
    obtain ⟨e, -, rfl⟩ | ⟨hok, hm, rfl⟩ | ⟨hok, hm, rfl⟩ | ⟨hok, hm, rfl⟩ := execFeed_next h
    · exact .refused _ e
    · exact .feedLzw k (tokenError_eq_none.1 hok) hm
    · exact .feedChunk k (tokenError_eq_none.1 hok) hm
    · exact .feedImgdata k (tokenError_eq_none.1 hok) hm
  | endToken =>
    obtain ⟨e, -, rfl⟩ | ⟨hok, hm, rfl⟩ | ⟨hok, hm, rfl⟩ | ⟨hok, hm, rfl⟩ := execEnd_next h
    · exact .refused _ e
    · exact .endLzw (tokenError_eq_none.1 hok) hm
    · exact .endChunk (tokenError_eq_none.1 hok) hm
    · exact .endImgdata (tokenError_eq_none.1 hok) hm
  | pop =>
    obtain ⟨-, rfl⟩ | ⟨e, q, hq, rfl⟩ := execPop_next h
    · exact .answered _ 0 rfl
    · exact .popped e q hq

/-- No operation touches the parameters or the events still at the port (R6, R70). -/
theorem Effect.cfg_port {i : Instr} {s t : State} (h : Effect s i t) : t.cfg = s.cfg ∧ t.port = s.port := by
  cases h <;> simp

end Sys2Proof.Machine

/-! ### The invariant of the block, operation by operation (10_state.md R39 to R42) -/

namespace Sys2Proof

open Machine

/-- The invariant says nothing about ERR, RESULT, the port and the bus response. -/
theorem Inv.registers {s : State} (h : Inv s) (e : Option ErrCode) (w : Word) (es : List Event) (r : Response) :
    Inv { s with err := e, result := w, port := es, resp := r } :=
  ⟨h.cfg, h.queue, h.mode, h.done, h.fresh, h.ended, h.lzw, h.cbuf⟩

theorem Inv.respond {s : State} (h : Inv s) (r : Response) : Inv (Machine.respond r s) := h.registers _ _ _ r

theorem Inv.setPort {s : State} (h : Inv s) (es : List Event) : Inv (Machine.setPort es s) := h.registers _ _ es _

theorem Inv.raiseErr {s : State} (h : Inv s) (e : ErrCode) : Inv (Machine.raiseErr e s) := by
  rw [raiseErr_eq]
  exact h.registers _ _ _ _

/-- The reset state of a legal block (R45). -/
theorem inv_resetWith {c : Config} (hc : c.Legal) : Inv (State.resetWith c) where
  cfg := hc
  queue := Nat.zero_le _
  mode := by simp [State.resetWith]
  done := by simp [State.resetWith]
  fresh _ := rfl
  ended := by simp [State.resetWith]
  lzw := fun ⟨hrun, _⟩ => nomatch hrun
  cbuf := fun ⟨hrun, _⟩ => nomatch hrun

/-- A reset leaves the block in the invariant (R350). -/
theorem Inv.softReset {s : State} (h : Inv s) : Inv (Machine.softReset s) := (inv_resetWith h.cfg).setPort _

/-- With a job running, the invariant is the bound of Q, DONE = 0 and the units the mode uses. -/
theorem inv_of_run {s : State} (hcfg : s.cfg.Legal) (hqueue : s.queue.length ≤ s.cfg.outqCap) (hphase : s.phase = .run)
    (hmode : s.mode ≠ .none) (hdone : s.done = false) (hlzw : usesLzw s → LzwInv s.lzw)
    (hcbuf : usesChunker s → s.cbuf.length ≤ 254) : Inv s where
  cfg := hcfg
  queue := hqueue
  mode _ := hmode
  done := by simp [hdone, hphase]
  fresh h := absurd h hmode
  ended h := by simp [hphase] at h
  lzw := hlzw
  cbuf := hcbuf

theorem Inv.done_of_run {s : State} (h : Inv s) (hphase : s.phase = .run) : s.done = false := by
  have hdone := h.done
  simpa [hphase] using hdone

theorem markLast_getLast {q : List Entry} : ∀ e ∈ (markLast q).getLast?, e.eoj = true := by
  cases q using List.reverseRecOn with
  | nil => simp [markLast]
  | append_singleton q e => simp [markLast_append_singleton]

/-- Closing a job needs only that its output fits Q: the mark makes the last entry its end (R255, R259). -/
theorem inv_closeJob_markEoj {s : State} (hcfg : s.cfg.Legal) (hqueue : s.queue.length ≤ s.cfg.outqCap)
    (hmode : s.mode ≠ .none) : Inv (closeJob (markEoj s)) where
  cfg := hcfg
  queue := by simpa using hqueue
  mode h := by simp at h
  done := by simpa using hmode
  fresh h := absurd h hmode
  ended _ := by simpa using markLast_getLast
  lzw := fun ⟨hrun, _⟩ => nomatch hrun
  cbuf := fun ⟨hrun, _⟩ => nomatch hrun

/-- Taking the head off Q keeps the last entry, if there is one left (R257). -/
theorem Inv.setQueue_tail {s : State} {e : Entry} {q : List Entry} (h : Inv s) (hq : s.queue = e :: q) :
    Inv (setQueue q s) where
  cfg := h.cfg
  queue := by
    have hlen := h.queue
    rw [hq, List.length_cons] at hlen
    exact Nat.le_of_succ_le hlen
  mode := h.mode
  done := h.done
  fresh hm := by simp [h.fresh hm] at hq
  ended hp f hf := by
    have hlast := h.ended hp f
    rw [hq, List.getLast?_cons] at hlast
    exact hlast (by simp_all)
  lzw := h.lzw
  cbuf := h.cbuf

section
variable {s : State} (h : Inv s)
include h

/-- An accepted start opens a job with fresh units and at most one entry more in Q (R250 to R253). -/
theorem Inv.startLzw (hok : startError s = none) :
    Inv (push lzwInit.2 (setLzw lzwInit.1 (openJob .lzw s))) := by
  obtain ⟨-, hroom⟩ := startError_eq_none.1 hok
  refine inv_of_run h.cfg ?_ rfl (by simp) rfl (fun _ => lzwInv_lzwInit) (by simp)
  simpa [lzwInit_eq] using hroom

theorem Inv.startChunk (hok : startError s = none) : Inv (setCbuf [] (openJob .chunk s)) := by
  obtain ⟨-, hroom⟩ := startError_eq_none.1 hok
  exact inv_of_run h.cfg hroom.le rfl (by simp) rfl (by simp) (by simp)

theorem Inv.startImgdata (hok : startError s = none) :
    Inv (throughChunker lzwInit.2 (setLzw lzwInit.1 (setCbuf [] (push [0x08] (openJob .imgdata s))))) := by
  obtain ⟨-, hroom⟩ := startError_eq_none.1 hok
  refine inv_of_run h.cfg ?_ rfl (by simp) rfl (fun _ => lzwInv_lzwInit) (fun _ => chunkBytes_cbuf_le (Nat.zero_le _))
  simpa [lzwInit_eq, chunkBytes, chunkByte] using hroom

variable (hready : inReady s = true)
include hready

/-- The engine of an accepted token in mode LZW or IMGDATA. -/
theorem Inv.lzw_of_ready (hm : s.mode = .lzw ∨ s.mode = .imgdata) : LzwInv s.lzw :=
  h.lzw ⟨(inReady_iff.1 hready).1, hm⟩

/-- The CBUF of an accepted token in mode CHUNK or IMGDATA. -/
theorem Inv.cbuf_of_ready (hm : s.mode = .chunk ∨ s.mode = .imgdata) : s.cbuf.length ≤ 254 :=
  h.cbuf ⟨(inReady_iff.1 hready).1, hm⟩

theorem Inv.feedLzw (k : Byte) (hm : s.mode = .lzw) :
    Inv (push (lzwByte k s.lzw).2 (setLzw (lzwByte k s.lzw).1 s)) := by
  obtain ⟨hphase, hroom⟩ := inReady_iff.1 hready
  have hz := h.lzw_of_ready hready (.inl hm)
  have hsunk := hz.lzwByte_length_le k
  refine inv_of_run h.cfg ?_ hphase (by simp [hm]) (h.done_of_run hphase) (fun _ => hz.lzwByte k) (by simp [hm])
  rw [push_queue_length, push_cfg, setLzw_queue, setLzw_cfg]
  omega

theorem Inv.feedChunk (k : Byte) (hm : s.mode = .chunk) : Inv (throughChunker [k] s) := by
  obtain ⟨hphase, hroom⟩ := inReady_iff.1 hready
  have hc := h.cbuf_of_ready hready (.inl hm)
  have hsent := chunkBytes_sent_le (x := [k]) hc (by simp)
  refine inv_of_run h.cfg ?_ hphase (by simp [hm]) (h.done_of_run hphase) (by simp [hm])
    (fun _ => chunkBytes_cbuf_le hc)
  rw [throughChunker_queue_length, throughChunker_cfg]
  omega

theorem Inv.feedImgdata (k : Byte) (hm : s.mode = .imgdata) :
    Inv (throughChunker (lzwByte k s.lzw).2 (setLzw (lzwByte k s.lzw).1 s)) := by
  obtain ⟨hphase, hroom⟩ := inReady_iff.1 hready
  have hz := h.lzw_of_ready hready (.inr hm)
  have hc := h.cbuf_of_ready hready (.inr hm)
  have hsunk := hz.lzwByte_length_le k
  have hsent := chunkBytes_sent_le (x := (lzwByte k s.lzw).2) hc (by omega)
  refine inv_of_run h.cfg ?_ hphase (by simp [hm]) (h.done_of_run hphase) (fun _ => hz.lzwByte k)
    (fun _ => chunkBytes_cbuf_le hc)
  rw [throughChunker_queue_length, throughChunker_cfg, setLzw_queue, setLzw_cbuf, setLzw_cfg]
  omega

theorem Inv.endLzw (hm : s.mode = .lzw) :
    Inv (closeJob (markEoj (push (lzwEnd s.lzw).2 (setLzw (lzwEnd s.lzw).1 s)))) := by
  obtain ⟨-, hroom⟩ := inReady_iff.1 hready
  obtain ⟨-, hsunk⟩ := (h.lzw_of_ready hready (.inl hm)).lzwEnd_length
  refine inv_closeJob_markEoj h.cfg ?_ (by simp [hm])
  rw [push_queue_length, push_cfg, setLzw_queue, setLzw_cfg]
  omega

theorem Inv.endChunk (hm : s.mode = .chunk) : Inv (closeJob (markEoj (endChunks s))) := by
  obtain ⟨-, hroom⟩ := inReady_iff.1 hready
  have hsent := chunkBytes_chunkEnd_length_le (x := []) (h.cbuf_of_ready hready (.inl hm)) (by simp)
  refine inv_closeJob_markEoj h.cfg ?_ (by simp [hm])
  rw [endChunks_queue_length, endChunks_cfg]
  simp only [chunkBytes, List.length_nil] at hsent
  omega

theorem Inv.endImgdata (hm : s.mode = .imgdata) :
    Inv (closeJob (markEoj (endChunks (throughChunker (lzwEnd s.lzw).2 (setLzw (lzwEnd s.lzw).1 s))))) := by
  obtain ⟨-, hroom⟩ := inReady_iff.1 hready
  obtain ⟨-, hsunk⟩ := (h.lzw_of_ready hready (.inr hm)).lzwEnd_length
  have hsent := chunkBytes_chunkEnd_length_le (h.cbuf_of_ready hready (.inr hm)) hsunk
  refine inv_closeJob_markEoj h.cfg ?_ (by simp [hm])
  rw [endChunks_queue_length, throughChunker_queue_length, throughChunker_cbuf, endChunks_cfg, throughChunker_cfg,
    setLzw_queue, setLzw_cbuf, setLzw_cfg]
  omega

end

/-- Every operation keeps the invariant. -/
theorem Inv.effect {i : Instr} {s t : State} (h : Inv s) (he : Effect s i t) : Inv t := by
  cases he with
  | nothing => exact h.respond _
  | answered => exact h.respond _
  | refused _ e => exact (h.raiseErr e).respond _
  | result => exact h.registers _ _ _ _
  | errclr => exact h.registers _ _ _ _
  | srst => exact h.softReset.respond _
  | startLzw hok => exact (h.startLzw hok).respond _
  | startChunk hok => exact (h.startChunk hok).respond _
  | startImgdata hok => exact (h.startImgdata hok).respond _
  | feedLzw k hready hm => exact (h.feedLzw hready k hm).respond _
  | feedChunk k hready hm => exact (h.feedChunk hready k hm).respond _
  | feedImgdata k hready hm => exact (h.feedImgdata hready k hm).respond _
  | endLzw hready hm => exact (h.endLzw hready hm).respond _
  | endChunk hready hm => exact (h.endChunk hready hm).respond _
  | endImgdata hready hm => exact (h.endImgdata hready hm).respond _
  | popped e q hq => exact (h.setQueue_tail hq).respond _

/-- Every access keeps the invariant, a refused one and a bus error included (R64, R313). -/
theorem Inv.serveAccess {a : Access} {s t : State} (h : Inv s) (ht : Machine.serveAccess a s = .next t) : Inv t := by
  obtain ⟨i, -, hexec⟩ | ⟨-, rfl⟩ | ⟨-, rfl⟩ | ⟨-, rfl⟩ := serveAccess_next ht
  · exact h.effect (exec_effect hexec)
  · exact (h.raiseErr .opc).respond _
  · exact (h.raiseErr .rsvd).respond _
  · exact h.respond _

/-- Settles O47, by the effects of an operation: each keeps the bounds of the queue and of the units its job uses. -/
theorem everyStepKeepsTheInvariant : Obligations.EveryStepKeepsTheInvariant := by
  intro s t h hstep
  obtain ⟨-, rfl⟩ | ⟨rest, -, rfl⟩ | ⟨a, rest, -, hserve⟩ := step_next hstep
  · exact h
  · exact (h.setPort rest).softReset.respond _
  · exact (h.setPort rest).serveAccess hserve

end Sys2Proof
end

section
/-! ### What a step answers -/

namespace Sys2Proof

open Machine

theorem decodeCmd_ne_outside (w : Word) : decodeCmd w ≠ .outside := by
  unfold decodeCmd
  split
  · simp
  · split <;> simp

theorem decodeIn_ne_outside (w : Word) : decodeIn w ≠ .outside := by
  unfold decodeIn
  split
  · simp
  · split <;> simp

theorem decodeCtrl_ne_outside (w : Word) : decodeCtrl w ≠ .outside := by
  unfold decodeCtrl
  split
  · simp
  · split
    · simp
    · split <;> simp

theorem decodeWrite_ne_outside (r : Reg) (w : Word) : decodeWrite r w ≠ .outside := by
  cases r with
  | cmd => exact decodeCmd_ne_outside w
  | inp => exact decodeIn_ne_outside w
  | ctrl => exact decodeCtrl_ne_outside w
  | status | result | out | caps => simp [decodeWrite]

theorem decodeRead_ne_outside (r : Reg) : decodeRead r ≠ .outside := by cases r <;> simp [decodeRead]

/-- Whatever an access inside the window spells, it is not outside. -/
theorem decodeWindow_ne_outside (off : Nat) (x : Xfer) : decodeWindow off x ≠ .outside := by
  unfold decodeWindow
  split
  · simp
  · split
    · simp
    · cases regAt off with
      | none => simp
      | some r => cases x with
        | read n => exact decodeRead_ne_outside r
        | write lanes => exact decodeWrite_ne_outside r _

/-- Only an address outside the window decodes to `outside` (R61). -/
theorem decodeAccess_eq_outside {base : Nat} {a : Access} (h : decodeAccess base a = .outside) :
    a.addr < base ∨ base + 32 ≤ a.addr := by
  unfold decodeAccess at h
  split at h
  · assumption
  · exact absurd h (decodeWindow_ne_outside _ _)

theorem step_access {s : State} {a : Access} {rest : List Event} (hp : s.port = .access a :: rest) :
    step s = serveAccess a (setPort rest s) := by
  simp [step, serveNext, serveEvent, hp]

theorem serveAccess_instr {a : Access} {s : State} {i : Instr} (h : decodeAccess s.cfg.base a = .instr i) :
    serveAccess a s = exec i s := by
  simp [serveAccess, h]

/-- A token of a block whose running job has a mode is refused or accepted (R254). -/
theorem execFeed_answers {s : State} (hmode : s.phase = .run → s.mode ≠ .none) (k : Byte) :
    ∃ t, execFeed k s = .next t := by
  cases hok : tokenError s with
  | some e => simp [execFeed, hok]
  | none =>
    have hm := hmode (inReady_iff.1 (tokenError_eq_none.1 hok)).1
    cases hs : s.mode with
    | none => exact absurd hs hm
    | lzw | chunk | imgdata => simp [execFeed, acceptByte, hok, hs]

/-- The same of END (R255). -/
theorem execEnd_answers {s : State} (hmode : s.phase = .run → s.mode ≠ .none) : ∃ t, execEnd s = .next t := by
  cases hok : tokenError s with
  | some e => simp [execEnd, hok]
  | none =>
    have hm := hmode (inReady_iff.1 (tokenError_eq_none.1 hok)).1
    cases hs : s.mode with
    | none => exact absurd hs hm
    | lzw | chunk | imgdata => simp [execEnd, acceptEnd, hok, hs]

/-- Where a running job has a mode, every operation answers a next state (R10, R315). -/
theorem exec_answers {s : State} (hmode : s.phase = .run → s.mode ≠ .none) (i : Instr) : ∃ t, exec i s = .next t := by
  cases i with
  | feed k => exact execFeed_answers hmode k
  | endToken => exact execEnd_answers hmode
  | lzwStart | chunkStart | imgdataStart =>
    cases hs : startError s <;> simp [exec, execLzwStart, execChunkStart, execImgdataStart, hs]
  | packLsd plen | packImg plen => cases hok : plenOk plen <;> simp [exec, execPackLsd, execPackImg, hok]
  | packGce disp => cases hok : dispOk disp <;> simp [exec, execPackGce, hok]
  | pop => cases hq : s.queue <;> simp [exec, execPop, hq]
  | nop | unpackLsd | unpackImg | unpackGce | ctrlNone | srst | errclr | rdStatus | rdResult | rdCaps => exact ⟨_, rfl⟩

/-- An access to a block whose running job has a mode answers, unless it is outside the window (R61, R64). -/
theorem serveAccess_answers {s : State} (hmode : s.phase = .run → s.mode ≠ .none) (a : Access) :
    (∃ t, serveAccess a s = .next t) ∨
      (decodeAccess s.cfg.base a = .outside ∧ serveAccess a s = .refused .outsideWindow) := by
  cases hd : decodeAccess s.cfg.base a with
  | instr i =>
    rw [serveAccess_instr hd]
    exact .inl (exec_answers hmode i)
  | badOpcode | reservedBits | busError => exact .inl (by simp [serveAccess, hd])
  | outside => exact .inr ⟨rfl, by simp [serveAccess, hd]⟩

/-- Settles O48: of what an access can spell only `outside` stops the model, and an operation faults in no state of the
invariant, as a running job has a mode there. -/
theorem invariantStatesNeverFault : Obligations.InvariantStatesNeverFault := by
  intro s h
  cases hp : s.port with
  | nil => exact .inl ⟨s, by simp [step, serveNext, hp]⟩
  | cons e rest => cases e with
    | reset => exact .inl (by simp [step, serveNext, serveEvent, hp])
    | access a =>
      rw [step_access hp]
      obtain hnext | ⟨hout, href⟩ := serveAccess_answers (s := setPort rest s) h.mode a
      · exact .inl hnext
      · exact .inr ⟨a, rest, rfl, decodeAccess_eq_outside hout, href⟩

/-- An access leaves the parameters and the rest of the port alone. -/
theorem serveAccess_cfg_port {a : Access} {s t : State} (h : serveAccess a s = .next t) :
    t.cfg = s.cfg ∧ t.port = s.port := by
  obtain ⟨i, -, hexec⟩ | ⟨-, rfl⟩ | ⟨-, rfl⟩ | ⟨-, rfl⟩ := serveAccess_next h
  · exact (exec_effect hexec).cfg_port
  all_goals simp

/-- Settles O50: the step takes the event, and what the event does touches neither the parameters nor the port. -/
theorem stepTakesOneEvent : Obligations.StepTakesOneEvent := by
  intro s t h
  obtain ⟨hp, rfl⟩ | ⟨rest, hp, rfl⟩ | ⟨a, rest, hp, hserve⟩ := step_next h
  · simp [hp]
  · simp [hp, hardReset]
  · simpa [hp] using serveAccess_cfg_port hserve

/-- Settles O5: the step serves the access, and serving it is the decoded operation. -/
theorem stepRunsDecodedInstruction : Obligations.StepRunsDecodedInstruction := by
  intro s a rest i hp hd
  rw [step_access hp, serveAccess_instr (s := setPort rest s) hd]
  rfl

/-- Settles O46: the invariant holds field by field in the reset state. -/
theorem invariantHoldsAtReset : Obligations.InvariantHoldsAtReset := fun _ hc => inv_resetWith hc

end Sys2Proof
end

section
/-! Proofs of the state family: what the host can see of the engine state, who writes each element, and the resets. -/

/-! ### Engine state that no running job uses (10_state.md R43, 41_lzw.md R186) -/

namespace Sys2Proof

open Machine

/-- Two outcomes that a host cannot tell apart: next states it cannot tell apart, or the same stop. -/
def EndAlike (r q : Result) : Prop :=
  (∃ s' t', r = .next s' ∧ q = .next t' ∧ SameToHost s' t') ∨
  (∃ f, r = .fault f ∧ q = .fault f) ∨
  (∃ f, r = .refused f ∧ q = .refused f)

/-- A host cannot tell a state from itself. -/
theorem SameToHost.refl (s : State) : SameToHost s s :=
  ⟨rfl, rfl, rfl, rfl, rfl, rfl, rfl, rfl, rfl, fun _ => rfl, fun _ => rfl⟩

theorem EndAlike.next {s t : State} (h : SameToHost s t) : EndAlike (.next s) (.next t) := .inl ⟨s, t, rfl, rfl, h⟩

theorem EndAlike.fault (f : Fault) : EndAlike (.fault f) (.fault f) := .inr (.inl ⟨f, rfl, rfl⟩)

theorem EndAlike.refused (f : Refusal) : EndAlike (.refused f) (.refused f) := .inr (.inr ⟨f, rfl, rfl⟩)

section
variable {s t : State} (h : SameToHost s t)
include h

/-! What the host reads and what the checks test is outside the engine state. -/

theorem SameToHost.hasRoom_eq : hasRoom s = hasRoom t := by simp only [hasRoom, h.queue, h.cfg]

theorem SameToHost.statusWord_eq : statusWord s = statusWord t := by
  simp only [statusWord, inReady, outValid, busy, h.hasRoom_eq, h.queue, h.mode, h.err, h.done, h.phase]

theorem SameToHost.startError_eq : startError s = startError t := by simp only [startError, h.phase, h.queue, h.cfg]

theorem SameToHost.tokenError_eq : tokenError s = tokenError t := by simp only [tokenError, h.phase, h.hasRoom_eq]

/-! The named updates of the state keep the relation. -/

theorem SameToHost.respond (r : Response) : SameToHost (Machine.respond r s) (Machine.respond r t) :=
  { h with resp := rfl }

theorem SameToHost.setPort (es : List Event) : SameToHost (Machine.setPort es s) (Machine.setPort es t) :=
  { h with port := rfl }

theorem SameToHost.setResult (w : Word) : SameToHost (Machine.setResult w s) (Machine.setResult w t) :=
  { h with result := rfl }

theorem SameToHost.clearErr : SameToHost (Machine.clearErr s) (Machine.clearErr t) := { h with err := rfl }

theorem SameToHost.raiseErr (e : ErrCode) : SameToHost (Machine.raiseErr e s) (Machine.raiseErr e t) := by
  rw [raiseErr_eq e s, raiseErr_eq e t]
  exact { h with err := by simp only [Machine.raiseErr, h.err]; split <;> simp [h.err] }

theorem SameToHost.setQueue (q : List Entry) : SameToHost (Machine.setQueue q s) (Machine.setQueue q t) :=
  { h with queue := rfl }

theorem SameToHost.push (bs : List Byte) : SameToHost (Machine.push bs s) (Machine.push bs t) :=
  { h with queue := by simp [h.queue] }

theorem SameToHost.markEoj : SameToHost (Machine.markEoj s) (Machine.markEoj t) :=
  { h with queue := by simp [h.queue] }

theorem SameToHost.setLzw (z : Lzw) : SameToHost (Machine.setLzw z s) (Machine.setLzw z t) :=
  { h with lzw := fun _ => rfl }

theorem SameToHost.setCbuf (c : List Byte) : SameToHost (Machine.setCbuf c s) (Machine.setCbuf c t) :=
  { h with cbuf := fun _ => rfl }

theorem SameToHost.throughChunker (hc : s.cbuf = t.cbuf) (bs : List Byte) :
    SameToHost (Machine.throughChunker bs s) (Machine.throughChunker bs t) := by
  unfold Machine.throughChunker
  rw [← hc]
  exact (h.setCbuf _).push _

theorem SameToHost.endChunks (hc : s.cbuf = t.cbuf) : SameToHost (Machine.endChunks s) (Machine.endChunks t) := by
  unfold Machine.endChunks
  rw [← hc]
  exact (h.push _).setCbuf _

/-- Opening a job asks for agreement on the units its mode uses. -/
theorem SameToHost.openJob (m : Mode) (hlzw : m = .lzw ∨ m = .imgdata → s.lzw = t.lzw)
    (hcbuf : m = .chunk ∨ m = .imgdata → s.cbuf = t.cbuf) :
    SameToHost (Machine.openJob m s) (Machine.openJob m t) :=
  { h with phase := rfl, mode := rfl, done := rfl, lzw := fun hu => hlzw hu.2, cbuf := fun hu => hcbuf hu.2 }

/-- With the job closed the engine state is free. -/
theorem SameToHost.closeJob : SameToHost (Machine.closeJob s) (Machine.closeJob t) :=
  { h with
    phase := rfl
    done := rfl
    lzw := fun ⟨hrun, _⟩ => nomatch hrun
    cbuf := fun ⟨hrun, _⟩ => nomatch hrun }

/-- A reset sets every field but the parameters and the port (R45). -/
theorem SameToHost.softReset : SameToHost (Machine.softReset s) (Machine.softReset t) := by
  unfold Machine.softReset
  rw [← h.port, ← h.cfg]
  exact .refl _

theorem SameToHost.complete : EndAlike (Machine.complete s) (Machine.complete t) := .next (h.respond _)

theorem SameToHost.answer (w : Word) : EndAlike (Machine.answer w s) (Machine.answer w t) := .next (h.respond _)

theorem SameToHost.refuse (e : ErrCode) : EndAlike (Machine.refuse e s) (Machine.refuse e t) := (h.raiseErr e).complete

/-- A flag command with a check on its operand (R131 to R133). -/
theorem SameToHost.checked (ok : Bool) (w : Word) (e : ErrCode) :
    EndAlike (if ok then Machine.complete (Machine.setResult w s) else Machine.refuse e s)
      (if ok then Machine.complete (Machine.setResult w t) else Machine.refuse e t) := by
  cases ok with
  | true => exact (h.setResult w).complete
  | false => exact h.refuse e

/-! A start sets the units its job uses, so what they held before is not observed (R186). -/

theorem SameToHost.execLzwStart : EndAlike (Machine.execLzwStart s) (Machine.execLzwStart t) := by
  unfold Machine.execLzwStart
  rw [← h.startError_eq]
  cases startError s with
  | some e => exact h.refuse e
  | none => exact (((h.setLzw lzwInit.1).openJob .lzw (fun _ => rfl) (by simp)).push lzwInit.2).complete

theorem SameToHost.execChunkStart : EndAlike (Machine.execChunkStart s) (Machine.execChunkStart t) := by
  unfold Machine.execChunkStart
  rw [← h.startError_eq]
  cases startError s with
  | some e => exact h.refuse e
  | none => exact ((h.setCbuf []).openJob .chunk (by simp) (fun _ => rfl)).complete

theorem SameToHost.execImgdataStart : EndAlike (Machine.execImgdataStart s) (Machine.execImgdataStart t) := by
  unfold Machine.execImgdataStart
  rw [← h.startError_eq]
  cases startError s with
  | some e => exact h.refuse e
  | none =>
    have hopen := ((h.setLzw lzwInit.1).setCbuf []).openJob .imgdata (fun _ => rfl) (fun _ => rfl)
    exact ((hopen.push [0x08]).throughChunker rfl lzwInit.2).complete

/-! A token uses only the units of the running job's mode, on which the states agree. -/

theorem SameToHost.acceptByte (hrun : s.phase = .run) (k : Byte) :
    EndAlike (Machine.acceptByte k s) (Machine.acceptByte k t) := by
  unfold Machine.acceptByte
  rw [← h.mode]
  cases hm : s.mode with
  | none => exact .fault _
  | lzw =>
    rw [← h.lzw ⟨hrun, .inl hm⟩]
    exact ((h.setLzw _).push _).complete
  | chunk => exact (h.throughChunker (h.cbuf ⟨hrun, .inl hm⟩) _).complete
  | imgdata =>
    rw [← h.lzw ⟨hrun, .inr hm⟩]
    exact ((h.setLzw (lzwByte k s.lzw).1).throughChunker (h.cbuf ⟨hrun, .inr hm⟩) _).complete

theorem SameToHost.acceptEnd (hrun : s.phase = .run) : EndAlike (Machine.acceptEnd s) (Machine.acceptEnd t) := by
  unfold Machine.acceptEnd
  rw [← h.mode]
  cases hm : s.mode with
  | none => exact .fault _
  | lzw =>
    rw [← h.lzw ⟨hrun, .inl hm⟩]
    exact ((h.setLzw _).push _).markEoj.closeJob.complete
  | chunk => exact (h.endChunks (h.cbuf ⟨hrun, .inl hm⟩)).markEoj.closeJob.complete
  | imgdata =>
    have hc := h.cbuf ⟨hrun, .inr hm⟩
    rw [← h.lzw ⟨hrun, .inr hm⟩]
    have hsunk := (h.setLzw (lzwEnd s.lzw).1).throughChunker hc (lzwEnd s.lzw).2
    exact (hsunk.endChunks (by simp [hc])).markEoj.closeJob.complete

theorem SameToHost.execFeed (k : Byte) : EndAlike (Machine.execFeed k s) (Machine.execFeed k t) := by
  unfold Machine.execFeed
  rw [← h.tokenError_eq]
  cases hok : tokenError s with
  | some e => exact h.refuse e
  | none => exact h.acceptByte (inReady_iff.1 (tokenError_eq_none.1 hok)).1 k

theorem SameToHost.execEnd : EndAlike (Machine.execEnd s) (Machine.execEnd t) := by
  unfold Machine.execEnd
  rw [← h.tokenError_eq]
  cases hok : tokenError s with
  | some e => exact h.refuse e
  | none => exact h.acceptEnd (inReady_iff.1 (tokenError_eq_none.1 hok)).1

theorem SameToHost.execPop : EndAlike (Machine.execPop s) (Machine.execPop t) := by
  unfold Machine.execPop
  rw [← h.queue]
  cases s.queue with
  | nil => exact h.answer 0
  | cons e q => exact (h.setQueue q).answer (outWord e)

/-- Every operation ends alike on states that the host cannot tell apart. -/
theorem SameToHost.exec (i : Instr) : EndAlike (Machine.exec i s) (Machine.exec i t) := by
  cases i with
  | nop | ctrlNone => exact h.complete
  | packLsd | packImg | packGce => exact h.checked _ _ _
  | unpackLsd | unpackImg | unpackGce => exact (h.setResult _).complete
  | lzwStart => exact h.execLzwStart
  | chunkStart => exact h.execChunkStart
  | imgdataStart => exact h.execImgdataStart
  | feed k => exact h.execFeed k
  | endToken => exact h.execEnd
  | pop => exact h.execPop
  | errclr => exact h.clearErr.complete
  | srst => exact h.softReset.complete
  | rdStatus =>
    simp only [Machine.exec, execRdStatus, ← h.statusWord_eq]
    exact h.answer _
  | rdResult =>
    simp only [Machine.exec, execRdResult, ← h.result]
    exact h.answer _
  | rdCaps =>
    simp only [Machine.exec, execRdCaps, ← h.cfg]
    exact h.answer _

/-- What an access spells depends on BASE only, so both states serve it the same way (R61). -/
theorem SameToHost.serveAccess (a : Access) : EndAlike (Machine.serveAccess a s) (Machine.serveAccess a t) := by
  unfold Machine.serveAccess
  rw [← h.cfg]
  cases decodeAccess s.cfg.base a with
  | instr i => exact h.exec i
  | badOpcode | reservedBits => exact h.refuse _
  | busError => exact .next (h.respond _)
  | outside => exact .refused _

end

end Sys2Proof
end

section
/-! ### The statements of the state family -/

namespace Sys2Proof

open Machine

/-- Settles O51, by the relation kept through every operation: a start overwrites the units it will use, a token reads only
the units on which the states agree, and nothing else reads the engine. -/
theorem idleEngineStateIsUnobservable : Obligations.IdleEngineStateIsUnobservable := by
  intro s t h
  show EndAlike (step s) (step t)
  unfold step serveNext
  rw [← h.port]
  cases s.port with
  | nil => exact .next h
  | cons e rest => cases e with
    | access a => exact (h.setPort rest).serveAccess a
    | reset => exact .next ((h.setPort rest).softReset.respond _)

/-- After a data byte there is always a match in progress (R175). -/
theorem lzwByte_cur_ne_none (k : Byte) (z : Lzw) : (lzwByte k z).1.cur ≠ none := by
  unfold lzwByte
  split
  · simp
  · split <;> simp

/-- Settles O24: `lzw_init` leaves an empty canonical dictionary, and each case of `lzw_byte` keeps the invariant. -/
theorem lzwByteKeepsTheEngineInvariant : Obligations.LzwByteKeepsTheEngineInvariant :=
  ⟨lzwInv_lzwInit, fun z k hz => ⟨hz.lzwByte k, lzwByte_cur_ne_none k z⟩⟩

section
variable (bs : List Byte) (s : State)

@[simp] theorem throughChunker_err : (throughChunker bs s).err = s.err := rfl
@[simp] theorem throughChunker_result : (throughChunker bs s).result = s.result := rfl
@[simp] theorem endChunks_err : (endChunks s).err = s.err := rfl
@[simp] theorem endChunks_result : (endChunks s).result = s.result := rfl
@[simp] theorem endChunks_lzw : (endChunks s).lzw = s.lzw := rfl

end

/-- An error is recorded only where none was (R311). -/
theorem raiseErr_err_ne {e : ErrCode} {s : State} (h : (raiseErr e s).err ≠ s.err) : s.err = none := by
  by_contra hne
  exact h (by rw [raiseErr_of_ne_none hne])

/-- Settles O49, by the effects of an operation: each names the updates it makes, a refusal only ERR where none was recorded,
and a token is accepted only with a job running, so its mode tells which units it writes. -/
theorem onlyTheListedOperationsWrite : Obligations.OnlyTheListedOperationsWrite := by
  intro i s t h
  cases exec_effect h with
  | nothing | answered | errclr | popped => simp
  | refused _ e => simpa using fun herr => .inl (raiseErr_err_ne herr)
  | result _ w hflag => simp [hflag]
  | srst => simp [isSoftReset]
  | startLzw | startChunk | startImgdata => simp [isStart]
  | feedLzw k hready hm | feedChunk k hready hm | feedImgdata k hready hm =>
    have hrun := (inReady_iff.1 hready).1
    simp [usesLzw, usesChunker, hrun, hm]
  | endLzw hready hm | endChunk hready hm | endImgdata hready hm =>
    have hrun := (inReady_iff.1 hready).1
    simp [usesLzw, usesChunker, hrun, hm]

/-- Settles O45: both resets give the reset state of the block's parameters with the port kept (log 14); the response after
RST is the model's own (log 3). -/
theorem resetsClearTheBlock : Obligations.ResetsClearTheBlock := by
  refine ⟨fun b s => ⟨Lzw.blank, [], rfl⟩, fun s rest hp => ⟨Lzw.blank, [], ?_⟩, by decide, rfl, rfl, rfl⟩
  simp only [step, serveNext, hp]
  rfl

end Sys2Proof
end

section
/-! Proofs of the memory family: what the window accepts, what a bus error does, and the byte lanes. -/

/-! ### Which accesses are bus errors (20_memory.md R62 to R66) -/

namespace Sys2Proof

open Machine

/-- The accesses of R62 to R66: another width than 4, a misaligned offset, the reserved offset, a write of a read-only
register, a read of a write-only one. -/
def RejectedByWindow (off : Nat) (x : Xfer) : Prop :=
  xferWidth x ≠ 4 ∨ off % 4 ≠ 0 ∨ off = 0x1C ∨
    ((∃ ls, x = .write ls) ∧ off ∈ [0x04, 0x08, 0x10, 0x18]) ∨
    ((∃ n, x = .read n) ∧ off ∈ [0x00, 0x0C, 0x14])

theorem decodeCmd_ne_busError (w : Word) : decodeCmd w ≠ .busError := by
  unfold decodeCmd
  split
  · simp
  · split <;> simp

theorem decodeIn_ne_busError (w : Word) : decodeIn w ≠ .busError := by
  unfold decodeIn
  split_ifs <;> simp

theorem decodeCtrl_ne_busError (w : Word) : decodeCtrl w ≠ .busError := by
  unfold decodeCtrl
  split_ifs <;> simp

/-- A write is a bus error at the read-only registers, whatever its word (R66). -/
theorem decodeWrite_eq_busError {r : Reg} {w : Word} :
    decodeWrite r w = .busError ↔ offsetOf r ∈ [0x04, 0x08, 0x10, 0x18] := by
  cases r with
  | cmd => simp [decodeWrite, decodeCmd_ne_busError, offsetOf]
  | inp => simp [decodeWrite, decodeIn_ne_busError, offsetOf]
  | ctrl => simp [decodeWrite, decodeCtrl_ne_busError, offsetOf]
  | status | result | out | caps => simp [decodeWrite, offsetOf]

/-- A read is a bus error at the write-only registers (R66). -/
theorem decodeRead_eq_busError {r : Reg} : decodeRead r = .busError ↔ offsetOf r ∈ [0x00, 0x0C, 0x14] := by
  cases r <;> decide

/-- The aligned offsets of the window are the seven registers and the reserved word (R21, R37). -/
theorem aligned_offset_cases {off : Nat} (hlt : off < 32) (hal : off % 4 = 0) : off = 0x1C ∨ ∃ r, offsetOf r = off := by
  obtain rfl | rfl | rfl | rfl | rfl | rfl | rfl | rfl :
      off = 0x00 ∨ off = 0x04 ∨ off = 0x08 ∨ off = 0x0C ∨ off = 0x10 ∨ off = 0x14 ∨ off = 0x18 ∨ off = 0x1C := by omega
  · exact .inr ⟨.cmd, rfl⟩
  · exact .inr ⟨.status, rfl⟩
  · exact .inr ⟨.result, rfl⟩
  · exact .inr ⟨.inp, rfl⟩
  · exact .inr ⟨.out, rfl⟩
  · exact .inr ⟨.ctrl, rfl⟩
  · exact .inr ⟨.caps, rfl⟩
  · exact .inl rfl

theorem offsetOf_ne_reserved (r : Reg) : offsetOf r ≠ 0x1C := by cases r <;> decide

/-- Exactly the accesses of R62 to R66 decode to a bus error. -/
theorem decodeWindow_eq_busError {off : Nat} {x : Xfer} (hlt : off < 32) :
    decodeWindow off x = .busError ↔ RejectedByWindow off x := by
  by_cases hw : xferWidth x = 4
  · by_cases hal : off % 4 = 0
    · obtain rfl | ⟨r, rfl⟩ := aligned_offset_cases hlt hal
      · simp [decodeWindow, RejectedByWindow, regAt]
      · cases x with
        | read n => simp [decodeWindow, RejectedByWindow, hw, hal, offsetOf_ne_reserved, decodeRead_eq_busError]
        | write ls => simp [decodeWindow, RejectedByWindow, hw, hal, offsetOf_ne_reserved, decodeWrite_eq_busError]
    · simp [decodeWindow, RejectedByWindow, hal]
  · simp [decodeWindow, RejectedByWindow, hw]

/-- An address of the window is decoded by its offset (R61). -/
theorem decodeAccess_of_offset {base off : Nat} {a : Access} (haddr : a.addr = base + off) (hlt : off < 32) :
    decodeAccess base a = decodeWindow off a.xfer := by
  simp [decodeAccess, haddr, hlt]

/-- An address outside the window does not reach the block (R61). -/
theorem decodeAccess_of_outside {base : Nat} {a : Access} (h : a.addr < base ∨ base + 32 ≤ a.addr) :
    decodeAccess base a = .outside := if_pos h

end Sys2Proof

/-! ### What a bus error does (R64) -/

namespace Sys2Proof.Machine

/-- Every operation ends its access normally (R314). -/
theorem Effect.resp_ne_busError {i : Instr} {s t : State} (h : Effect s i t) : t.resp ≠ .busError := by
  cases h <;> simp

/-- Only an access that decodes to a bus error is answered by one (R64). -/
theorem decodeAccess_eq_busError_of_resp {a : Access} {s t : State} (h : serveAccess a s = .next t)
    (hresp : t.resp = .busError) : decodeAccess s.cfg.base a = .busError := by
  obtain ⟨i, -, hexec⟩ | ⟨-, rfl⟩ | ⟨-, rfl⟩ | ⟨hd, -⟩ := serveAccess_next h
  · exact absurd hresp (exec_effect hexec).resp_ne_busError
  · simp at hresp
  · simp at hresp
  · exact hd

end Sys2Proof.Machine

namespace Sys2Proof

open Machine

/-- Settles O7: an access of the window is a bus error exactly if it is rejected, and only a bus error answers as one. -/
theorem busErrorsChangeNothing : Obligations.BusErrorsChangeNothing := by
  intro s a off haddr hlt
  have hiff : decodeAccess s.cfg.base a = .busError ↔ RejectedByWindow off a.xfer := by
    rw [decodeAccess_of_offset haddr hlt, decodeWindow_eq_busError hlt]
  refine ⟨fun hrej => ?_, fun hacc t ht hresp => hacc (hiff.1 (decodeAccess_eq_busError_of_resp ht hresp))⟩
  simp [serveAccess, hiff.2 hrej, respond]

/-! ### Byte lanes (R67) -/

/-- The value of a word by its lanes: lane `j` weighs 256^j (R67). -/
theorem toNat_eq_lanes (w : Word) :
    w.toNat = (w.extractLsb 7 0).toNat + 256 * (w.extractLsb 15 8).toNat + 65536 * (w.extractLsb 23 16).toNat +
      16777216 * (w.extractLsb 31 24).toNat := by
  have hlt : w.toNat < 4294967296 := w.isLt
  simp only [BitVec.extractLsb_toNat, Nat.shiftRight_eq_div_pow]
  omega

/-- Settles O4, with the four slices of the word as its lanes. -/
theorem lanesAreLittleEndian : Obligations.LanesAreLittleEndian := fun w =>
  ⟨_, _, _, _, rfl, toNat_eq_lanes w, wordOfLanes_lanesOf w⟩

/-! ### The decoder and the port on given accesses -/

/-- Settles O1: twelve closed accesses, each decoded by evaluation. -/
theorem sampleAccessesDecode : Obligations.SampleAccessesDecode := by
  unfold Obligations.SampleAccessesDecode
  decide

/-- The block never acts on its own (R261). -/
theorem step_of_port_nil {s : State} (hp : s.port = []) : step s = .next s := by
  simp [step, serveNext, hp]

theorem serveAccess_of_outside {a : Access} {s : State} (h : a.addr < s.cfg.base ∨ s.cfg.base + 32 ≤ a.addr) :
    serveAccess a s = .refused .outsideWindow := by
  simp [serveAccess, decodeAccess_of_outside h]

/-- Settles O6: with no event the block waits, and the model refuses what the window does not cover. -/
theorem blockWaitsForItsHost : Obligations.BlockWaitsForItsHost := by
  refine ⟨fun s hp => step_of_port_nil hp, fun s a rest hp hout => ?_⟩
  rw [step_access hp]
  exact serveAccess_of_outside (s := setPort rest s) hout

end Sys2Proof
end

section
/-! Proofs of the encoding family: the decoder and the encoder are inverse to each other, illegal CMD words, and the host's
loops over the block. -/

/-! ### Fields of a word as numbers (00_scope.md R9, 30_encoding.md R99) -/

namespace Sys2Proof

open Machine

theorem toNat_append_eq_add {n m : Nat} (x : BitVec n) (y : BitVec m) :
    (x ++ y).toNat = x.toNat * 2 ^ m + y.toNat := by
  rw [BitVec.toNat_append, ← Nat.shiftLeft_add_eq_or_of_lt y.isLt, Nat.shiftLeft_eq]

theorem extractLsb_toNat_eq {n : Nat} (x : BitVec n) (hi lo : Nat) :
    (x.extractLsb hi lo).toNat = x.toNat / 2 ^ lo % 2 ^ (hi - lo + 1) := by
  rw [BitVec.extractLsb_toNat, Nat.shiftRight_eq_div_pow]

/-- A field is compared by its value, which turns a field picture into arithmetic. -/
theorem extractLsb_eq_iff {n hi lo : Nat} {x : BitVec n} {f : BitVec (hi - lo + 1)} :
    x.extractLsb hi lo = f ↔ x.toNat / 2 ^ lo % 2 ^ (hi - lo + 1) = f.toNat := by
  rw [← BitVec.toNat_inj, extractLsb_toNat_eq]

/-! ### CMD words (R91 to R95, R98, R101, R103) -/

/-- The lowest reserved bit of the CMD format an opcode selects (R91 to R95). -/
def reservedFrom (opc : Byte) : Nat :=
  if opc = 0x10 then 21 else if opc = 0x11 then 19 else if opc = 0x12 then 13
  else if opc ∈ [0x18, 0x19, 0x1A] then 16 else 8

/-- The map lists each opcode once, so a row is found by its opcode (R98). -/
theorem find_row : ∀ r ∈ opcodeMap, opcodeMap.find? (fun q => q.opc == r.opc) = some r := by
  simp only [opcodeMap, List.cons_append, List.nil_append, List.forall_mem_cons]
  exact ⟨rfl, rfl, rfl, rfl, rfl, rfl, rfl, rfl, rfl, rfl, by simp⟩

/-- The mask of a row covers OPC and the reserved bits, and its pattern is the opcode (R98). -/
theorem row_bits : ∀ r ∈ opcodeMap, ∀ j < 32,
    r.mask.getLsbD j = decide (j < 8 ∨ reservedFrom r.opc ≤ j) ∧
      r.pattern.getLsbD j = (decide (j < 8) && r.opc.getLsbD j) := by decide

theorem reservedFrom_ge : ∀ r ∈ opcodeMap, 8 ≤ reservedFrom r.opc := by decide

/-- The field of all bits from `n` on is 0 exactly if each of them is. -/
theorem extractLsb_top_eq_zero {w : Word} {n : Nat} :
    w.extractLsb 31 n = 0 ↔ ∀ j < 32, n ≤ j → w.getLsbD j = false := by
  constructor
  · intro h j hj hn
    have hbit := congrArg (fun x => x.getLsbD (j - n)) h
    simpa [BitVec.getLsbD_extractLsb, Nat.add_sub_cancel' hn, show j - n < 31 - n + 1 by omega] using hbit
  · intro h
    apply BitVec.eq_of_getLsbD_eq
    intro j hj
    by_cases hlt : n + j < 32
    · simp [h _ hlt (Nat.le_add_right n j)]
    · simp [BitVec.getLsbD_of_ge _ _ (Nat.le_of_not_lt hlt)]

/-- The mask test of a row sees exactly the reserved bits, once OPC has selected the row (R101, R103). -/
theorem maskTest_iff {r : OpRow} {w : Word} (hr : r ∈ opcodeMap) (hopc : opcOf w = r.opc) :
    w &&& r.mask = r.pattern ↔ w.extractLsb 31 (reservedFrom r.opc) = 0 := by
  have hlow (j : Nat) (hj : j < 8) : w.getLsbD j = r.opc.getLsbD j := by simp [← hopc, opcOf, hj]
  have hge := reservedFrom_ge r hr
  rw [extractLsb_top_eq_zero, BitVec.eq_of_getLsbD_eq_iff]
  refine forall₂_congr fun j hj => ?_
  obtain ⟨hmask, hpattern⟩ := row_bits r hr j hj
  rw [BitVec.getLsbD_and, hmask, hpattern]
  by_cases h8 : j < 8
  · simp [h8, hlow, show ¬ reservedFrom r.opc ≤ j by omega]
  · cases w.getLsbD j <;> simp [h8]

/-- A word of a listed opcode is its operation, or has a reserved bit set (R101, R103). -/
theorem decodeCmd_of_opcode {r : OpRow} {w : Word} (hr : r ∈ opcodeMap) (hopc : opcOf w = r.opc) :
    decodeCmd w = if w.extractLsb 31 (reservedFrom r.opc) = 0 then .instr (r.build w) else .reservedBits := by
  simp only [decodeCmd, hopc, find_row r hr, maskTest_iff hr hopc]

/-- A word whose OPC is in no row is no operation (R100). -/
theorem decodeCmd_of_no_row {w : Word} (h : ∀ r ∈ opcodeMap, r.opc ≠ opcOf w) : decodeCmd w = .badOpcode := by
  have hfind : opcodeMap.find? (fun r => r.opc == opcOf w) = none := by simpa using h
  simp only [decodeCmd, hfind]

/-- An operation comes from one row, by its opcode, with no reserved bit set (R103). -/
theorem decodeCmd_eq_instr {w : Word} {i : Instr} : decodeCmd w = .instr i ↔
    ∃ r ∈ opcodeMap, opcOf w = r.opc ∧ w.extractLsb 31 (reservedFrom r.opc) = 0 ∧ r.build w = i := by
  by_cases h : ∃ r ∈ opcodeMap, opcOf w = r.opc
  · obtain ⟨r, hr, hopc⟩ := h
    rw [decodeCmd_of_opcode hr hopc]
    constructor
    · intro hd
      split at hd
      · exact ⟨r, hr, hopc, ‹_›, Decoded.instr.inj hd⟩
      · cases hd
    · rintro ⟨q, hq, hopq, hres, rfl⟩
      obtain rfl : q = r := by simpa [← hopc, hopq, find_row q hq] using find_row r hr
      simp [hres]
  · rw [decodeCmd_of_no_row fun r hr heq => h ⟨r, hr, heq.symm⟩]
    simp only [reduceCtorEq, false_iff]
    rintro ⟨r, hr, hopc, -⟩
    exact h ⟨r, hr, hopc⟩

/-- A CMD word that decodes is the word its operation is encoded as: its fields, its opcode and zeros (R91 to R95). -/
theorem eq_encodeWord_of_row {r : OpRow} {w : Word} (hr : r ∈ opcodeMap) (hopc : opcOf w = r.opc)
    (hres : w.extractLsb 31 (reservedFrom r.opc) = 0) : w = encodeWord (r.build w) := by
  apply BitVec.eq_of_toNat_eq
  simp only [opcOf, extractLsb_eq_iff] at hopc hres
  simp only [opcodeMap, List.cons_append, List.nil_append, List.mem_cons, List.not_mem_nil, or_false] at hr
  rcases hr with rfl | rfl | rfl | rfl | rfl | rfl | rfl | rfl | rfl | rfl
  all_goals
    simp only [reservedFrom, List.mem_cons, BitVec.reduceEq, or_true, or_false, ↓reduceIte, BitVec.toNat_ofNat,
      BitVec.ofNat_eq_ofNat, List.not_mem_nil] at hopc hres
    simp only [encodeWord, toNat_append_eq_add, extractLsb_toNat_eq, BitVec.toNat_ofNat]
    omega

/-! Each field of an encoded word is read back from its place (R92 to R95, R99). -/

theorem packLsd_fields (plen : BitVec 9) (cres : BitVec 3) (sort : BitVec 1) :
    opcOf (encodeWord (.packLsd plen cres sort)) = 0x10#8 ∧
      (encodeWord (.packLsd plen cres sort)).extractLsb 31 21 = 0#11 ∧
      (encodeWord (.packLsd plen cres sort)).extractLsb 16 8 = plen ∧
      (encodeWord (.packLsd plen cres sort)).extractLsb 19 17 = cres ∧
      (encodeWord (.packLsd plen cres sort)).extractLsb 20 20 = sort := by
  simp only [opcOf, encodeWord, extractLsb_eq_iff, toNat_append_eq_add, BitVec.toNat_ofNat]
  omega

theorem packImg_fields (plen : BitVec 9) (ilace sort : BitVec 1) :
    opcOf (encodeWord (.packImg plen ilace sort)) = 0x11#8 ∧
      (encodeWord (.packImg plen ilace sort)).extractLsb 31 19 = 0#13 ∧
      (encodeWord (.packImg plen ilace sort)).extractLsb 16 8 = plen ∧
      (encodeWord (.packImg plen ilace sort)).extractLsb 17 17 = ilace ∧
      (encodeWord (.packImg plen ilace sort)).extractLsb 18 18 = sort := by
  simp only [opcOf, encodeWord, extractLsb_eq_iff, toNat_append_eq_add, BitVec.toNat_ofNat]
  omega

theorem packGce_fields (disp : BitVec 3) (uin trn : BitVec 1) :
    opcOf (encodeWord (.packGce disp uin trn)) = 0x12#8 ∧
      (encodeWord (.packGce disp uin trn)).extractLsb 31 13 = 0#19 ∧
      (encodeWord (.packGce disp uin trn)).extractLsb 10 8 = disp ∧
      (encodeWord (.packGce disp uin trn)).extractLsb 11 11 = uin ∧
      (encodeWord (.packGce disp uin trn)).extractLsb 12 12 = trn := by
  simp only [opcOf, encodeWord, extractLsb_eq_iff, toNat_append_eq_add, BitVec.toNat_ofNat]
  omega

/-- The format of the three UNPACK commands (R95). -/
theorem byteFormat_fields (b opc : Byte) :
    opcOf (0#16 ++ b ++ opc) = opc ∧ (0#16 ++ b ++ opc : Word).extractLsb 31 16 = 0#16 ∧
      (0#16 ++ b ++ opc : Word).extractLsb 15 8 = b := by
  simp only [opcOf, extractLsb_eq_iff, toNat_append_eq_add, BitVec.toNat_ofNat]
  omega

/-- The word of a command decodes to the command, with the row of its opcode (R98). -/
theorem decodeCmd_encodeWord {i : Instr} (hi : regOf i = .cmd) : decodeCmd (encodeWord i) = .instr i := by
  rw [decodeCmd_eq_instr]
  cases i with
  | nop => exact ⟨opcodeMap[0], List.getElem_mem _, by decide, by decide, rfl⟩
  | lzwStart => exact ⟨opcodeMap[7], List.getElem_mem _, by decide, by decide, rfl⟩
  | chunkStart => exact ⟨opcodeMap[8], List.getElem_mem _, by decide, by decide, rfl⟩
  | imgdataStart => exact ⟨opcodeMap[9], List.getElem_mem _, by decide, by decide, rfl⟩
  | packLsd plen cres sort =>
    obtain ⟨hopc, hres, hplen, hcres, hsort⟩ := packLsd_fields plen cres sort
    exact ⟨opcodeMap[1], List.getElem_mem _, hopc, hres, by simp [opcodeMap, hplen, hcres, hsort]⟩
  | packImg plen ilace sort =>
    obtain ⟨hopc, hres, hplen, hilace, hsort⟩ := packImg_fields plen ilace sort
    exact ⟨opcodeMap[2], List.getElem_mem _, hopc, hres, by simp [opcodeMap, hplen, hilace, hsort]⟩
  | packGce disp uin trn =>
    obtain ⟨hopc, hres, hdisp, huin, htrn⟩ := packGce_fields disp uin trn
    exact ⟨opcodeMap[3], List.getElem_mem _, hopc, hres, by simp [opcodeMap, hdisp, huin, htrn]⟩
  | unpackLsd b =>
    obtain ⟨hopc, hres, hb⟩ := byteFormat_fields b 0x18
    exact ⟨opcodeMap[4], List.getElem_mem _, hopc, hres, congrArg Instr.unpackLsd hb⟩
  | unpackImg b =>
    obtain ⟨hopc, hres, hb⟩ := byteFormat_fields b 0x19
    exact ⟨opcodeMap[5], List.getElem_mem _, hopc, hres, congrArg Instr.unpackImg hb⟩
  | unpackGce b =>
    obtain ⟨hopc, hres, hb⟩ := byteFormat_fields b 0x1A
    exact ⟨opcodeMap[6], List.getElem_mem _, hopc, hres, congrArg Instr.unpackGce hb⟩
  | feed | endToken | ctrlNone | srst | errclr | rdStatus | rdResult | pop | rdCaps => simp [regOf] at hi

/-- What the rows of the opcode map make is accessed through CMD (R98). -/
theorem regOf_row_build : ∀ r ∈ opcodeMap, ∀ w : Word, regOf (r.build w) = .cmd := by
  simp [opcodeMap, regOf]

/-- A CMD word decodes to a command exactly if it is the command's word. -/
theorem decodeCmd_eq_instr_iff {w : Word} {i : Instr} :
    decodeCmd w = .instr i ↔ regOf i = .cmd ∧ w = encodeWord i := by
  constructor
  · intro h
    obtain ⟨r, hr, hopc, hres, rfl⟩ := decodeCmd_eq_instr.1 h
    exact ⟨regOf_row_build r hr w, eq_encodeWord_of_row hr hopc hres⟩
  · rintro ⟨hi, rfl⟩
    exact decodeCmd_encodeWord hi

/-! ### IN and CTRL words (R96, R97) -/

theorem feed_fields (k : Byte) :
    (encodeWord (.feed k)).extractLsb 31 9 = 0#23 ∧ (encodeWord (.feed k)).extractLsb 8 8 = 0#1 ∧
      (encodeWord (.feed k)).extractLsb 7 0 = k := by
  simp only [encodeWord, extractLsb_eq_iff, toNat_append_eq_add, BitVec.toNat_ofNat]
  omega

theorem srst_fields (b : BitVec 1) :
    (encodeWord (.srst b)).extractLsb 31 2 = 0#30 ∧ (encodeWord (.srst b)).extractLsb 0 0 = 1#1 ∧
      (encodeWord (.srst b)).extractLsb 1 1 = b := by
  simp only [encodeWord, extractLsb_eq_iff, toNat_append_eq_add, BitVec.toNat_ofNat]
  omega

/-- An IN word decodes to a token exactly if it is the token's word (R96). -/
theorem decodeIn_eq_instr_iff {w : Word} {i : Instr} : decodeIn w = .instr i ↔ regOf i = .inp ∧ w = encodeWord i := by
  constructor
  · intro h
    unfold decodeIn at h
    split_ifs at h with hres hend
    all_goals
      cases h
      refine ⟨rfl, BitVec.eq_of_toNat_eq ?_⟩
      simp only [ne_eq, extractLsb_eq_iff, BitVec.ofNat_eq_ofNat, BitVec.toNat_ofNat] at hres hend
      simp only [encodeWord, toNat_append_eq_add, extractLsb_toNat_eq, BitVec.toNat_ofNat]
      omega
  · rintro ⟨hi, rfl⟩
    cases i with
    | endToken => decide
    | feed k =>
      obtain ⟨hres, hend, hk⟩ := feed_fields k
      simp [decodeIn, hres, hend, hk]
    | _ => simp [regOf] at hi

/-- A CTRL word decodes to a control operation exactly if it is the operation's word (R97). -/
theorem decodeCtrl_eq_instr_iff {w : Word} {i : Instr} :
    decodeCtrl w = .instr i ↔ regOf i = .ctrl ∧ w = encodeWord i := by
  constructor
  · intro h
    unfold decodeCtrl at h
    split_ifs at h with hres hsrst herrclr
    all_goals
      cases h
      refine ⟨rfl, BitVec.eq_of_toNat_eq ?_⟩
      simp only [ne_eq, extractLsb_eq_iff, BitVec.ofNat_eq_ofNat, BitVec.toNat_ofNat] at *
      simp only [encodeWord, toNat_append_eq_add, extractLsb_toNat_eq, BitVec.toNat_ofNat]
      omega
  · rintro ⟨hi, rfl⟩
    cases i with
    | ctrlNone | errclr => decide
    | srst b =>
      obtain ⟨hres, hsrst, hb⟩ := srst_fields b
      simp [decodeCtrl, hres, hsrst, hb]
    | _ => simp [regOf] at hi

/-! ### Accesses (R61 to R67, R104) -/

/-- The written registers are CMD, IN and CTRL (R66, R106). -/
theorem isRead_eq_false_iff {i : Instr} : isRead i = false ↔ regOf i = .cmd ∨ regOf i = .inp ∨ regOf i = .ctrl := by
  cases i <;> simp [isRead, regOf]

/-- A write decodes to an operation exactly if it is a write of the operation's word to its register. -/
theorem decodeWrite_eq_instr_iff {r : Reg} {w : Word} {i : Instr} :
    decodeWrite r w = .instr i ↔ isRead i = false ∧ regOf i = r ∧ w = encodeWord i := by
  rw [isRead_eq_false_iff]
  cases r with
  | cmd => exact decodeCmd_eq_instr_iff.trans (and_iff_right_of_imp fun ⟨hr, _⟩ => .inl hr).symm
  | inp => exact decodeIn_eq_instr_iff.trans (and_iff_right_of_imp fun ⟨hr, _⟩ => .inr (.inl hr)).symm
  | ctrl => exact decodeCtrl_eq_instr_iff.trans (and_iff_right_of_imp fun ⟨hr, _⟩ => .inr (.inr hr)).symm
  | status | result | out | caps =>
    refine ⟨fun h => by simp [decodeWrite] at h, fun ⟨hcmd, hr, _⟩ => ?_⟩
    simp [hr] at hcmd

/-- A read decodes to an operation exactly if it is a read of the operation's register. -/
theorem decodeRead_eq_instr_iff {r : Reg} {i : Instr} :
    decodeRead r = .instr i ↔ isRead i = true ∧ regOf i = r := by
  constructor
  · intro h
    cases r with
    | status | result | out | caps =>
      cases h
      exact ⟨rfl, rfl⟩
    | cmd | inp | ctrl => cases h
  · rintro ⟨hi, rfl⟩
    cases i with
    | rdStatus | rdResult | pop | rdCaps => rfl
    | _ => simp [isRead] at hi

/-- Four lanes are the lanes of the word they carry (R67). -/
theorem lanesOf_wordOfLanes {ls : List Byte} (h : ls.length = 4) : lanesOf (wordOfLanes ls) = ls := by
  match ls, h with
  | [l0, l1, l2, l3], _ =>
    simp only [lanesOf, wordOfLanes, List.cons.injEq, and_true, extractLsb_eq_iff, toNat_append_eq_add]
    omega

theorem encode_of_read {base : Nat} {i : Instr} (h : isRead i = true) : encode base i = readAccess base (regOf i) := by
  simp [encode, readAccess, h]

theorem encode_of_write {base : Nat} {i : Instr} (h : isRead i = false) :
    encode base i = writeAccess base (regOf i) (encodeWord i) := by
  simp [encode, writeAccess, h]

/-- An access that is neither outside nor a bus error is a 32-bit read or write of a register (R61 to R66). -/
theorem eq_readAccess_or_writeAccess {base : Nat} {a : Access} (hin : decodeAccess base a ≠ .outside)
    (hok : decodeAccess base a ≠ .busError) :
    ∃ r, a = readAccess base r ∨ ∃ w, a = writeAccess base r w := by
  have hwin : ¬ (a.addr < base ∨ base + 32 ≤ a.addr) := fun hout => hin (decodeAccess_of_outside hout)
  obtain ⟨off, hlt, haddr⟩ : ∃ off < 32, a.addr = base + off := ⟨a.addr - base, by omega, by omega⟩
  obtain ⟨addr, x⟩ := a
  subst haddr
  rw [decodeAccess_of_offset rfl hlt, Ne, decodeWindow_eq_busError hlt] at hok
  simp only [RejectedByWindow, not_or, not_not] at hok
  obtain ⟨hwidth, halign, hres, -, -⟩ := hok
  obtain rfl | ⟨r, rfl⟩ := aligned_offset_cases hlt halign
  · exact absurd rfl hres
  refine ⟨r, ?_⟩
  cases x with
  | read n => exact .inl (by simp_all [readAccess, xferWidth])
  | write ls => exact .inr ⟨wordOfLanes ls, by simp_all [writeAccess, xferWidth, lanesOf_wordOfLanes]⟩

/-- An access spells an operation exactly if it is the access that encodes it. -/
theorem decodeAccess_eq_instr_iff {base : Nat} {a : Access} {i : Instr} :
    decodeAccess base a = .instr i ↔ a = encode base i := by
  constructor
  · intro h
    obtain ⟨r, rfl | ⟨w, rfl⟩⟩ := eq_readAccess_or_writeAccess (base := base) (a := a) (by simp [h]) (by simp [h])
    · rw [decodeAccess_readAccess, decodeRead_eq_instr_iff] at h
      obtain ⟨hread, rfl⟩ := h
      exact (encode_of_read hread).symm
    · rw [decodeAccess_writeAccess, decodeWrite_eq_instr_iff] at h
      obtain ⟨hwrite, rfl, rfl⟩ := h
      exact (encode_of_write hwrite).symm
  · rintro rfl
    cases hread : isRead i with
    | true =>
      rw [encode_of_read hread, decodeAccess_readAccess, decodeRead_eq_instr_iff]
      exact ⟨hread, rfl⟩
    | false =>
      rw [encode_of_write hread, decodeAccess_writeAccess, decodeWrite_eq_instr_iff]
      exact ⟨hread, rfl, rfl⟩

/-- Settles O2: the encoding of an operation is an access that spells it. -/
theorem decodeInvertsEncode : Obligations.DecodeInvertsEncode := fun _ _ => decodeAccess_eq_instr_iff.2 rfl

/-- Settles O3: no other access spells it. -/
theorem encodeIsTheOnlySpelling : Obligations.EncodeIsTheOnlySpelling := fun _ _ _ => decodeAccess_eq_instr_iff.1

/-! ### Illegal words (R100, R101) -/

/-- A refused write records its error by the first-error rule and changes nothing else (R311, R314). -/
theorem refuse_eq_refusedWith (e : ErrCode) (s : State) : refuse e s = .next (refusedWith e s) := by
  rw [refuse_eq_next]
  cases herr : s.err <;> simp [raiseErr, refusedWith, firstError, herr, respond]

theorem writeReg_of_badOpcode {s : State} {r : Reg} {w : Word} (h : decodeWrite r w = .badOpcode) :
    writeReg r w s = .next (refusedWith .opc s) := by
  simp [writeReg, serveAccess, h, refuse_eq_refusedWith]

theorem writeReg_of_reservedBits {s : State} {r : Reg} {w : Word} (h : decodeWrite r w = .reservedBits) :
    writeReg r w s = .next (refusedWith .rsvd s) := by
  simp [writeReg, serveAccess, h, refuse_eq_refusedWith]

theorem row_opc_listed :
    ∀ r ∈ opcodeMap, r.opc.toNat ∈ [0x00, 0x10, 0x11, 0x12, 0x18, 0x19, 0x1A, 0x20, 0x21, 0x22] := by decide

/-- Settles O8: no row of the map has the opcode, so the decoder answers `badOpcode` before it looks at another bit. -/
theorem illegalOpcodesRaiseErrOpc : Obligations.IllegalOpcodesRaiseErrOpc := by
  refine ⟨fun s w hw => writeReg_of_badOpcode (decodeCmd_of_no_row fun r hr heq => hw ?_), by decide +kernel⟩
  have hlisted := row_opc_listed r hr
  rwa [heq] at hlisted

/-- A CMD word of a listed opcode with a reserved bit of its format set, whatever else it holds (R101). -/
theorem writeReg_cmd_of_reserved {r : OpRow} {s : State} {w : Word} (hr : r ∈ opcodeMap)
    (hopc : (w.extractLsb 7 0).toNat = r.opc.toNat) (hres : w.extractLsb 31 (reservedFrom r.opc) ≠ 0) :
    writeReg .cmd w s = .next (refusedWith .rsvd s) := by
  apply writeReg_of_reservedBits
  rw [decodeWrite, decodeCmd_of_opcode hr (BitVec.eq_of_toNat_eq hopc), if_neg hres]

/-- Settles O9, with the format of each opcode's row for CMD; for IN and CTRL the decoder's first test is the hypothesis. -/
theorem reservedBitsRaiseErrRsvd : Obligations.ReservedBitsRaiseErrRsvd := by
  intro s w
  refine ⟨fun h => ?_, fun h => writeReg_of_reservedBits (if_pos h), fun h => writeReg_of_reservedBits (if_pos h)⟩
  simp only [List.mem_cons, List.not_mem_nil, or_false] at h
  obtain ⟨hopc | hopc | hopc | hopc, hres⟩ | ⟨hopc, hres⟩ | ⟨hopc, hres⟩ | ⟨hopc, hres⟩ |
    ⟨hopc | hopc | hopc, hres⟩ := h
  · exact writeReg_cmd_of_reserved (r := opcodeMap[0]) (List.getElem_mem _) hopc hres
  · exact writeReg_cmd_of_reserved (r := opcodeMap[7]) (List.getElem_mem _) hopc hres
  · exact writeReg_cmd_of_reserved (r := opcodeMap[8]) (List.getElem_mem _) hopc hres
  · exact writeReg_cmd_of_reserved (r := opcodeMap[9]) (List.getElem_mem _) hopc hres
  · exact writeReg_cmd_of_reserved (r := opcodeMap[1]) (List.getElem_mem _) hopc hres
  · exact writeReg_cmd_of_reserved (r := opcodeMap[2]) (List.getElem_mem _) hopc hres
  · exact writeReg_cmd_of_reserved (r := opcodeMap[3]) (List.getElem_mem _) hopc hres
  · exact writeReg_cmd_of_reserved (r := opcodeMap[4]) (List.getElem_mem _) hopc hres
  · exact writeReg_cmd_of_reserved (r := opcodeMap[5]) (List.getElem_mem _) hopc hres
  · exact writeReg_cmd_of_reserved (r := opcodeMap[6]) (List.getElem_mem _) hopc hres

end Sys2Proof
end

section
/-! ### What the host reads (R34, R105) -/

namespace Sys2Proof

open Machine

section
variable (e : Entry)

/-! The fields of an OUT word (R34). -/

theorem outWord_valid : (outWord e).extractLsb 8 8 = 1#1 := by
  simp only [outWord, extractLsb_eq_iff, toNat_append_eq_add, BitVec.toNat_ofNat]
  omega

theorem outWord_byte : (outWord e).extractLsb 7 0 = e.byte := by
  simp only [outWord, extractLsb_eq_iff, toNat_append_eq_add, BitVec.toNat_ofNat]
  omega

theorem outWord_eoj : (outWord e).extractLsb 9 9 = BitVec.ofBool e.eoj := by
  simp only [outWord, extractLsb_eq_iff, toNat_append_eq_add, BitVec.toNat_ofNat]
  omega

theorem keptByte_outWord : keptByte (outWord e) = [e.byte] := by simp [keptByte, outWord_valid, outWord_byte]

end

/-- STATUS bit 2 is IN_READY (R23, R26). -/
theorem statusWord_inReady (s : State) : (statusWord s).extractLsb 2 2 = BitVec.ofBool (inReady s) := by
  simp only [statusWord, extractLsb_eq_iff, toNat_append_eq_add, BitVec.toNat_ofNat]
  omega

/-- The host gets the word that a read answers, whatever lanes carry it (R67). -/
theorem readBack_of_answer {i : Instr} {w : Word} {s t : State} (h : exec i s = answer w t) :
    readBack i s = some (w, respond (.data (lanesOf w)) t) := by
  simp [readBack, h, answer]

theorem readBack_rdStatus (s : State) :
    readBack .rdStatus s = some (statusWord s, respond (.data (lanesOf (statusWord s))) s) := readBack_of_answer rfl

theorem readBack_pop_nil {s : State} (h : s.queue = []) :
    readBack .pop s = some (0, respond (.data (lanesOf 0)) s) :=
  readBack_of_answer (by simp [exec, execPop, h])

theorem readBack_pop_cons {s : State} {e : Entry} {q : List Entry} (h : s.queue = e :: q) :
    readBack .pop s = some (outWord e, respond (.data (lanesOf (outWord e))) (setQueue q s)) :=
  readBack_of_answer (by simp [exec, execPop, h])

/-- DRAIN pops entry by entry; its last read is that of the empty queue (R105, R257). -/
theorem drain_queue {q : List Entry} {s : State} (h : s.queue = q) :
    drain (q.length + 1) s = some (q.map Entry.byte, respond (.data (lanesOf 0)) (setQueue [] s)) := by
  induction q generalizing s with
  | nil =>
    have hself : setQueue [] s = s := by rw [← h]; rfl
    simp [drain, readBack_pop_nil h, hself]
  | cons e q ih =>
    rw [List.length_cons, drain, readBack_pop_cons h, Option.bind_some, outWord_valid, if_neg (by decide), ih rfl,
      outWord_byte]
    rfl

/-- Settles O54: DRAIN on any queue, with the queue's length and one more turn. -/
theorem drainCollectsTheQueue : Obligations.DrainCollectsTheQueue := fun _ => drain_queue rfl

section
variable {s : State} {n : Nat}

/-- With IN_READY = 1 FEEDW writes its token (R105). -/
theorem feedWhenReady_of_ready {i : Instr} (h : inReady s = true) :
    feedWhenReady i (n + 1) s =
      (issue i (respond (.data (lanesOf (statusWord s))) s)).map (fun t => ([], t)) := by
  simp [feedWhenReady, readBack_rdStatus, statusWord_inReady, h]

/-- With IN_READY = 0 a turn of FEEDW pops the head of Q (R105). -/
theorem feedWhenReady_of_not_ready {i : Instr} {e : Entry} {q : List Entry} (h : inReady s = false)
    (hq : s.queue = e :: q) :
    feedWhenReady i (n + 1) s =
      (feedWhenReady i n (respond (.data (lanesOf (outWord e))) (setQueue q s))).map
        (fun r => (e.byte :: r.1, r.2)) := by
  have hpop := readBack_pop_cons (s := respond (.data (lanesOf (statusWord s))) s) hq
  rw [feedWhenReady, readBack_rdStatus, Option.bind_some, statusWord_inReady, h, if_neg (by decide), hpop,
    Option.bind_some, keptByte_outWord]
  rfl

/-- The EOJ entry ends DRAIN_JOB (R105, R259). -/
theorem drainJob_of_last {e : Entry} {q : List Entry} (hq : s.queue = e :: q) (he : e.eoj = true) :
    drainJob (n + 1) s = some ([e.byte], respond (.data (lanesOf (outWord e))) (setQueue q s)) := by
  simp [drainJob, readBack_pop_cons hq, outWord_eoj, he, keptByte_outWord]

/-- Any other entry is kept and DRAIN_JOB goes on (R105). -/
theorem drainJob_of_more {e : Entry} {q : List Entry} (hq : s.queue = e :: q) (he : e.eoj = false) :
    drainJob (n + 1) s =
      (drainJob n (respond (.data (lanesOf (outWord e))) (setQueue q s))).map (fun r => (e.byte :: r.1, r.2)) := by
  simp [drainJob, readBack_pop_cons hq, outWord_eoj, he, keptByte_outWord]

/-- DRAIN_JOB on a queue that holds just a finished job's output collects it (R105, R258). -/
theorem drainJob_jobEntries {bs : List Byte} (hbs : bs ≠ []) (hq : s.queue = jobEntries bs) :
    ∃ r, drainJob (bs.length + n) s = some (bs, respond r (setQueue [] s)) := by
  induction bs generalizing s n with
  | nil => contradiction
  | cons b bs ih =>
    rw [List.length_cons, Nat.add_right_comm]
    cases bs with
    | nil => exact ⟨_, drainJob_of_last (e := ⟨b, true⟩) hq rfl⟩
    | cons c bs =>
      rw [drainJob_of_more (e := ⟨b, false⟩) (q := jobEntries (c :: bs)) hq rfl]
      obtain ⟨r, hr⟩ := ih (s := respond _ (setQueue (jobEntries (c :: bs)) s)) (n := n) (by simp) rfl
      exact ⟨r, by rw [hr]; rfl⟩

end

end Sys2Proof
end

section
/-! ### What a job has yet to push (R228, R258) -/

namespace Sys2Proof.Machine

/-- What the compressor sinks for the data bytes `x` and END (R180). -/
def lzwTail (x : List Byte) (z : Lzw) : List Byte := (lzwBytes x z).2 ++ (lzwEnd (lzwBytes x z).1).2

/-- What the chunker pushes for the payload `y` and END (R228). -/
def chunkTail (y c : List Byte) : List Byte := (chunkBytes y c).2 ++ chunkEnd (chunkBytes y c).1

theorem lzwTail_cons (k : Byte) (x : List Byte) (z : Lzw) :
    lzwTail (k :: x) z = (lzwByte k z).2 ++ lzwTail x (lzwByte k z).1 := by
  simp [lzwTail, lzwBytes]

theorem chunkTail_append (x y c : List Byte) :
    chunkTail (x ++ y) c = (chunkBytes x c).2 ++ chunkTail y (chunkBytes x c).1 := by
  simp [chunkTail, chunkBytes_append]

/-- The terminator at least is pushed (R227). -/
theorem chunkTail_ne_nil (y c : List Byte) : chunkTail y c ≠ [] := by simp [chunkTail, chunkEnd]

/-- A job's stream is that of `lzw_init` and then what the fresh engine sinks (R180). -/
theorem lzwStream_eq_lzwTail (x : List Byte) : lzwStream x = lzwInit.2 ++ lzwTail x lzwInit.1 := by
  simp [lzwStream, lzwTail]

/-- Bytes that fill the sub-block exactly send it out and leave none (R225). -/
theorem chunkBytes_fill {x c : List Byte} (hx : x ≠ []) (h : c.length + x.length = 255) :
    chunkBytes x c = ([], subBlock (c ++ x)) := by
  induction x generalizing c with
  | nil => contradiction
  | cons b x ih =>
    rw [List.length_cons] at h
    by_cases hlast : x = []
    · subst hlast
      rw [chunkBytes, chunkByte_full (by simpa using h)]
      simp [chunkBytes]
    · have hpos := List.length_pos_iff.2 hlast
      rw [chunkBytes, chunkByte_short (by omega), ih hlast (by simp; omega)]
      simp

/-- From an empty CBUF, one sub-block leaves for the first 255 bytes or what there is of them (R220, R225, R227). -/
theorem chunkTail_of_ne_nil {y : List Byte} (hy : y ≠ []) :
    chunkTail y [] = subBlock (y.take 255) ++ chunkTail (y.drop 255) [] := by
  by_cases hshort : y.length ≤ 254
  · have hpos := List.length_pos_iff.2 hy
    rw [chunkTail, chunkBytes_short (by simpa using hshort), List.take_of_length_le (by omega),
      List.drop_of_length_le (by omega)]
    simp [chunkTail, chunkBytes, chunkEnd, hpos]
  · have htake : (y.take 255).length = 255 := by simp; omega
    rw [← List.take_append_drop 255 y, chunkTail_append,
      chunkBytes_fill (List.ne_nil_of_length_pos (by omega)) (by simpa using htake)]
    simp

/-- The streaming chunker pushes the sub-blocks of CHUNK's loop (R220, R228). -/
theorem chunkTail_eq_chunkLoop {n : Nat} {y : List Byte} (h : y.length ≤ n) : chunkTail y [] = chunkLoop n y := by
  induction n generalizing y with
  | zero =>
    obtain rfl := List.length_eq_zero_iff.1 (Nat.le_zero.1 h)
    rfl
  | succ n ih =>
    by_cases hy : y = []
    · subst hy
      rfl
    · rw [chunkTail_of_ne_nil hy, ih (by simp; omega), chunkLoop, if_neg hy]

/-- Streaming and whole-stream chunking agree (R228). -/
theorem chunkTail_eq_chunked (y : List Byte) : chunkTail y [] = chunked y := chunkTail_eq_chunkLoop (Nat.le_refl _)

/-- The bytes a job in state `s` has yet to push for the data bytes `x` and END (R254, R255). -/
def jobTail (x : List Byte) (s : State) : List Byte :=
  match s.mode with
  | .none => []
  | .lzw => lzwTail x s.lzw
  | .chunk => chunkTail x s.cbuf
  | .imgdata => chunkTail (lzwTail x s.lzw) s.cbuf

end Sys2Proof.Machine
end

section
/-! ### RUN_JOB (R105, R362) -/

namespace Sys2Proof

open Machine

theorem throughChunker_queue (bs : List Byte) (s : State) :
    (throughChunker bs s).queue = s.queue ++ plainEntries (chunkBytes bs s.cbuf).2 := rfl

theorem endChunks_queue (s : State) : (endChunks s).queue = s.queue ++ plainEntries (chunkEnd s.cbuf) := rfl

theorem issue_of_next {i : Instr} {s t : State} (h : exec i s = .next t) : issue i s = some t := by simp [issue, h]

/-- Within a job of mode `m` that began in `s₀`, before the data bytes `x` and END: `ahead` is what the host has yet to
pop, first what is queued and then what the job will push. ERR and RESULT are as they were in `s₀`. -/
structure JobAhead (s₀ : State) (m : Mode) (x ahead : List Byte) (s : State) : Prop where
  inv : Inv s
  phase : s.phase = .run
  mode : s.mode = m
  err : s.err = s₀.err
  result : s.result = s₀.result
  queue : s.queue ++ plainEntries (jobTail x s) = plainEntries ahead

section
variable {s₀ s : State} {m : Mode} {x ahead : List Byte} {k : Byte}

/-- A start on a quiescent block (R250 to R252): the job's output is ahead. -/
theorem jobAhead_of_start {start : Instr} (hinv : Inv s₀) (hq : Quiescent s₀) (hstart : startOf m = some start) :
    ∃ t, exec start s₀ = .next t ∧ JobAhead s₀ m x (jobOutput m x) t := by
  obtain ⟨hidle, hempty⟩ := hq
  obtain ⟨-, hcap, -⟩ := hinv.cfg
  have hok : startError s₀ = none := startError_eq_none.2 ⟨hidle, by simp [hempty]; omega⟩
  obtain ⟨t, ht⟩ := exec_answers hinv.mode start
  have hinvt := hinv.effect (exec_effect ht)
  refine ⟨t, ht, ?_⟩
  cases m with
  | none => cases hstart
  | lzw =>
    cases hstart
    obtain ⟨e, he, -⟩ | ⟨-, rfl⟩ := execLzwStart_next ht
    · simp [hok] at he
    · refine ⟨hinvt, rfl, rfl, rfl, rfl, ?_⟩
      simp [jobTail, jobOutput, plainEntries, hempty, lzwStream_eq_lzwTail]
  | chunk =>
    cases hstart
    obtain ⟨e, he, -⟩ | ⟨-, rfl⟩ := execChunkStart_next ht
    · simp [hok] at he
    · refine ⟨hinvt, rfl, rfl, rfl, rfl, ?_⟩
      simp [jobTail, jobOutput, hempty, chunkTail_eq_chunked]
  | imgdata =>
    cases hstart
    obtain ⟨e, he, -⟩ | ⟨-, rfl⟩ := execImgdataStart_next ht
    · simp [hok] at he
    · refine ⟨hinvt, rfl, rfl, rfl, rfl, ?_⟩
      simp [jobTail, jobOutput, throughChunker_queue, plainEntries, hempty, lzwStream_eq_lzwTail,
        ← chunkTail_eq_chunked, chunkTail_append]

/-- END always pushes (R184, R227), so there is an entry to mark (R259). -/
theorem JobAhead.ne_nil (h : JobAhead s₀ m [] ahead s) : ahead ≠ [] := by
  have htail : jobTail [] s ≠ [] := by
    have hmode := h.inv.mode h.phase
    unfold jobTail
    split
    · contradiction
    · next hm =>
      obtain ⟨hsunk, -⟩ := (h.inv.lzw ⟨h.phase, .inl hm⟩).lzwEnd_length
      exact List.ne_nil_of_length_pos (Nat.lt_of_lt_of_le (by decide) hsunk)
    · exact chunkTail_ne_nil _ _
    · exact chunkTail_ne_nil _ _
  rintro rfl
  exact htail (List.map_eq_nil_iff.1 (List.append_eq_nil_iff.1 h.queue).2)

/-- The bus response is no part of a job. -/
theorem JobAhead.respond (h : JobAhead s₀ m x ahead s) (r : Response) :
    JobAhead s₀ m x ahead (Machine.respond r s) :=
  { h with inv := h.inv.respond r }

/-- What POP takes is the first byte ahead (R257). -/
theorem JobAhead.pop {e : Entry} {q : List Entry} (h : JobAhead s₀ m x ahead s) (hq : s.queue = e :: q) :
    ∃ rest, ahead = e.byte :: rest ∧ JobAhead s₀ m x rest (setQueue q s) := by
  have hqueue := h.queue.symm
  rw [hq, List.cons_append, plainEntries, List.map_eq_cons_iff] at hqueue
  obtain ⟨b, rest, rfl, rfl, hrest⟩ := hqueue
  exact ⟨rest, rfl, { h with inv := h.inv.setQueue_tail hq, queue := hrest.symm }⟩

/-- A data token at a ready block (R254): what it pushes was ahead already. -/
theorem JobAhead.feed (h : JobAhead s₀ m (k :: x) ahead s) (hready : inReady s = true) :
    ∃ t, exec (.feed k) s = .next t ∧ JobAhead s₀ m x ahead t := by
  have hok := tokenError_eq_none.2 hready
  obtain ⟨t, ht⟩ := exec_answers h.inv.mode (.feed k)
  have hinvt := h.inv.effect (exec_effect ht)
  refine ⟨t, ht, ?_⟩
  obtain ⟨e, he, -⟩ | ⟨-, hm, rfl⟩ | ⟨-, hm, rfl⟩ | ⟨-, hm, rfl⟩ := execFeed_next ht
  · simp [hok] at he
  · refine ⟨hinvt, h.phase, h.mode, h.err, h.result, Eq.trans ?_ h.queue⟩
    simp [jobTail, hm, lzwTail_cons, plainEntries]
  · refine ⟨hinvt, h.phase, h.mode, h.err, h.result, Eq.trans ?_ h.queue⟩
    have htail := chunkTail_append [k] x s.cbuf
    rw [List.singleton_append] at htail
    simp [jobTail, hm, htail, throughChunker_queue, plainEntries]
  · refine ⟨hinvt, h.phase, h.mode, h.err, h.result, Eq.trans ?_ h.queue⟩
    simp [jobTail, hm, lzwTail_cons, chunkTail_append, throughChunker_queue, plainEntries]

/-- END at a ready block (R255, R259): the block is idle with the job's output queued and marked. -/
theorem JobAhead.finish (h : JobAhead s₀ m [] ahead s) (hready : inReady s = true) :
    ∃ t, exec .endToken s = .next t ∧ t.queue = jobEntries ahead ∧ t.phase = .idle ∧ t.done = true ∧ t.mode = m ∧
      t.err = s₀.err ∧ t.result = s₀.result := by
  have hok := tokenError_eq_none.2 hready
  obtain ⟨t, ht⟩ := exec_answers h.inv.mode .endToken
  refine ⟨t, ht, ?_⟩
  rw [jobEntries, ← h.queue, ← h.mode, ← h.err, ← h.result]
  obtain ⟨e, he, -⟩ | ⟨-, hm, rfl⟩ | ⟨-, hm, rfl⟩ | ⟨-, hm, rfl⟩ := execEnd_next ht
  · simp [hok] at he
  · simp [jobTail, hm, lzwTail, lzwBytes, plainEntries]
  · simp [jobTail, hm, chunkTail, chunkBytes, endChunks_queue, plainEntries]
  · simp [jobTail, hm, lzwTail, lzwBytes, chunkTail, endChunks_queue, throughChunker_queue, plainEntries]

/-- A running job is ready when Q is empty, as any legal OUTQ_CAP has room for a token (R6, R256). -/
theorem inReady_of_queue_nil (hinv : Inv s) (hphase : s.phase = .run) (hq : s.queue = []) : inReady s = true := by
  obtain ⟨-, hcap, -⟩ := hinv.cfg
  exact inReady_iff.2 ⟨hphase, by simp [hq]; omega⟩

/-- FEEDW's loop ends within the queue's length (R105): the block is ready at the latest when Q is empty, and what was
popped until then is what was ahead. -/
theorem JobAhead.feedWhenReady {n : Nat} (h : JobAhead s₀ m x ahead s) (hn : s.queue.length < n) (i : Instr) :
    ∃ bs rest u, ahead = bs ++ rest ∧ JobAhead s₀ m x rest u ∧ inReady u = true ∧
      feedWhenReady i n s = (issue i u).map (fun t => (bs, t)) := by
  induction n generalizing s ahead with
  | zero => omega
  | succ n ih =>
    cases hready : inReady s with
    | true =>
      exact ⟨[], ahead, _, rfl, h.respond (.data (lanesOf (statusWord s))), hready, feedWhenReady_of_ready hready⟩
    | false =>
      cases hq : s.queue with
      | nil => simp [inReady_of_queue_nil h.inv h.phase hq] at hready
      | cons e q =>
        obtain ⟨ahead, rfl, hpop⟩ := h.pop hq
        obtain ⟨bs, rest, u, rfl, hu, huready, hloop⟩ :=
          ih (hpop.respond (.data (lanesOf (outWord e)))) (by simpa [hq] using hn)
        refine ⟨e.byte :: bs, rest, u, rfl, hu, huready, ?_⟩
        rw [feedWhenReady_of_not_ready hready hq, hloop, Option.map_map]
        rfl

/-- FEEDW for every data byte leaves the job before its END (R105). -/
theorem JobAhead.feedAll (h : JobAhead s₀ m x ahead s) :
    ∃ bs rest t, ahead = bs ++ rest ∧ JobAhead s₀ m [] rest t ∧ feedAll x s = some (bs, t) := by
  induction x generalizing s ahead with
  | nil => exact ⟨[], ahead, s, rfl, h, rfl⟩
  | cons k x ih =>
    obtain ⟨bs, rest, u, rfl, hu, hready, hloop⟩ := h.feedWhenReady (Nat.lt_succ_self _) (.feed k)
    obtain ⟨t, ht, hfed⟩ := hu.feed hready
    obtain ⟨cs, rest, v, rfl, hv, hall⟩ := ih hfed
    refine ⟨bs ++ cs, rest, v, (List.append_assoc ..).symm, hv, ?_⟩
    simp [Machine.feedAll, hloop, issue_of_next ht, hall]

end

/-- Settles O53: from the start to END what is popped and what is ahead make up the job's output, each FEEDW ends because
an empty queue has room, and after END the queue holds just the rest of the output, which DRAIN_JOB pops to its mark. -/
theorem runJobDeliversTheJobOutput : Obligations.RunJobDeliversTheJobOutput := by
  intro m start x s hinv hq hstart
  obtain ⟨s1, hs1, hjob⟩ := jobAhead_of_start (x := x) hinv hq hstart
  obtain ⟨bs, rest, t, hbs, hfed, hall⟩ := hjob.feedAll
  obtain ⟨cs, rest, u, rfl, hu, hready, hloop⟩ := hfed.feedWhenReady (Nat.lt_succ_self _) .endToken
  obtain ⟨v, hv, hqueue, hphase, hdone, hmode, herr, hresult⟩ := hu.finish hready
  have hlen : v.queue.length = rest.length := by simp [hqueue, jobEntries, plainEntries]
  obtain ⟨r, hdrain⟩ := drainJob_jobEntries (n := 1) hu.ne_nil hqueue
  refine ⟨respond r (setQueue [] v), ?_, ⟨hphase, rfl⟩, hdone, hmode, herr, hresult⟩
  simp [runJob, issue_of_next hs1, hall, hloop, issue_of_next hv, hlen, hdrain, hbs]

end Sys2Proof
end

section
/-! Proofs of the flag-codec family: palette lengths, the outcome of each flag command, and the codec's round trip. -/

/-! ### Palette lengths (40_flag_codec.md R130) -/

namespace Sys2Proof.Machine

theorem plenOf_one_toNat (z : BitVec 3) : (plenOf 1 z).toNat = 2 ^ (z.toNat + 1) := by
  have hlt : 2 ^ (z.toNat + 1) < 2 ^ 9 := Nat.pow_lt_pow_right (by decide) (by omega)
  simpa [plenOf] using hlt

theorem plenOf_zero (z : BitVec 3) : plenOf 0 z = 0 := rfl

theorem plenOk_iff {l : BitVec 9} : plenOk l = true ↔ l.toNat ∈ [0, 2, 4, 8, 16, 32, 64, 128, 256] := by
  simp [plenOk, legalPlen, ← BitVec.toNat_inj]

theorem plenOk_eq_false_iff {l : BitVec 9} : plenOk l = false ↔ l.toNat ∉ [0, 2, 4, 8, 16, 32, 64, 128, 256] := by
  rw [← plenOk_iff, Bool.not_eq_true]

/-- A legal length is recovered from its present bit and size code, and the empty palette has size code 0. -/
theorem plenOf_present_sizeCode {l : BitVec 9} (h : plenOk l = true) :
    plenOf (present l) (sizeCode l) = l ∧ (present l = 1 ∨ sizeCode l = 0) := by
  have hlegal : ∀ l ∈ legalPlen, plenOf (present l) (sizeCode l) = l ∧ (present l = 1 ∨ sizeCode l = 0) := by
    decide
  exact hlegal l (by simpa [plenOk] using h)

/-- A present bit and a size code of which one palette length is made are read back from that length. -/
theorem legal_plenOf {p : BitVec 1} {z : BitVec 3} (h : p = 1 ∨ z = 0) :
    plenOk (plenOf p z) = true ∧ present (plenOf p z) = p ∧ sizeCode (plenOf p z) = z := by
  revert p z
  decide

/-- The length 2^(n+1) is the one that size code n stands for. -/
theorem exists_eq_plenOf_one {n : Fin 8} {l : BitVec 9} (h : l.toNat = 2 ^ (n.val + 1)) :
    ∃ z : BitVec 3, z.toNat = n.val ∧ l = plenOf 1 z :=
  ⟨BitVec.ofFin n, rfl, BitVec.eq_of_toNat_eq (h.trans (plenOf_one_toNat _).symm)⟩

end Sys2Proof.Machine

namespace Sys2Proof

open Machine

/-- Settles O11: each length 2^(n+1) is `plenOf 1 n`, from which present bit and size code are read back. -/
theorem paletteHelpers : Obligations.PaletteHelpers := by
  refine ⟨fun _ => plenOk_iff, rfl, rfl, fun n l hl => ?_, fun z => ⟨plenOf_one_toNat z, plenOf_zero z⟩⟩
  obtain ⟨z, hz, rfl⟩ := exists_eq_plenOf_one hl
  obtain ⟨-, hpresent, hsize⟩ := legal_plenOf (z := z) (.inl rfl)
  exact ⟨(congrArg BitVec.toNat hsize).trans hz, hpresent⟩

/-! ### The outcome of a flag command (R131 to R133, R135, R140 to R142) -/

/-- The word a flag command with legal operands leaves in RESULT. -/
def flagResult : Instr → Word
  | .packLsd plen cres sort => (lsdByte plen cres sort).setWidth 32
  | .packImg plen ilace sort => (imgByte plen ilace sort).setWidth 32
  | .packGce disp uin trn => (gceByte disp uin trn).setWidth 32
  | .unpackLsd b => lsdFields b
  | .unpackImg b => imgFields b
  | .unpackGce b => gceFields b
  | _ => 0

/-- The error a flag command with illegal operands raises. -/
def flagError : Instr → ErrCode
  | .packGce _ _ _ => .range
  | _ => .palette

/-- With legal operands a flag command writes RESULT and nothing else. -/
theorem exec_flag_of_wellFormed {i : Instr} (hi : isFlagCommand i = true) (hw : WellFormed i = true) (s : State) :
    exec i s = .next { s with result := flagResult i, resp := .done } := by
  cases i with
  | packLsd | packImg | packGce => exact if_pos hw
  | unpackLsd | unpackImg | unpackGce => rfl
  | _ => cases hi

/-- With an illegal operand a flag command raises its error and does nothing else. -/
theorem exec_flag_of_not_wellFormed {i : Instr} (hi : isFlagCommand i = true) (hw : WellFormed i = false) (s : State) :
    exec i s = .next (refusedWith (flagError i) s) := by
  rw [← refuse_eq_refusedWith]
  cases i with
  | packLsd | packImg | packGce => exact if_neg (by simpa [WellFormed] using hw)
  | unpackLsd | unpackImg | unpackGce => cases hw
  | _ => cases hi

/-- Settles O19: neither the result nor the error of a flag command depends on the state. -/
theorem flagCommandsTouchOnlyResultOrErr : Obligations.FlagCommandsTouchOnlyResultOrErr := fun i hi =>
  ⟨fun hw => ⟨flagResult i, exec_flag_of_wellFormed hi hw⟩,
   fun hw => ⟨flagError i, exec_flag_of_not_wellFormed hi hw⟩⟩

/-! ### Words of a listed opcode (R92 to R95, R101) -/

/-- A mask of exactly the bits from `n` on tests the field they make up. -/
theorem and_topMask_eq_zero {w m : Word} {n : Nat} (hm : ∀ j < 32, m.getLsbD j = decide (n ≤ j)) :
    w &&& m = 0 ↔ w.extractLsb 31 n = 0 := by
  rw [extractLsb_top_eq_zero, BitVec.eq_of_getLsbD_eq_iff]
  refine forall₂_congr fun j hj => ?_
  simp [hm j hj, imp_iff_not_or, or_comm]

/-- A CMD word of a listed opcode is refused for its reserved bits, or runs the operation of its fields (R101, R103). -/
theorem writeReg_cmd_of_opcode {r : OpRow} {s : State} {w m : Word} (hr : r ∈ opcodeMap)
    (hm : ∀ j < 32, m.getLsbD j = decide (reservedFrom r.opc ≤ j)) (hopc : w.extractLsb 7 0 = r.opc) :
    writeReg .cmd w s = if w &&& m ≠ 0 then .next (refusedWith .rsvd s) else exec (r.build w) s := by
  simp only [ne_eq, and_topMask_eq_zero hm]
  split_ifs with hres
  · simp [writeReg, serveAccess, decodeWrite, decodeCmd_of_opcode hr hopc, hres]
  · exact writeReg_cmd_of_reserved hr (congrArg BitVec.toNat hopc) hres

/-- Writing an operation's own word to CMD runs the operation (R104). -/
theorem writeReg_cmd_encodeWord {i : Instr} (hi : regOf i = .cmd) (s : State) :
    writeReg .cmd (encodeWord i) s = exec i s :=
  serveAccess_instr ((decodeAccess_writeAccess ..).trans (decodeCmd_encodeWord hi))

/-! ### The pack commands (R131 to R133) -/

section

variable {p : BitVec 1} {z : BitVec 3}

/-- PACK_LSD packs the present bit and the size code of which its length is made. -/
theorem exec_packLsd_plenOf (h : p = 1 ∨ z = 0) (cres : BitVec 3) (sort : BitVec 1) (s : State) :
    exec (.packLsd (plenOf p z) cres sort) s =
      .next { s with result := (p ++ cres ++ sort ++ z).setWidth 32, resp := .done } := by
  obtain ⟨hok, hpresent, hsize⟩ := legal_plenOf h
  rw [exec_flag_of_wellFormed (i := .packLsd ..) rfl hok, flagResult, lsdByte, hpresent, hsize]

/-- PACK_IMG packs the present bit and the size code of which its length is made. -/
theorem exec_packImg_plenOf (h : p = 1 ∨ z = 0) (ilace sort : BitVec 1) (s : State) :
    exec (.packImg (plenOf p z) ilace sort) s =
      .next { s with result := (p ++ ilace ++ sort ++ 0#2 ++ z).setWidth 32, resp := .done } := by
  obtain ⟨hok, hpresent, hsize⟩ := legal_plenOf h
  rw [exec_flag_of_wellFormed (i := .packImg ..) rfl hok, flagResult, imgByte, hpresent, hsize]

end

/-- The field picture of a header-flags byte as the shifts of R131. -/
theorem lsdPicture_setWidth (p : BitVec 1) (cres : BitVec 3) (sort : BitVec 1) (z : BitVec 3) :
    (p ++ cres ++ sort ++ z).setWidth 32 =
      (p.setWidth 32 <<< 7) ||| (cres.setWidth 32 <<< 4) ||| (sort.setWidth 32 <<< 3) ||| z.setWidth 32 := by
  simp only [BitVec.setWidth_append_eq_shiftLeft_setWidth_or, BitVec.shiftLeft_or_distrib, ← BitVec.shiftLeft_add]

/-- The field picture of an image-flags byte with RSV 0 as the shifts of R132. -/
theorem imgPicture_setWidth (p ilace sort : BitVec 1) (z : BitVec 3) :
    (p ++ ilace ++ sort ++ 0#2 ++ z).setWidth 32 =
      (p.setWidth 32 <<< 7) ||| (ilace.setWidth 32 <<< 6) ||| (sort.setWidth 32 <<< 5) ||| z.setWidth 32 := by
  simp only [BitVec.setWidth_append_eq_shiftLeft_setWidth_or, BitVec.shiftLeft_or_distrib, ← BitVec.shiftLeft_add]
  simp

/-- The field picture of a graphics-control flags byte with RSV 0 as the sum of R133. -/
theorem gceByte_setWidth (disp : BitVec 3) (uin trn : BitVec 1) :
    (gceByte disp uin trn).setWidth 32 = BitVec.ofNat 32 (disp.toNat * 4 + uin.toNat * 2 + trn.toNat) := by
  apply BitVec.eq_of_toNat_eq
  simp only [gceByte, BitVec.toNat_setWidth, toNat_append_eq_add, BitVec.toNat_ofNat]
  omega

/-- Settles O12: a legal length is 0 or `plenOf 1 n`, and the packed picture is the shifts of the statement. -/
theorem packLsdPacksTheHeaderFlags : Obligations.PackLsdPacksTheHeaderFlags := by
  refine ⟨fun s cres sort => ?_, fun s n plen cres sort hplen => ?_, fun s plen cres sort hplen => ?_, fun s w =>
    writeReg_cmd_of_opcode (r := opcodeMap[1]) (List.getElem_mem _) (by decide)⟩
  · rw [← plenOf_zero 0, exec_packLsd_plenOf (.inr rfl), lsdPicture_setWidth]
    simp
  · obtain ⟨z, hz, rfl⟩ := exists_eq_plenOf_one hplen
    rw [exec_packLsd_plenOf (.inl rfl), lsdPicture_setWidth, ← hz]
    simp
  · exact exec_flag_of_not_wellFormed (i := .packLsd ..) rfl (plenOk_eq_false_iff.2 hplen) s

/-- Settles O13 in the way of PACK_LSD, with the field picture of R132. -/
theorem packImgPacksTheImageFlags : Obligations.PackImgPacksTheImageFlags := by
  refine ⟨fun s ilace sort => ?_, fun s n plen ilace sort hplen => ?_, fun s plen ilace sort hplen => ?_, fun s w =>
    writeReg_cmd_of_opcode (r := opcodeMap[2]) (List.getElem_mem _) (by decide)⟩
  · rw [← plenOf_zero 0, exec_packImg_plenOf (.inr rfl), imgPicture_setWidth]
    simp
  · obtain ⟨z, hz, rfl⟩ := exists_eq_plenOf_one hplen
    rw [exec_packImg_plenOf (.inl rfl), imgPicture_setWidth, ← hz]
    simp
  · exact exec_flag_of_not_wellFormed (i := .packImg ..) rfl (plenOk_eq_false_iff.2 hplen) s

/-- Settles O14: the check on DISP is the operand's only one. -/
theorem packGcePacksTheControlFlags : Obligations.PackGcePacksTheControlFlags := by
  refine ⟨fun s disp uin trn hdisp => ?_, fun s disp uin trn hdisp => ?_, fun s w =>
    writeReg_cmd_of_opcode (r := opcodeMap[3]) (List.getElem_mem _) (by decide)⟩
  · rw [exec_flag_of_wellFormed rfl (by simpa [WellFormed, dispOk] using hdisp), flagResult, gceByte_setWidth]
  · exact exec_flag_of_not_wellFormed rfl (by simpa [WellFormed, dispOk] using hdisp) s

/-! ### The unpack commands (R140 to R142)

A field picture lists the most significant field first, the spec's formula the least: once each field is shifted to its
place, the two differ in the order of the fields only. -/

/-- The field picture of UNPACK_LSD as the shifts of R140. -/
theorem lsdWord_setWidth (nc p : BitVec 1) (z : BitVec 3) (sort : BitVec 1) (cres : BitVec 3) (plen : BitVec 9) :
    (0#14 ++ nc ++ p ++ z ++ sort ++ cres ++ plen).setWidth 32 =
      plen.setWidth 32 ||| (cres.setWidth 32 <<< 9) ||| (sort.setWidth 32 <<< 12) ||| (z.setWidth 32 <<< 13) |||
        (p.setWidth 32 <<< 16) ||| (nc.setWidth 32 <<< 17) := by
  simp only [BitVec.setWidth_append_eq_shiftLeft_setWidth_or, BitVec.shiftLeft_or_distrib, ← BitVec.shiftLeft_add,
    BitVec.setWidth_zero, BitVec.zero_shiftLeft, BitVec.zero_or]
  grind

/-- The field picture of UNPACK_IMG as the shifts of R141. -/
theorem imgWord_setWidth (nc p : BitVec 1) (z : BitVec 3) (rsv : BitVec 2) (sort ilace : BitVec 1) (plen : BitVec 9) :
    (0#14 ++ nc ++ p ++ z ++ rsv ++ sort ++ ilace ++ plen).setWidth 32 =
      plen.setWidth 32 ||| (ilace.setWidth 32 <<< 9) ||| (sort.setWidth 32 <<< 10) ||| (rsv.setWidth 32 <<< 11) |||
        (z.setWidth 32 <<< 13) ||| (p.setWidth 32 <<< 16) ||| (nc.setWidth 32 <<< 17) := by
  simp only [BitVec.setWidth_append_eq_shiftLeft_setWidth_or, BitVec.shiftLeft_or_distrib, ← BitVec.shiftLeft_add,
    BitVec.setWidth_zero, BitVec.zero_shiftLeft, BitVec.zero_or]
  grind

/-- The field picture of UNPACK_GCE as the shifts of R142. -/
theorem gceWord_setWidth (nc : BitVec 1) (rsv : BitVec 3) (trn uin : BitVec 1) (disp : BitVec 3) :
    (0#14 ++ nc ++ 0#9 ++ rsv ++ trn ++ uin ++ disp).setWidth 32 =
      disp.setWidth 32 ||| (uin.setWidth 32 <<< 3) ||| (trn.setWidth 32 <<< 4) ||| (rsv.setWidth 32 <<< 5) |||
        (nc.setWidth 32 <<< 17) := by
  simp only [BitVec.setWidth_append_eq_shiftLeft_setWidth_or, BitVec.shiftLeft_or_distrib, ← BitVec.shiftLeft_add,
    BitVec.setWidth_zero, BitVec.zero_shiftLeft, BitVec.zero_or, BitVec.or_zero]
  grind

section

variable (b : Byte)

/-- The top bit of a byte as a field of width 1. -/
theorem extractLsb_top_bit : b.extractLsb 7 7 = BitVec.ofBool (b.getLsbD 7) := by
  apply BitVec.eq_of_getLsbD_eq
  intro j hj
  obtain rfl : j = 0 := by omega
  simp

theorem setWidth_ofBool (p : Bool) : (BitVec.ofBool p).setWidth 32 = bit01 p := by cases p <;> rfl

/-- `plen_of` of a parsed present bit as a shift (R130). -/
theorem plenOf_setWidth (z : BitVec 3) :
    (plenOf (b.extractLsb 7 7) z).setWidth 32 = if b.getLsbD 7 then (1 : Word) <<< (z.toNat + 1) else 0 := by
  rw [extractLsb_top_bit]
  cases b.getLsbD 7 with
  | false => rfl
  | true =>
    apply BitVec.eq_of_toNat_eq
    rw [BitVec.toNat_setWidth, BitVec.ofBool_true, plenOf_one_toNat]
    simp [Nat.shiftLeft_eq]

theorem lsdNoncanon_eq : lsdNoncanon b = (!b.getLsbD 7 && b.extractLsb 2 0 != 0) := by
  rw [lsdNoncanon, extractLsb_top_bit]
  cases b.getLsbD 7 <;> simp [bne, beq_eq_decide]

theorem imgNoncanon_eq : imgNoncanon b = (lsdNoncanon b || b.extractLsb 4 3 != 0) := by
  simp [imgNoncanon, lsdNoncanon, bne, beq_eq_decide]

theorem gceNoncanon_eq : gceNoncanon b = (b.extractLsb 7 5 != 0 || decide (3 < (b.extractLsb 4 2).toNat)) := by
  rw [Bool.eq_iff_iff]
  simp only [gceNoncanon, dispOk, decide_eq_false_iff_not, Nat.not_le, Bool.or_eq_true, bne_iff_ne, decide_eq_true_eq]

/-! Bit 17 of an unpacked word is NONCANON. -/

theorem lsdFields_bit17 : (lsdFields b).getLsbD 17 = lsdNoncanon b := by
  simp only [lsdFields, BitVec.getLsbD_append]
  simp

theorem imgFields_bit17 : (imgFields b).getLsbD 17 = imgNoncanon b := by
  simp only [imgFields, BitVec.getLsbD_append]
  simp

theorem gceFields_bit17 : (gceFields b).getLsbD 17 = gceNoncanon b := by
  simp only [gceFields, BitVec.getLsbD_append]
  simp

/-! The canonical bytes. -/

theorem lsdNoncanon_eq_false_iff : lsdNoncanon b = false ↔ b.extractLsb 7 7 = 1 ∨ b.extractLsb 2 0 = 0 := by
  obtain h | h := BitVec.eq_zero_or_eq_one (b.extractLsb 7 7) <;> simp [lsdNoncanon, h]

theorem imgNoncanon_eq_false_iff : imgNoncanon b = false ↔
    (b.extractLsb 7 7 = 1 ∨ b.extractLsb 2 0 = 0) ∧ b.extractLsb 4 3 = 0 := by
  rw [← lsdNoncanon_eq_false_iff]
  simp [imgNoncanon_eq]

theorem gceNoncanon_eq_false_iff : gceNoncanon b = false ↔
    b.extractLsb 7 5 = 0 ∧ dispOk (b.extractLsb 4 2) = true := by
  simp [gceNoncanon]

end

/-- Settles O15: the word's field picture is the shifts of the statement, its bit 17 NONCANON. -/
theorem unpackLsdParsesTheHeaderFlags : Obligations.UnpackLsdParsesTheHeaderFlags := by
  refine ⟨fun s b => ?_, fun s w => writeReg_cmd_of_opcode (r := opcodeMap[4]) (List.getElem_mem _) (by decide), ?_⟩
  · have hword := (BitVec.setWidth_eq (lsdFields b)).symm.trans (lsdWord_setWidth ..)
    rw [plenOf_setWidth, setWidth_ofBool, lsdNoncanon_eq] at hword
    rw [exec_flag_of_wellFormed rfl rfl, flagResult, hword]
  · simp only [lsdFields_bit17]
    decide +kernel

/-- Settles O16 in the way of UNPACK_LSD, with the field picture of R141. -/
theorem unpackImgParsesTheImageFlags : Obligations.UnpackImgParsesTheImageFlags := by
  refine ⟨fun s b => ?_, fun s w => writeReg_cmd_of_opcode (r := opcodeMap[5]) (List.getElem_mem _) (by decide), ?_⟩
  · have hword := (BitVec.setWidth_eq (imgFields b)).symm.trans (imgWord_setWidth ..)
    rw [plenOf_setWidth, setWidth_ofBool, imgNoncanon_eq, lsdNoncanon_eq] at hword
    rw [exec_flag_of_wellFormed rfl rfl, flagResult, hword]
  · simp only [imgFields_bit17]
    decide +kernel

/-- Settles O17: a byte is canonical exactly if its bits 4 to 7 are 0. -/
theorem unpackGceParsesTheControlFlags : Obligations.UnpackGceParsesTheControlFlags := by
  refine ⟨fun s b => ?_, fun s w => writeReg_cmd_of_opcode (r := opcodeMap[6]) (List.getElem_mem _) (by decide),
    fun b => ?_⟩
  · have hword := (BitVec.setWidth_eq (gceFields b)).symm.trans (gceWord_setWidth ..)
    rw [setWidth_ofBool, gceNoncanon_eq] at hword
    rw [exec_flag_of_wellFormed rfl rfl, flagResult, hword]
  · simp only [gceFields_bit17, gceNoncanon_eq_false_iff, dispOk, decide_eq_true_eq, extractLsb_eq_iff,
      extractLsb_toNat_eq, BitVec.ofNat_eq_ofNat, BitVec.toNat_ofNat]
    omega

/-! ### Round trip (R143) -/

/-- A command word rebuilt from the low `k` bits of a result, as a number. -/
theorem repack_toNat {r m opc : Word} {k : Nat} (hk : k ≤ 24) (hm : m.toNat = 2 ^ k - 1) (hopc : opc.toNat < 2 ^ 8) :
    (((r &&& m) <<< 8) ||| opc).toNat = r.toNat % 2 ^ k * 2 ^ 8 + opc.toNat := by
  have hlow : r.toNat % 2 ^ k < 2 ^ 24 :=
    (Nat.mod_lt _ (Nat.two_pow_pos k)).trans_le (Nat.pow_le_pow_right (by decide) hk)
  rw [BitVec.toNat_or, BitVec.toNat_shiftLeft, BitVec.toNat_and, hm, Nat.and_two_pow_sub_one_eq_mod, Nat.shiftLeft_eq,
    Nat.mod_eq_of_lt (by omega), ← Nat.shiftLeft_eq, ← Nat.shiftLeft_add_eq_or_of_lt hopc]

section

variable (b : Byte)

/-- The word rebuilt from an unpacked byte is the pack command of its fields, whether or not the byte is canonical. -/
theorem repack_lsdFields : ((lsdFields b &&& 0x1FFF) <<< 8) ||| 0x10 = encodeWord
    (.packLsd (plenOf (b.extractLsb 7 7) (b.extractLsb 2 0)) (b.extractLsb 6 4) (b.extractLsb 3 3)) := by
  apply BitVec.eq_of_toNat_eq
  rw [repack_toNat (k := 13) (by decide) rfl (by decide)]
  simp only [lsdFields, encodeWord, toNat_append_eq_add, BitVec.ofNat_eq_ofNat, BitVec.toNat_ofNat]
  omega

theorem repack_imgFields : ((imgFields b &&& 0x7FF) <<< 8) ||| 0x11 = encodeWord
    (.packImg (plenOf (b.extractLsb 7 7) (b.extractLsb 2 0)) (b.extractLsb 6 6) (b.extractLsb 5 5)) := by
  apply BitVec.eq_of_toNat_eq
  rw [repack_toNat (k := 11) (by decide) rfl (by decide)]
  simp only [imgFields, encodeWord, toNat_append_eq_add, BitVec.ofNat_eq_ofNat, BitVec.toNat_ofNat]
  omega

theorem repack_gceFields : ((gceFields b &&& 0x1F) <<< 8) ||| 0x12 = encodeWord
    (.packGce (b.extractLsb 4 2) (b.extractLsb 1 1) (b.extractLsb 0 0)) := by
  apply BitVec.eq_of_toNat_eq
  rw [repack_toNat (k := 5) (by decide) rfl (by decide)]
  simp only [gceFields, encodeWord, toNat_append_eq_add, BitVec.ofNat_eq_ofNat, BitVec.toNat_ofNat]
  omega

/-! A byte is made of its fields, RSV being 0 where the pack command emits 0. -/

theorem lsdPicture_of_fields : b.extractLsb 7 7 ++ b.extractLsb 6 4 ++ b.extractLsb 3 3 ++ b.extractLsb 2 0 = b := by
  apply BitVec.eq_of_toNat_eq
  simp only [toNat_append_eq_add, extractLsb_toNat_eq]
  omega

theorem imgPicture_of_fields (hrsv : b.extractLsb 4 3 = 0) :
    b.extractLsb 7 7 ++ b.extractLsb 6 6 ++ b.extractLsb 5 5 ++ 0#2 ++ b.extractLsb 2 0 = b := by
  apply BitVec.eq_of_toNat_eq
  simp only [extractLsb_eq_iff, BitVec.ofNat_eq_ofNat, BitVec.toNat_ofNat] at hrsv
  simp only [toNat_append_eq_add, extractLsb_toNat_eq, BitVec.toNat_ofNat]
  omega

theorem gceByte_of_fields (hrsv : b.extractLsb 7 5 = 0) :
    gceByte (b.extractLsb 4 2) (b.extractLsb 1 1) (b.extractLsb 0 0) = b := by
  apply BitVec.eq_of_toNat_eq
  simp only [extractLsb_eq_iff, BitVec.ofNat_eq_ofNat, BitVec.toNat_ofNat] at hrsv
  simp only [gceByte, toNat_append_eq_add, extractLsb_toNat_eq, BitVec.toNat_ofNat]
  omega

end

/-! The fields of a packed byte (R131 to R133). -/

theorem lsdByte_fields (plen : BitVec 9) (cres : BitVec 3) (sort : BitVec 1) :
    (lsdByte plen cres sort).extractLsb 7 7 = present plen ∧ (lsdByte plen cres sort).extractLsb 6 4 = cres ∧
      (lsdByte plen cres sort).extractLsb 3 3 = sort ∧ (lsdByte plen cres sort).extractLsb 2 0 = sizeCode plen := by
  simp only [lsdByte, extractLsb_eq_iff, toNat_append_eq_add]
  omega

theorem imgByte_fields (plen : BitVec 9) (ilace sort : BitVec 1) :
    (imgByte plen ilace sort).extractLsb 7 7 = present plen ∧ (imgByte plen ilace sort).extractLsb 6 6 = ilace ∧
      (imgByte plen ilace sort).extractLsb 5 5 = sort ∧ (imgByte plen ilace sort).extractLsb 4 3 = 0#2 ∧
      (imgByte plen ilace sort).extractLsb 2 0 = sizeCode plen := by
  simp only [imgByte, extractLsb_eq_iff, toNat_append_eq_add, BitVec.toNat_ofNat]
  omega

theorem gceByte_fields (disp : BitVec 3) (uin trn : BitVec 1) :
    (gceByte disp uin trn).extractLsb 7 5 = 0#3 ∧ (gceByte disp uin trn).extractLsb 4 2 = disp ∧
      (gceByte disp uin trn).extractLsb 1 1 = uin ∧ (gceByte disp uin trn).extractLsb 0 0 = trn := by
  simp only [gceByte, extractLsb_eq_iff, toNat_append_eq_add, BitVec.toNat_ofNat]
  omega

/-! Repacking a canonical byte yields the byte. -/

section

variable {b : Byte}

theorem writeReg_repack_lsdFields (h : lsdNoncanon b = false) (s : State) :
    writeReg .cmd (((lsdFields b &&& 0x1FFF) <<< 8) ||| 0x10) s =
      .next { s with result := b.setWidth 32, resp := .done } := by
  rw [repack_lsdFields, writeReg_cmd_encodeWord rfl, exec_packLsd_plenOf ((lsdNoncanon_eq_false_iff b).1 h),
    lsdPicture_of_fields]

theorem writeReg_repack_imgFields (h : imgNoncanon b = false) (s : State) :
    writeReg .cmd (((imgFields b &&& 0x7FF) <<< 8) ||| 0x11) s =
      .next { s with result := b.setWidth 32, resp := .done } := by
  obtain ⟨hsize, hrsv⟩ := (imgNoncanon_eq_false_iff b).1 h
  rw [repack_imgFields, writeReg_cmd_encodeWord rfl, exec_packImg_plenOf hsize, imgPicture_of_fields b hrsv]

theorem writeReg_repack_gceFields (h : gceNoncanon b = false) (s : State) :
    writeReg .cmd (((gceFields b &&& 0x1F) <<< 8) ||| 0x12) s =
      .next { s with result := b.setWidth 32, resp := .done } := by
  obtain ⟨hrsv, hdisp⟩ := (gceNoncanon_eq_false_iff b).1 h
  rw [repack_gceFields, writeReg_cmd_encodeWord rfl, exec_flag_of_wellFormed (i := .packGce ..) rfl hdisp, flagResult,
    gceByte_of_fields b hrsv]

end

/-- Settles O18: repacked fields are a pack command's word, and a packed byte holds the command's fields. -/
theorem flagCodecRoundTrips : Obligations.FlagCodecRoundTrips := by
  simp only [Obligations.FlagCodecRoundTrips, lsdFields_bit17, imgFields_bit17, gceFields_bit17]
  refine ⟨fun s b =>
      ⟨(writeReg_repack_lsdFields · s), (writeReg_repack_imgFields · s), (writeReg_repack_gceFields · s)⟩,
    fun plen cres sort hok => ?_, fun plen ilace sort hok => ?_, fun disp uin trn hok => ?_⟩
  · obtain ⟨hp, hc, hs, hz⟩ := lsdByte_fields plen cres sort
    obtain ⟨hplen, hcanon⟩ := plenOf_present_sizeCode hok
    rw [lsdNoncanon_eq_false_iff, repack_lsdFields, hp, hc, hs, hz, hplen]
    exact ⟨hcanon, rfl⟩
  · obtain ⟨hp, hi, hs, hr, hz⟩ := imgByte_fields plen ilace sort
    obtain ⟨hplen, hcanon⟩ := plenOf_present_sizeCode hok
    rw [imgNoncanon_eq_false_iff, repack_imgFields, hp, hi, hs, hr, hz, hplen]
    exact ⟨⟨hcanon, rfl⟩, rfl⟩
  · obtain ⟨hr, hd, hu, ht⟩ := gceByte_fields disp uin trn
    rw [gceNoncanon_eq_false_iff, repack_gceFields, hr, hd, hu, ht]
    exact ⟨⟨rfl, hok⟩, rfl⟩

end Sys2Proof
end

section
/-! Proofs of the LZW family: the bit stream, what a data byte does to the engine, the code stream and its decoder. -/

/-! ### Bit lists (41_lzw.md R172) -/

namespace Sys2Proof

open Machine

/-- The lowest `n` bits of a number, least significant first: the order in which codes, bytes and pending bits lie in the
stream (R172). -/
def bitsOf (n v : Nat) : List Bool := (List.range n).map v.testBit

theorem codeBits_eq (c : Coded) : codeBits c = bitsOf c.width c.code := rfl

theorem pendingBits_eq (z : Lzw) : pendingBits z = bitsOf z.bitcnt z.bitbuf := rfl

@[simp] theorem bitsOf_length (n v : Nat) : (bitsOf n v).length = n := by simp [bitsOf]

theorem bitsOf_succ (n v : Nat) : bitsOf (n + 1) v = v.testBit 0 :: bitsOf n (v / 2) := by
  simp [bitsOf, List.range_succ_eq_map, Nat.testBit_succ]

theorem bitsOf_add (n m v : Nat) : bitsOf (n + m) v = bitsOf n v ++ bitsOf m (v >>> n) := by
  simp [bitsOf, List.range_add]

theorem bitsOf_zero (n : Nat) : bitsOf n 0 = List.replicate n false := by
  simp [bitsOf, List.eq_replicate_iff]

/-- Joining bits above the `n` in use appends them (R172). -/
theorem bitsOf_or_shiftLeft {n v : Nat} (h : v < 2 ^ n) (m c : Nat) :
    bitsOf (n + m) (v ||| (c <<< n)) = bitsOf n v ++ bitsOf m c := by
  have hlow : (v ||| (c <<< n)) >>> n = c := by
    rw [Nat.shiftRight_or_distrib, Nat.shiftLeft_shiftRight, Nat.shiftRight_eq_zero v n h, Nat.zero_or]
  rw [bitsOf_add, hlow]
  refine congrArg (· ++ _) (List.map_congr_left fun j hj => ?_)
  simp [Nat.testBit_or, Nat.testBit_shiftLeft, Nat.not_le.2 (List.mem_range.1 hj)]

theorem bitsValue_bitsOf {n v : Nat} (h : v < 2 ^ n) : bitsValue (bitsOf n v) = v := by
  induction n generalizing v with
  | zero => exact (Nat.lt_one_iff.1 h).symm
  | succ n ih =>
    rw [bitsOf_succ, bitsValue, ih (by omega), Nat.testBit_zero]
    rcases Nat.mod_two_eq_zero_or_one v with hv | hv <;> simp [hv] <;> omega

/-- Zero bits at the top do not count. -/
theorem bitsValue_append_replicate (bits : List Bool) (n : Nat) :
    bitsValue (bits ++ List.replicate n false) = bitsValue bits := by
  induction bits with
  | nil => induction n with
    | zero => rfl
    | succ n ih => simpa [List.replicate_succ, bitsValue] using ih
  | cons b bits ih => simp only [List.cons_append, bitsValue, ih]

/-! ### Bytes in the stream -/

theorem streamBits_append (s t : List Byte) : streamBits (s ++ t) = streamBits s ++ streamBits t :=
  List.flatMap_append

theorem streamBits_cons (b : Byte) (s : List Byte) : streamBits (b :: s) = bitsOf 8 b.toNat ++ streamBits s := rfl

@[simp] theorem streamBits_length (s : List Byte) : (streamBits s).length = 8 * s.length := by
  induction s with
  | nil => rfl
  | cons b s ih =>
    rw [streamBits_cons, List.length_append, ih, bitsOf_length, List.length_cons]
    omega

/-- A byte sunk from BITBUF carries its lowest 8 bits. -/
theorem bitsOf_toNat_ofNat (v : Nat) : bitsOf 8 (BitVec.ofNat 8 v).toNat = bitsOf 8 v := by
  refine List.map_congr_left fun j hj => ?_
  rw [BitVec.toNat_ofNat, Nat.testBit_mod_two_pow, decide_eq_true (List.mem_range.1 hj), Bool.true_and]

/-- Bytes whose bits are those of a stream, with fewer than 8 zero bits after them, are the stream packed (R172, R179). -/
theorem packBits_eq {n pad : Nat} {bits : List Bool} {s : List Byte} (hn : bits.length ≤ n) (hpad : pad < 8)
    (h : streamBits s = bits ++ List.replicate pad false) : packBits n bits = s := by
  induction s generalizing n pad bits with
  | nil =>
    obtain ⟨rfl, -⟩ := List.append_eq_nil_iff.1 h.symm
    cases n <;> rfl
  | cons b s ih =>
    have hlen := congrArg List.length h
    simp only [streamBits_length, List.length_cons, List.length_append, List.length_replicate] at hlen
    have hne : bits ≠ [] := by
      rintro rfl
      rw [List.length_nil] at hlen
      omega
    obtain ⟨n, rfl⟩ : ∃ m, n = m + 1 := Nat.exists_eq_add_one.2 ((List.length_pos_iff.2 hne).trans_le hn)
    rw [streamBits_cons] at h
    have htake : bitsOf 8 b.toNat = bits.take 8 ++ List.replicate (min (8 - bits.length) pad) false := by
      simpa [List.take_append] using congrArg (List.take 8) h
    have hdrop : streamBits s = bits.drop 8 ++ List.replicate (pad - (8 - bits.length)) false := by
      simpa [List.drop_append] using congrArg (List.drop 8) h
    have hbyte : bitsValue (bits.take 8) = b.toNat := by
      rw [← bitsValue_append_replicate, ← htake, bitsValue_bitsOf b.isLt]
    rw [packBits, if_neg hne, hbyte, BitVec.ofNat_toNat, BitVec.setWidth_eq, ih (by simp; omega) (by omega) hdrop]

/-- As many bits as the codes' widths add up to. -/
theorem flatMap_codeBits_length (cs : List Coded) : (cs.flatMap codeBits).length = (cs.map Coded.width).sum := by
  simp [List.length_flatMap, codeBits]

/-! ### The bit packer (R172) -/

/-- The sinking loop moves bits from BITBUF to the stream and loses none, whatever its bound. -/
theorem streamBits_sinkBytes (n : Nat) (z : Lzw) :
    streamBits (sinkBytes n z).2 ++ pendingBits (sinkBytes n z).1 = pendingBits z := by
  induction n generalizing z with
  | zero => rfl
  | succ n ih =>
    unfold sinkBytes
    split
    · next h8 =>
      rw [streamBits_cons, List.append_assoc, ih, bitsOf_toNat_ofNat, pendingBits_eq, pendingBits_eq, ← bitsOf_add,
        Nat.add_sub_cancel' h8]
    · rfl

/-- The code's bits follow the pending ones (R172). -/
theorem streamBits_emitCode {z : Lzw} (h : z.bitbuf < 2 ^ z.bitcnt) (c : Nat) :
    streamBits (emitCode c z).2 ++ pendingBits (emitCode c z).1 = pendingBits z ++ codeBits ⟨c, z.width⟩ := by
  rw [emitCode, streamBits_sinkBytes]
  exact bitsOf_or_shiftLeft h z.width c

/-- The final byte carries the pending bits and zero bits above them (R178, R179). -/
theorem streamBits_flushBits {z : Lzw} (hcnt : z.bitcnt ≤ 7) (hbuf : z.bitbuf < 2 ^ z.bitcnt) :
    ∃ pad < 8, streamBits (flushBits z).2 = pendingBits z ++ List.replicate pad false := by
  unfold flushBits
  split
  · next hpos =>
    refine ⟨8 - z.bitcnt, by omega, ?_⟩
    rw [← bitsOf_zero, ← Nat.shiftRight_eq_zero _ _ hbuf, pendingBits_eq, ← bitsOf_add, Nat.add_sub_cancel' (by omega),
      streamBits_cons, bitsOf_toNat_ofNat]
    exact List.append_nil _
  · next hzero =>
    refine ⟨0, by decide, ?_⟩
    simp [pendingBits, Nat.eq_zero_of_not_pos hzero, streamBits]

/-- Settles O21: the loop of `emit_code` only moves bits, and what it moves are the pending bits with the code's after
them. -/
theorem emitCodeAppendsTheCodeBits : Obligations.EmitCodeAppendsTheCodeBits := by
  intro z c hbuf hc
  refine ⟨streamBits_emitCode hbuf c, emitCode_bitcnt_le c z, emitCode_bitbuf_lt hbuf hc, ?_⟩
  rw [(emitCode_spec c z).1]

end Sys2Proof
end

section
/-! ### What codes stand for (41_lzw.md R171) -/

namespace Sys2Proof

open Machine

theorem codeString_ne_nil (d : List DictEntry) (c : Nat) : codeString d c ≠ [] := by
  induction d with
  | nil => simp [codeString]
  | cons e d ih =>
    rw [codeString]
    split
    · simp
    · exact ih

/-- The newest entry of a canonical dictionary has the code before NEXT, and the others form a canonical dictionary. -/
theorem DictInv.of_cons {n : Nat} {e : DictEntry} {d : List DictEntry} (h : DictInv n (e :: d)) :
    n = e.code + 1 ∧ 258 ≤ e.code ∧ DictInv e.code d := by
  obtain ⟨hge, hlt⟩ := dictInv_code_lt h List.mem_cons_self
  have hcodes := h.codes
  obtain ⟨m, rfl⟩ : ∃ m, n = m + 1 := Nat.exists_eq_add_one.2 (by omega)
  rw [codesBelow_succ (by omega), List.map_cons, List.cons.injEq] at hcodes
  obtain ⟨rfl, hrest⟩ := hcodes
  exact ⟨rfl, hge, hrest, h.keys.of_cons, fun f hf => h.prefixes f (List.mem_cons_of_mem _ hf)⟩

theorem DictInv.codeString_literal {n c : Nat} {d : List DictEntry} (h : DictInv n d) (hc : c < 256) :
    codeString d c = [BitVec.ofNat 8 c] :=
  Machine.codeString_literal fun _ he heq => by
    obtain ⟨hge, -⟩ := dictInv_code_lt h he
    omega

theorem DictInv.codeString_byte {n : Nat} {d : List DictEntry} (h : DictInv n d) (k : Byte) :
    codeString d k.toNat = [k] := by
  rw [h.codeString_literal k.isLt, BitVec.ofNat_toNat, BitVec.setWidth_eq]

/-- The code an entry extends is older than the entry, so it stands for the same string with the entry as without it. -/
theorem DictInv.codeString_entry {n : Nat} {d : List DictEntry} (h : DictInv n d) {e : DictEntry} (he : e ∈ d) :
    codeString d e.code = codeString d e.pre ++ [e.byte] := by
  induction d generalizing n with
  | nil => cases he
  | cons f d ih =>
    obtain ⟨-, hf, hd⟩ := h.of_cons
    have hpre := h.prefixes e he
    rcases List.mem_cons.1 he with rfl | hmem
    · rw [codeString, if_pos rfl, codeString_cons_ne (by omega)]
    · obtain ⟨-, hlt⟩ := dictInv_code_lt hd hmem
      rw [codeString_cons_ne (by omega), codeString_cons_ne (by omega), ih hd hmem]

/-- Settles O55: literals have no entry, and the code an entry extends is found behind it in the list. -/
theorem codesStandForStrings : Obligations.CodesStandForStrings := fun _ _ h =>
  ⟨h.codeString_byte, fun _ => h.codeString_entry⟩

end Sys2Proof
end

section
/-! ### What a data byte does (41_lzw.md R175, R177) -/

namespace Sys2Proof

open Machine

/-- The ways of a data byte: the next engine, the bytes sunk and the codes emitted. -/
inductive ByteStep (k : Byte) (z : Lzw) : Lzw → List Byte → List Coded → Prop
  | start : z.cur = none → ByteStep k z { z with cur := some k.toNat } [] []
  | extend (e : DictEntry) : z.cur = some e.pre → e ∈ z.dict → e.byte = k →
      ByteStep k z { z with cur := some e.code } [] []
  | emit (p : Nat) : z.cur = some p → lookup p k z.dict = none → z.next + 1 ≠ 4096 →
      ByteStep k z
        { (emitCode p z).1 with
          dict := { pre := p, byte := k, code := z.next } :: z.dict
          next := z.next + 1
          width := if z.next = 2 ^ z.width then z.width + 1 else z.width
          cur := some k.toNat }
        (emitCode p z).2 [⟨p, z.width⟩]
  | clear (p : Nat) : z.cur = some p → z.next + 1 = 4096 →
      ByteStep k z { resetDict (emitCode Const.clear (emitCode p z).1).1 with cur := some k.toNat }
        ((emitCode p z).2 ++ (emitCode Const.clear (emitCode p z).1).2) [⟨p, z.width⟩, ⟨256, z.width⟩]

/-- `lzw_byte` and its codes are one of these ways. -/
theorem byteStep (k : Byte) (z : Lzw) : ByteStep k z (lzwByte k z).1 (lzwByte k z).2 (byteCodes k z) := by
  cases hcur : z.cur with
  | none =>
    have hcodes : byteCodes k z = [] := by simp [byteCodes, hcur]
    rw [lzwByte_start hcur, hcodes]
    exact .start hcur
  | some p =>
    cases hl : lookup p k z.dict with
    | some c =>
      have hcodes : byteCodes k z = [] := by simp [byteCodes, hcur, hl]
      obtain ⟨e, he, rfl, hbyte, rfl⟩ := lookup_eq_some hl
      rw [lzwByte_extend hcur hl, hcodes]
      exact .extend e hcur he hbyte
    | none =>
      by_cases hn : z.next + 1 = 4096
      · have hcodes : byteCodes k z = [⟨p, z.width⟩, ⟨256, z.width⟩] := by simp [byteCodes, hcur, hl, hn]
        rw [lzwByte_clear hcur hl hn, hcodes]
        exact .clear p hcur hn
      · have hcodes : byteCodes k z = [⟨p, z.width⟩] := by simp [byteCodes, hcur, hl, hn]
        rw [lzwByte_emit hcur hl hn, hcodes]
        exact .emit p hcur hl hn

/-- Settles O22: the three cases of `lzw_byte` below the limit; a canonical dictionary has one entry for a key. -/
theorem lzwByteExtendsOrEmitsTheMatch : Obligations.LzwByteExtendsOrEmitsTheMatch := by
  refine fun z k => ⟨lzwByte_start, ?_, fun p hcur hnew hn => lzwByte_emit hcur (lookup_eq_none.2 hnew) hn⟩
  rintro p e hd hcur he rfl rfl
  exact lzwByte_extend hcur (lookup_of_mem hd he)

/-- Settles O23: with NEXT = 4095 the case of `lzw_byte` that clears; its engine, field by field. -/
theorem fullDictionaryClears : Obligations.FullDictionaryClears := fun _ _ _ hcur hnew hn =>
  lzwByte_clear hcur (lookup_eq_none.2 hnew) (congrArg (· + 1) hn)

/-- Settles O25: the widths and the pending bits of the invariant bound what leaves; `flushBits` empties BITBUF. -/
theorem lzwSinkBounds : Obligations.LzwSinkBounds := by
  intro z hz
  obtain ⟨hge, hle⟩ := hz.lzwEnd_length
  exact ⟨hz.lzwByte_length_le, hge, hle, rfl, rfl⟩

/-- Settles O20, the engine and the byte of `lzw_init` as they are. -/
theorem lzwInitSinksOneZeroByte : Obligations.LzwInitSinksOneZeroByte := lzwInit_eq

/-- Settles O26 by running the compressor on no data byte. -/
theorem emptyInputGivesClearEoi : Obligations.EmptyInputGivesClearEoi := by
  unfold Obligations.EmptyInputGivesClearEoi
  decide

end Sys2Proof
end

section
/-! ### The match is the unemitted input (41_lzw.md R182) -/

namespace Sys2Proof

open Machine

section
variable {k : Byte} {z z' : Lzw} {bs : List Byte} (hz : LzwInv z)
include hz

/-- A byte that emits nothing joins the match. -/
theorem ByteStep.match_append (h : ByteStep k z z' bs []) : matchString z' = matchString z ++ [k] := by
  cases h with
  | start hcur =>
    rw [matchString_none hcur]
    exact hz.dict.codeString_byte k
  | extend e hcur he hbyte =>
    subst hbyte
    rw [matchString_some hcur]
    exact hz.dict.codeString_entry he

/-- The first code a byte emits is the match, and the byte alone is the next one. -/
theorem ByteStep.match_restart {c : Coded} {cs : List Coded} (h : ByteStep k z z' bs (c :: cs)) :
    z.cur = some c.code ∧ matchString z' = [k] := by
  cases h with
  | emit p hcur hl hn => exact ⟨hcur, (dictInv_insert hz.dict hz.next_ge (hz.cur p hcur) hl).codeString_byte k⟩
  | clear p hcur hn => exact ⟨hcur, dictInv_empty.codeString_byte k⟩

theorem LzwInv.matchString_lzwByte (k : Byte) :
    matchString (Machine.lzwByte k z).1 = unemittedAfter k z (matchString z) := by
  have hstep := byteStep k z
  cases hcodes : byteCodes k z with
  | nil =>
    rw [hcodes] at hstep
    rw [unemittedAfter_nil hcodes, hstep.match_append hz]
  | cons c cs =>
    rw [hcodes] at hstep
    obtain ⟨-, hmatch⟩ := hstep.match_restart hz
    rw [unemittedAfter_cons hcodes, hmatch]

end

theorem LzwInv.matchString_lzwBytes {z : Lzw} (hz : LzwInv z) (x : List Byte) :
    matchString (lzwBytes x z).1 = unemitted x z (matchString z) := by
  induction x generalizing z with
  | nil => rfl
  | cons k x ih => simp only [lzwBytes, unemitted, ih (hz.lzwByte k), hz.matchString_lzwByte]

theorem LzwInv.lzwBytes {z : Lzw} (hz : LzwInv z) (x : List Byte) : LzwInv (Machine.lzwBytes x z).1 := by
  induction x generalizing z with
  | nil => exact hz
  | cons k x ih => exact ih (hz.lzwByte k)

theorem matchString_lzwInit : matchString lzwInit.1 = [] := by
  rw [lzwInit_eq]
  rfl

/-- Settles O56, by the ways of a data byte and an induction on the input. -/
theorem matchIsTheUnemittedInput : Obligations.MatchIsTheUnemittedInput := by
  refine ⟨matchString_lzwInit, fun z k hz => ⟨hz.matchString_lzwByte k, fun c cs hcodes => ?_⟩, fun x => ?_⟩
  · have hstep := byteStep k z
    rw [hcodes] at hstep
    obtain ⟨hcur, -⟩ := hstep.match_restart hz
    exact (matchString_some hcur).symm
  · rw [lzwInv_lzwInit.matchString_lzwBytes, matchString_lzwInit]

/-! ### The same in a running job -/

section
variable {i : Instr} {s t : State}

/-- An accepted data byte is that of a FEED at a ready block (R256). -/
theorem acceptedByte_ne_nil (h : acceptedByte i s ≠ []) :
    ∃ k, i = .feed k ∧ inReady s = true ∧ acceptedByte i s = [k] := by
  cases i with
  | feed k => cases hready : inReady s <;> simp_all [acceptedByte]
  | _ => exact absurd rfl h

/-- Within an LZW or IMGDATA job an operation that gets no byte accepted leaves the job running and its engine alone. -/
theorem Machine.Effect.keeps_lzw (he : Effect s i t) (hu : usesLzw s) (hwithin : withinJob i s = true)
    (hacc : acceptedByte i s = []) : usesLzw t ∧ t.lzw = s.lzw := by
  have hrun := hu.1
  cases he with
  | nothing | answered | result | errclr | popped => exact ⟨hu, rfl⟩
  | refused => simpa [usesLzw] using hu
  | srst => simp [withinJob] at hwithin
  | startLzw hok | startChunk hok | startImgdata hok => simp [startError_eq_none, hrun] at hok
  | feedLzw k hready | feedChunk k hready | feedImgdata k hready => simp [acceptedByte, hready] at hacc
  | endLzw hready | endChunk hready | endImgdata hready => simp [withinJob, hready] at hwithin

/-- Within an LZW or IMGDATA job the engine takes the accepted bytes, and the job goes on. -/
theorem exec_within_lzw_job (hu : usesLzw s) (hwithin : withinJob i s = true) (h : exec i s = .next t) :
    usesLzw t ∧ t.lzw = (lzwBytes (acceptedByte i s) s.lzw).1 := by
  by_cases hacc : acceptedByte i s = []
  · rw [hacc]
    exact (exec_effect h).keeps_lzw hu hwithin hacc
  · obtain ⟨k, rfl, hready, hk⟩ := acceptedByte_ne_nil hacc
    rw [hk]
    obtain ⟨e, he, -⟩ | ⟨-, -, rfl⟩ | ⟨-, hm, -⟩ | ⟨-, -, rfl⟩ := execFeed_next h
    · simp [tokenError_eq_none.2 hready] at he
    · exact ⟨hu, rfl⟩
    · simp [usesLzw, hm] at hu
    · exact ⟨hu, rfl⟩

/-- A run of operations goes through a state after its first operation. -/
theorem runOps_cons {is : List Instr} {r : RunResult} (h : runOps (i :: is) s = some r) :
    ∃ u q, exec i s = .next u ∧ runOps is u = some q ∧ r.state = q.state ∧ r.fed = acceptedByte i s ++ q.fed := by
  unfold runOps at h
  split at h
  · next u hu =>
    obtain ⟨q, hq, rfl⟩ := Option.map_eq_some_iff.1 h
    exact ⟨u, q, hu, hq, rfl, rfl⟩
  · cases h
  · cases h

end

/-- Along a run within the job str(CUR) is what the accepted bytes leave unemitted (R182). -/
theorem matchString_runOps {body : List Instr} {s : State} {r : RunResult} (hinv : LzwInv s.lzw) (hu : usesLzw s)
    (hwithin : runsWithinJob body s) (hrun : runOps body s = some r) :
    matchString r.state.lzw = unemitted r.fed s.lzw (matchString s.lzw) := by
  induction body generalizing s r with
  | nil =>
    cases hrun
    rfl
  | cons i body ih =>
    obtain ⟨t, q, ht, hq, hstate, hfed⟩ := runOps_cons hrun
    obtain ⟨hi, hrest⟩ := hwithin
    obtain ⟨hut, hlzw⟩ := exec_within_lzw_job hu hi ht
    have hinvt : LzwInv t.lzw := hlzw ▸ hinv.lzwBytes _
    rw [hstate, ih hinvt hut (hrest t ht) hq, hfed, unemitted_append, hlzw, hinv.matchString_lzwBytes]

/-- Settles O57: an accepted start leaves the fresh engine of `lzw_init`, and a run within the job feeds it the accepted
bytes. -/
theorem jobMatchIsItsUnemittedInput : Obligations.JobMatchIsItsUnemittedInput := by
  intro start body s s1 r _ hstart hok hexec hwithin hrun
  have hfresh : usesLzw s1 ∧ s1.lzw = lzwInit.1 := by
    rcases hstart with rfl | rfl
    · obtain ⟨e, he, -⟩ | ⟨-, rfl⟩ := execLzwStart_next hexec
      · simp [hok] at he
      · exact ⟨⟨rfl, .inl rfl⟩, rfl⟩
    · obtain ⟨e, he, -⟩ | ⟨-, rfl⟩ := execImgdataStart_next hexec
      · simp [hok] at he
      · exact ⟨⟨rfl, .inr rfl⟩, rfl⟩
  obtain ⟨hu, hlzw⟩ := hfresh
  have hinv : LzwInv s1.lzw := hlzw ▸ lzwInv_lzwInit
  rw [matchString_runOps hinv hu hwithin hrun, hlzw, matchString_lzwInit]

end Sys2Proof
end

section
/-! ### The stream is the packed code stream (41_lzw.md R172, R176, R179) -/

namespace Sys2Proof

open Machine

/-- The bits of what a data byte sinks and leaves pending are those pending before and those of its codes. -/
theorem ByteStep.bits {k : Byte} {z z' : Lzw} {bs : List Byte} {cs : List Coded} (hz : LzwInv z)
    (h : ByteStep k z z' bs cs) : streamBits bs ++ pendingBits z' = pendingBits z ++ cs.flatMap codeBits := by
  cases h with
  | start | extend => exact (List.append_nil _).symm
  | emit p hcur hl hn =>
    rw [List.flatMap_singleton]
    exact streamBits_emitCode hz.bitbuf_lt p
  | clear p hcur hn =>
    have hmatch := streamBits_emitCode hz.bitbuf_lt p
    have hclear := streamBits_emitCode (emitCode_bitbuf_lt hz.bitbuf_lt (hz.code_lt (hz.cur p hcur))) 256
    rw [emitCode_width] at hclear
    rw [streamBits_append, List.append_assoc, List.flatMap_cons, List.flatMap_singleton,
      ← List.append_assoc (pendingBits z), ← hmatch, List.append_assoc, ← hclear]
    rfl

/-- CLEAR and EOI fit every width (R170). -/
theorem eoi_lt_two_pow {w : Nat} (hw : 9 ≤ w) : 257 < 2 ^ w :=
  Nat.lt_of_lt_of_le (by decide : 257 < 2 ^ 9) (Nat.pow_le_pow_right (by decide) hw)

theorem eoi_ne_clear : Const.eoi ≠ Const.clear := by decide

theorem endCodes_none {z : Lzw} (hcur : z.cur = none) : endCodes z = [⟨257, z.width⟩] := by simp [endCodes, hcur]

theorem endCodes_some {z : Lzw} {p : Nat} (hcur : z.cur = some p) :
    endCodes z = [⟨p, z.width⟩, ⟨257, if z.next = 2 ^ z.width then z.width + 1 else z.width⟩] := by
  simp [endCodes, hcur]

/-- With no match in progress END emits EOI only (R178). -/
theorem emitCurrent_none {z : Lzw} (hcur : z.cur = none) : emitCurrent z = (z, []) := by simp [emitCurrent, hcur]

/-- A match in progress leaves as the last data code, after which the codes may widen (R178). -/
theorem emitCurrent_some {z : Lzw} {p : Nat} (hcur : z.cur = some p) :
    emitCurrent z =
      ({ (emitCode p z).1 with width := if z.next = 2 ^ z.width then z.width + 1 else z.width }, (emitCode p z).2) := by
  simp only [emitCurrent, hcur, emitCode_next, emitCode_width]
  split
  · rfl
  · rw [← emitCode_width p z, ← emitCode_next p z]

/-- What END emits before EOI, as codes and as bits; EOI has the width reached then (R178). -/
theorem LzwInv.streamBits_emitCurrent {z : Lzw} (hz : LzwInv z) :
    ∃ ds, endCodes z = ds ++ [⟨257, (emitCurrent z).1.width⟩] ∧
      streamBits (emitCurrent z).2 ++ pendingBits (emitCurrent z).1 = pendingBits z ++ ds.flatMap codeBits ∧
      (emitCurrent z).1.bitbuf < 2 ^ (emitCurrent z).1.bitcnt := by
  cases hcur : z.cur with
  | none =>
    rw [endCodes_none hcur, emitCurrent_none hcur]
    exact ⟨[], rfl, (List.append_nil _).symm, hz.bitbuf_lt⟩
  | some p =>
    rw [endCodes_some hcur, emitCurrent_some hcur]
    refine ⟨[⟨p, z.width⟩], rfl, ?_, emitCode_bitbuf_lt hz.bitbuf_lt (hz.code_lt (hz.cur p hcur))⟩
    rw [List.flatMap_singleton]
    exact streamBits_emitCode hz.bitbuf_lt p

/-- END sinks the pending bits and those of its codes, padded with zero bits to a byte (R178, R179). -/
theorem LzwInv.streamBits_lzwEnd {z : Lzw} (hz : LzwInv z) :
    ∃ pad < 8, streamBits (lzwEnd z).2 =
      pendingBits z ++ (endCodes z).flatMap codeBits ++ List.replicate pad false := by
  obtain ⟨ds, hcodes, hbits, hbuf⟩ := hz.streamBits_emitCurrent
  obtain ⟨-, hwidth, -⟩ := hz.emitCurrent_bits
  have heoi := streamBits_emitCode hbuf 257
  obtain ⟨pad, hpad, hflush⟩ :=
    streamBits_flushBits (emitCode_bitcnt_le 257 (emitCurrent z).1) (emitCode_bitbuf_lt hbuf (eoi_lt_two_pow hwidth))
  refine ⟨pad, hpad, ?_⟩
  rw [lzwEnd, streamBits_append, streamBits_append, hflush, hcodes, List.flatMap_append, List.flatMap_singleton,
    ← List.append_assoc (pendingBits z), ← hbits]
  simp only [List.append_assoc, ← heoi]

/-- From an engine in its invariant the bytes up to END carry the pending bits and the code stream, zero bits after them. -/
theorem LzwInv.streamBits_lzwTail {z : Lzw} (hz : LzwInv z) (x : List Byte) :
    ∃ pad < 8, streamBits (lzwTail x z) =
      pendingBits z ++ (codesFrom x z).flatMap codeBits ++ List.replicate pad false := by
  induction x generalizing z with
  | nil => exact hz.streamBits_lzwEnd
  | cons k x ih =>
    obtain ⟨pad, hpad, htail⟩ := ih (hz.lzwByte k)
    have hstep := (byteStep k z).bits hz
    refine ⟨pad, hpad, ?_⟩
    rw [lzwTail_cons, streamBits_append, htail, codesFrom, List.flatMap_append, ← List.append_assoc (pendingBits z),
      ← hstep]
    simp only [List.append_assoc]

/-- The bits of LZW(x) are those of its code stream, with fewer than 8 zero bits after them (R172, R179). -/
theorem streamBits_lzwStream (x : List Byte) :
    ∃ pad < 8, streamBits (lzwStream x) = (lzwCodes x).flatMap codeBits ++ List.replicate pad false := by
  obtain ⟨pad, hpad, htail⟩ := lzwInv_lzwInit.streamBits_lzwTail x
  have hinit : streamBits lzwInit.2 ++ pendingBits lzwInit.1 = codeBits ⟨256, 9⟩ := by decide
  refine ⟨pad, hpad, ?_⟩
  rw [lzwStream_eq_lzwTail, streamBits_append, htail, lzwCodes, List.flatMap_cons, ← hinit]
  simp only [List.append_assoc]

/-- Settles O27: the stream's bits are those of the code stream padded to a byte, and packing is the only way to cut such
bits into bytes. -/
theorem lzwStreamIsThePackedCodeStream : Obligations.LzwStreamIsThePackedCodeStream := by
  intro x
  obtain ⟨pad, hpad, hbits⟩ := streamBits_lzwStream x
  exact (packBits_eq (Nat.le_refl _) hpad hbits).symm

end Sys2Proof
end

section
/-! ### Widths and shape of the code stream (41_lzw.md R176, R177, R188) -/

namespace Sys2Proof

open Machine

/-- Codes of which `j` have gone before since the last CLEAR: each has the width of the schedule, and a CLEAR comes exactly
after 3838 of them (R176, R177). -/
def OnSchedule : Nat → List Coded → Prop
  | _, [] => True
  | j, c :: cs =>
    c.width = widthSchedule (j + 1) ∧ (c.code = 256 → j = 3838) ∧ OnSchedule (if c.code = 256 then 0 else j + 1) cs

theorem bitlen_eq {m k : Nat} (hge : 2 ^ k ≤ m) (hlt : m < 2 ^ (k + 1)) : bitlen m = k + 1 := by
  have hpos := Nat.two_pow_pos k
  rw [bitlen, (Nat.log2_eq_iff (by omega)).2 ⟨hge, hlt⟩]

/-- The widths of R182 are those of the schedule (R176). -/
theorem max_bitlen_eq_widthSchedule {m : Nat} (hge : 257 ≤ m) (hle : m ≤ 4095) :
    max 9 (bitlen m) = widthSchedule (m - 256) := by
  unfold widthSchedule
  split_ifs
  · exact Nat.max_eq_left (bitlen_le (by omega) (by omega))
  · rw [bitlen_eq (k := 9) (by omega) (by omega)]
    rfl
  · rw [bitlen_eq (k := 10) (by omega) (by omega)]
    rfl
  · rw [bitlen_eq (k := 11) (by omega) (by omega)]
    rfl

section
variable {z : Lzw} (hz : LzwInv z)
include hz

/-- With NEXT = n, n − 258 codes have left since CLEAR, and the next one has the width of its place (R176). -/
theorem LzwInv.width_eq_schedule : z.width = widthSchedule (z.next - 258 + 1) := by
  have hge := hz.next_ge
  have hle := hz.next_le
  rw [hz.width_eq, max_bitlen_eq_widthSchedule (by omega) (by omega)]
  exact congrArg widthSchedule (by omega)

/-- The width that the assignment of NEXT leads to is that of the place after (R175, R176). -/
theorem LzwInv.widened_eq_schedule :
    (if z.next = 2 ^ z.width then z.width + 1 else z.width) = widthSchedule (z.next - 258 + 1 + 1) := by
  have hge := hz.next_ge
  rw [hz.width_succ, max_bitlen_eq_widthSchedule (by omega) hz.next_le]
  exact congrArg widthSchedule (by omega)

/-- CUR is neither CLEAR nor EOI (R171). -/
theorem LzwInv.cur_ne {p : Nat} (hcur : z.cur = some p) : p ≠ 256 ∧ p ≠ 257 := by
  have hp := hz.cur p hcur
  omega

/-- CUR fits the 12-bit code space (R170). -/
theorem LzwInv.cur_stringCode {p : Nat} (hcur : z.cur = some p) : StringCode 4096 p := by
  have hp := hz.cur p hcur
  have hle := hz.next_le
  omega

/-- The codes of a data byte are on schedule if what follows them is. -/
theorem ByteStep.onSchedule {k : Byte} {z' : Lzw} {bs : List Byte} {cs rest : List Coded} (h : ByteStep k z z' bs cs)
    (hrest : OnSchedule (z'.next - 258) rest) : OnSchedule (z.next - 258) (cs ++ rest) := by
  have hge := hz.next_ge
  have hwidth := hz.width_eq_schedule
  cases h with
  | start | extend => exact hrest
  | emit p hcur hl hn =>
    obtain ⟨hclear, -⟩ := hz.cur_ne hcur
    refine ⟨hwidth, fun h256 => absurd h256 hclear, ?_⟩
    rwa [if_neg hclear, ← Nat.sub_add_comm hge]
  | clear p hcur hn =>
    obtain ⟨hclear, -⟩ := hz.cur_ne hcur
    have hnext : z.next - 258 = 3837 := by omega
    rw [hnext] at hwidth ⊢
    refine ⟨hwidth, fun h256 => absurd h256 hclear, ?_⟩
    rw [if_neg hclear]
    refine ⟨hwidth.trans (by decide), fun _ => rfl, ?_⟩
    have hfresh : OnSchedule (258 - 258) rest := hrest
    rwa [Nat.sub_self] at hfresh

theorem LzwInv.endCodes_onSchedule : OnSchedule (z.next - 258) (endCodes z) := by
  cases hcur : z.cur with
  | none =>
    rw [endCodes_none hcur]
    exact ⟨hz.width_eq_schedule, fun h256 => absurd h256 eoi_ne_clear, trivial⟩
  | some p =>
    obtain ⟨hclear, -⟩ := hz.cur_ne hcur
    rw [endCodes_some hcur]
    refine ⟨hz.width_eq_schedule, fun h256 => absurd h256 hclear, ?_⟩
    rw [if_neg hclear]
    exact ⟨hz.widened_eq_schedule, fun h256 => absurd h256 eoi_ne_clear, trivial⟩

end

theorem LzwInv.codesFrom_onSchedule {z : Lzw} (hz : LzwInv z) (x : List Byte) :
    OnSchedule (z.next - 258) (codesFrom x z) := by
  induction x generalizing z with
  | nil => exact hz.endCodes_onSchedule
  | cons k x ih => exact ByteStep.onSchedule hz (byteStep k z) (ih (hz.lzwByte k))

/-- Codes other than CLEAR are counted. -/
theorem OnSchedule.of_append {j : Nat} {mid rest : List Coded} (h : OnSchedule j (mid ++ rest))
    (hmid : ∀ m ∈ mid, m.code ≠ 256) : OnSchedule (j + mid.length) rest := by
  induction mid generalizing j with
  | nil => exact h
  | cons c mid ih =>
    obtain ⟨-, -, htail⟩ := h
    rw [if_neg (hmid c List.mem_cons_self)] at htail
    rw [List.length_cons, Nat.add_comm mid.length, ← Nat.add_assoc]
    exact ih htail fun m hm => hmid m (List.mem_cons_of_mem _ hm)

/-- A CLEAR starts the count again. -/
theorem OnSchedule.of_clear {j w : Nat} {pre rest : List Coded} (h : OnSchedule j (pre ++ ⟨256, w⟩ :: rest)) :
    OnSchedule 0 rest := by
  induction pre generalizing j with
  | nil => exact h.2.2
  | cons c pre ih => exact ih h.2.2

/-- Behind each CLEAR, the first one included, the code stream is on schedule. -/
theorem lzwCodes_onSchedule {x : List Byte} {pre rest : List Coded} {w : Nat}
    (h : lzwCodes x = pre ++ ⟨256, w⟩ :: rest) : OnSchedule 0 rest := by
  have hfirst : OnSchedule 0 (codesFrom x lzwInit.1) := by
    simpa [lzwInit_eq] using lzwInv_lzwInit.codesFrom_onSchedule x
  cases pre with
  | nil => exact (List.cons.inj h).2 ▸ hfirst
  | cons c pre =>
    rw [(List.cons.inj h).2] at hfirst
    exact hfirst.of_clear

/-- What stands at a place behind a CLEAR, with no CLEAR between (R176, R177). -/
theorem width_and_place_of_lzwCodes {x : List Byte} {pre mid post : List Coded} {w : Nat} {c : Coded}
    (h : lzwCodes x = pre ++ [⟨256, w⟩] ++ mid ++ [c] ++ post) (hmid : ∀ m ∈ mid, m.code ≠ 256) :
    c.width = widthSchedule (mid.length + 1) ∧ (c.code = 256 → mid.length = 3838) := by
  have hsched := lzwCodes_onSchedule (pre := pre) (rest := mid ++ c :: post) (w := w) (by simpa using h)
  obtain ⟨hwidth, hplace, -⟩ := hsched.of_append hmid
  rw [Nat.zero_add] at hwidth hplace
  exact ⟨hwidth, hplace⟩

/-- Settles O28: NEXT counts the codes since CLEAR, so the width of the invariant is the one of the place. -/
theorem codeWidthsFollowTheSchedule : Obligations.CodeWidthsFollowTheSchedule := fun _ _ _ _ _ _ h hmid =>
  (width_and_place_of_lzwCodes h hmid).1

/-! #### Which codes there are, and how many (R188) -/

/-- A code that stands for a string: neither CLEAR nor EOI. -/
def isDataCode (c : Coded) : Bool := c.code != 256 && c.code != 257

/-- The codes of a data byte are string codes and CLEARs (R188). -/
theorem ByteStep.codes {k : Byte} {z z' : Lzw} {bs : List Byte} {cs : List Coded} (hz : LzwInv z)
    (h : ByteStep k z z' bs cs) : ∀ c ∈ cs, c.code = 256 ∨ StringCode 4096 c.code := by
  cases h with
  | start | extend => simp
  | emit p hcur => simpa using .inr (hz.cur_stringCode hcur)
  | clear p hcur => simpa using .inr (hz.cur_stringCode hcur)

/-- EOI is the last code, and string codes and CLEARs stand before it (R188). -/
theorem LzwInv.codesFrom_shape {z : Lzw} (hz : LzwInv z) (x : List Byte) :
    ∃ ds w, codesFrom x z = ds ++ [⟨257, w⟩] ∧ ∀ c ∈ ds, c.code = 256 ∨ StringCode 4096 c.code := by
  induction x generalizing z with
  | nil =>
    cases hcur : z.cur with
    | none => exact ⟨[], _, endCodes_none hcur, by simp⟩
    | some p => exact ⟨[⟨p, z.width⟩], _, endCodes_some hcur, by simpa using .inr (hz.cur_stringCode hcur)⟩
  | cons k x ih =>
    obtain ⟨ds, w, heq, hds⟩ := ih (hz.lzwByte k)
    refine ⟨byteCodes k z ++ ds, w, by rw [codesFrom, heq, List.append_assoc], fun c hc => ?_⟩
    exact (List.mem_append.1 hc).elim ((byteStep k z).codes hz c) (hds c)

theorem countP_pair_le {c e : Coded} (he : isDataCode e = false) : [c, e].countP isDataCode ≤ 1 := by
  rw [← List.singleton_append, List.countP_append, List.countP_singleton (a := e), he]
  exact List.countP_le_length

/-- A data byte emits at most one data code, and if it starts the match none (R188). -/
theorem ByteStep.countP_le {k : Byte} {z z' : Lzw} {bs : List Byte} {cs : List Coded} (h : ByteStep k z z' bs cs) :
    cs.countP isDataCode + z'.cur.toList.length ≤ 1 + z.cur.toList.length := by
  cases h with
  | start hcur => simp [hcur]
  | extend e hcur => simp [hcur]
  | emit p hcur => exact hcur ▸ Nat.add_le_add List.countP_le_length (Nat.le_refl 1)
  | clear p hcur => exact hcur ▸ Nat.add_le_add (countP_pair_le rfl) (Nat.le_refl 1)

/-- Data codes are no more than the data bytes, a match in progress counted as one more (R188). -/
theorem countP_codesFrom_le (x : List Byte) (z : Lzw) :
    (codesFrom x z).countP isDataCode ≤ x.length + z.cur.toList.length := by
  induction x generalizing z with
  | nil =>
    cases hcur : z.cur with
    | none => simp [codesFrom, endCodes_none hcur, isDataCode]
    | some p => simpa [codesFrom, endCodes_some hcur] using countP_pair_le rfl
  | cons k x ih =>
    have hstep := (byteStep k z).countP_le
    have hrest := ih (lzwByte k z).1
    rw [codesFrom, List.countP_append, List.length_cons]
    omega

/-- A match in progress is emitted in the end (R188). -/
theorem LzwInv.countP_codesFrom_pos {z : Lzw} (hz : LzwInv z) {x : List Byte} (h : z.cur ≠ none ∨ x ≠ []) :
    1 ≤ (codesFrom x z).countP isDataCode := by
  induction x generalizing z with
  | nil =>
    obtain ⟨p, hcur⟩ := Option.ne_none_iff_exists'.1 (h.resolve_right (by simp))
    have hp : isDataCode ⟨p, z.width⟩ = true := by simpa [isDataCode] using hz.cur_ne hcur
    rw [codesFrom, endCodes_some hcur, List.countP_cons, if_pos hp]
    exact Nat.le_add_left _ _
  | cons k x ih =>
    rw [codesFrom, List.countP_append]
    exact (ih (hz.lzwByte k) (.inl (lzwByte_cur_ne_none k z))).trans (Nat.le_add_left _ _)

/-- The first CLEAR is no data code. -/
theorem dataCodes_lzwCodes (x : List Byte) :
    ((lzwCodes x).filter (fun c => c.code != 256 && c.code != 257)).length =
      (codesFrom x lzwInit.1).countP isDataCode :=
  List.countP_eq_length_filter.symm

/-- LZW(x) is as long as its codes' bits need (R188). -/
theorem lzwStream_length (x : List Byte) :
    (lzwStream x).length = (((lzwCodes x).map Coded.width).sum + 7) / 8 := by
  obtain ⟨pad, hpad, hbits⟩ := streamBits_lzwStream x
  have hlen := congrArg List.length hbits
  rw [streamBits_length, List.length_append, flatMap_codeBits_length, List.length_replicate] at hlen
  omega

/-- Settles O29: the codes by the ways of a data byte, the CLEARs by the schedule, the length by the stream's bits. -/
theorem codeStreamShape : Obligations.CodeStreamShape := by
  intro x
  obtain ⟨ds, w, heq, hds⟩ := lzwInv_lzwInit.codesFrom_shape x
  have hcodes : lzwCodes x = (⟨256, 9⟩ :: ds) ++ [⟨257, w⟩] := congrArg _ heq
  refine ⟨rfl, ⟨w, ?_⟩, ?_, fun pre mid post v w h hmid => (width_and_place_of_lzwCodes h hmid).2 rfl, ?_, fun hx => ?_,
    lzwStream_length x⟩
  · rw [hcodes, List.getLast?_concat]
  · rw [hcodes, List.dropLast_concat]
    exact List.forall_mem_cons.2 ⟨.inl rfl, hds⟩
  · rw [dataCodes_lzwCodes]
    simpa [lzwInit_eq] using countP_codesFrom_le x lzwInit.1
  · rw [dataCodes_lzwCodes]
    exact lzwInv_lzwInit.countP_codesFrom_pos (.inr hx)

end Sys2Proof
end

section
/-! ### The GIF decoder follows the compressor (41_lzw.md R183) -/

namespace Sys2Proof

open Machine

/-! #### One code of the decoder's loop -/

section
variable {n w c : Nat} {d : GifDecoder} (rest : List Bool)

/-- A code that fits the decoder's width is read from the stream, and the bits behind it are left. -/
theorem take_drop_codeBits (hc : c < 2 ^ w) :
    bitsValue ((codeBits ⟨c, w⟩ ++ rest).take w) = c ∧ (codeBits ⟨c, w⟩ ++ rest).drop w = rest ∧
      ¬ (codeBits ⟨c, w⟩).length + rest.length < w := by
  have hlen : (codeBits ⟨c, w⟩).length = w := bitsOf_length w c
  refine ⟨?_, List.drop_left' hlen, by omega⟩
  rw [List.take_left' hlen, codeBits_eq, bitsValue_bitsOf hc]

theorem gifLoop_clear (hw : w = d.w) (hc : 256 < 2 ^ w) :
    gifLoop (n + 1) d (codeBits ⟨256, w⟩ ++ rest) = gifLoop n GifDecoder.fresh rest := by
  subst hw
  obtain ⟨htake, hdrop, hlen⟩ := take_drop_codeBits rest hc
  simp [gifLoop, htake, hdrop, hlen]

theorem gifLoop_eoi (hw : w = d.w) (hc : 257 < 2 ^ w) :
    gifLoop (n + 1) d (codeBits ⟨257, w⟩ ++ rest) = some [] := by
  subst hw
  obtain ⟨htake, hdrop, hlen⟩ := take_drop_codeBits rest hc
  simp [gifLoop, htake, hlen]

/-- The first code after a CLEAR only gives its string. -/
theorem gifLoop_first {e : List Byte} (hw : w = d.w) (hc : c < 2 ^ w) (hdata : c ≠ 256 ∧ c ≠ 257) (hprev : d.prev = none)
    (he : gifString d c = some e) :
    gifLoop (n + 1) d (codeBits ⟨c, w⟩ ++ rest) =
      (gifLoop n { d with prev := some e } rest).map (fun out => e ++ out) := by
  subst hw
  obtain ⟨htake, hdrop, hlen⟩ := take_drop_codeBits rest hc
  simp [gifLoop, htake, hdrop, hlen, hdata, hprev, he]

/-- Every other string code also adds a string. -/
theorem gifLoop_next {p e new : List Byte} (hw : w = d.w) (hc : c < 2 ^ w) (hdata : c ≠ 256 ∧ c ≠ 257)
    (hprev : d.prev = some p) (he : gifExpand d p c = some (e, new)) :
    gifLoop (n + 1) d (codeBits ⟨c, w⟩ ++ rest) =
      (gifLoop n { gifAdd d new with prev := some e } rest).map (fun out => e ++ out) := by
  subst hw
  obtain ⟨htake, hdrop, hlen⟩ := take_drop_codeBits rest hc
  simp [gifLoop, htake, hdrop, hlen, hdata, hprev, he]

end

/-! #### The decoder's table and the dictionary -/

/-- The strings of the dictionary codes below `n`, in the order of the decoder's table. -/
def stringsBelow (n : Nat) (d : List DictEntry) : List (List Byte) :=
  (List.range' 258 (n - 258)).map (codeString d)

theorem stringsBelow_succ {n : Nat} (hn : 258 ≤ n) (d : List DictEntry) :
    stringsBelow (n + 1) d = stringsBelow n d ++ [codeString d n] := by
  rw [stringsBelow, Nat.sub_add_comm hn, List.range'_1_concat, List.map_append, Nat.add_sub_cancel' hn]
  rfl

theorem stringsBelow_firstFree (d : List DictEntry) : stringsBelow 258 d = [] := by simp [stringsBelow]

/-- Assigning NEXT changes no string below it. -/
theorem stringsBelow_cons (e : DictEntry) (d : List DictEntry) :
    stringsBelow e.code (e :: d) = stringsBelow e.code d := by
  refine List.map_congr_left fun c hc => codeString_cons_ne ?_
  have hrange := List.mem_range'_1.1 hc
  omega

/-- A decoder whose table holds the strings of a canonical dictionary up to its own next code knows those codes. -/
theorem gifString_eq {g : GifDecoder} {n c : Nat} {d : List DictEntry} (hd : DictInv n d)
    (htab : g.tab = stringsBelow g.nxt d) (hc : StringCode g.nxt c) : gifString g c = some (codeString d c) := by
  unfold gifString
  by_cases hlit : c < 256
  · rw [if_pos hlit, hd.codeString_literal hlit]
  · obtain ⟨hge, hlt⟩ := hc.resolve_left hlit
    rw [if_neg hlit, if_neg (by omega), htab, stringsBelow, List.getElem?_map, List.getElem?_range' (by omega),
      Option.map_some, Nat.one_mul, Nat.add_sub_cancel' hge]

/-- With the codes in use the widening of the decoder needs no check of its own limit. -/
theorem gifAdd_eq {g : GifDecoder} {new : List Byte} (hnxt : g.nxt + 1 ≤ 4095) (hw : g.w ≤ 12) :
    gifAdd g new =
      { g with
        tab := g.tab ++ [new]
        nxt := g.nxt + 1
        w := if g.nxt + 1 = 2 ^ g.w then g.w + 1 else g.w } := by
  have hlimit : g.nxt + 1 = 2 ^ g.w → g.w < 12 := fun h => by
    by_contra hge
    rw [h, show g.w = 12 by omega] at hnxt
    omega
  unfold gifAdd
  rw [if_pos (show g.nxt < 4096 by omega)]
  by_cases h : g.nxt + 1 = 2 ^ g.w
  · simp only [h, hlimit h, and_self, if_true]
  · simp only [h, false_and, if_false]

/-! #### The two relations of decoder and engine -/

/-- The decoder has read every code the engine has emitted since CLEAR, at least one: it lacks the newest entry, whose
string is that of the last code and the first byte of the match (R183). -/
structure DecoderBehind (z : Lzw) (g : GifDecoder) (p : List Byte) : Prop where
  width : g.w = z.width
  next : g.nxt + 1 = z.next
  next_ge : 258 ≤ g.nxt
  table : g.tab = stringsBelow g.nxt z.dict
  prev : g.prev = some p
  prev_ne_nil : p ≠ []
  newest : codeString z.dict g.nxt = p ++ (matchString z).take 1
  cur : z.cur ≠ none

/-- The decoder has read CUR as well, before the engine assigns NEXT: it has the whole dictionary. -/
structure DecoderLevel (z : Lzw) (g : GifDecoder) : Prop where
  width : g.w = if z.next = 2 ^ z.width then z.width + 1 else z.width
  next : g.nxt = z.next
  table : g.tab = stringsBelow z.next z.dict
  prev : g.prev = some (matchString z)

/-- Where the decoder stands between two data bytes: fresh behind a CLEAR, or one entry behind. -/
def DecoderAt (z : Lzw) (g : GifDecoder) : Prop :=
  (z.dict = [] ∧ z.next = 258 ∧ z.width = 9 ∧ g = GifDecoder.fresh) ∨ ∃ p, DecoderBehind z g p

section
variable {z : Lzw} {g : GifDecoder} {p : List Byte} {c : Nat} (hz : LzwInv z) (hcur : z.cur = some c)
include hz hcur

/-- Behind a CLEAR the match is a literal. -/
theorem gifString_fresh (hdict : z.dict = []) (hnext : z.next = 258) :
    gifString GifDecoder.fresh c = some (matchString z) := by
  have hc : StringCode 258 c := hnext ▸ hz.cur c hcur
  rw [gifString_eq (hdict ▸ hz.dict) (stringsBelow_firstFree []).symm hc, matchString_some hcur, hdict]

/-- The code of the match expands to the match and to the newest entry's string, be it the newest entry itself or not. -/
theorem DecoderBehind.gifExpand (h : DecoderBehind z g p) :
    gifExpand g p c = some (matchString z, codeString z.dict g.nxt) := by
  have hc := hz.cur c hcur
  have hnext := h.next
  have hge := h.next_ge
  unfold Machine.gifExpand
  by_cases hlt : c < g.nxt
  · have hknown : StringCode g.nxt c := by omega
    rw [if_pos hlt, gifString_eq hz.dict h.table hknown, ← matchString_some hcur, h.newest]
    rfl
  · obtain rfl : c = g.nxt := by omega
    have hmatch : matchString z = p ++ (matchString z).take 1 := (matchString_some hcur).trans h.newest
    have hfirst : (matchString z).take 1 = p.take 1 := by
      rw [hmatch, List.take_append_of_le_length (List.length_pos_iff.2 h.prev_ne_nil)]
    rw [if_neg (Nat.lt_irrefl _), if_pos rfl, ← hfirst, ← hmatch, h.newest, ← hmatch]

/-- Reading the code of the match gives the match and brings the decoder level. -/
theorem DecoderAt.read (h : DecoderAt z g) :
    ∃ g', DecoderLevel z g' ∧ ∀ n rest, gifLoop (n + 1) g (codeBits ⟨c, z.width⟩ ++ rest) =
      (gifLoop n g' rest).map (matchString z ++ ·) := by
  have hlt := hz.code_lt (hz.cur c hcur)
  have hdata := hz.cur_ne hcur
  obtain ⟨hdict, hnext, hwidth, rfl⟩ | ⟨p, hb⟩ := h
  · have hstring := gifString_fresh hz hcur hdict hnext
    refine ⟨_, ⟨?_, hnext.symm, ?_, rfl⟩, fun n rest => gifLoop_first rest hwidth hlt hdata rfl hstring⟩
    · rw [hnext, hwidth]
      rfl
    · rw [hnext, stringsBelow_firstFree]
      rfl
  · have hle := hz.next_le
    have hw := hz.width_le
    have hnext := hb.next
    refine ⟨_, ⟨?_, ?_, ?_, rfl⟩, fun n rest =>
      gifLoop_next rest hb.width.symm hlt hdata hb.prev (hb.gifExpand hz hcur)⟩
    all_goals rw [gifAdd_eq (by omega) (by rw [hb.width]; exact hw)]
    · simp only [hnext, hb.width]
    · exact hnext
    · rw [← hnext, stringsBelow_succ hb.next_ge, ← hb.table]

/-- When the engine then assigns NEXT and the byte starts the next match, the decoder is one entry behind. -/
theorem DecoderLevel.decoderBehind (h : DecoderLevel z g) (k : Byte) (hl : lookup c k z.dict = none) {z' : Lzw}
    (hdict : z'.dict = ⟨c, k, z.next⟩ :: z.dict) (hnext : z'.next = z.next + 1)
    (hwidth : z'.width = if z.next = 2 ^ z.width then z.width + 1 else z.width) (hcur' : z'.cur = some k.toNat) :
    DecoderBehind z' g (matchString z) where
  width := h.width.trans hwidth.symm
  next := by rw [h.next, hnext]
  next_ge := h.next ▸ hz.next_ge
  table := by rw [h.table, h.next, hdict, stringsBelow_cons ⟨c, k, z.next⟩]
  prev := h.prev
  prev_ne_nil := matchString_some hcur ▸ codeString_ne_nil _ _
  newest := by
    have hinv := dictInv_insert hz.dict hz.next_ge (hz.cur c hcur) hl
    have hentry := hinv.codeString_entry List.mem_cons_self
    rw [h.next, matchString_some hcur', hdict, hinv.codeString_byte, hentry, codeString_cons_ne, matchString_some hcur]
    · rfl
    · show z.next ≠ c
      have hc := hz.cur c hcur
      have hge := hz.next_ge
      omega
  cur := by simp [hcur']

end

/-- A byte that joins the match does not change what the decoder lacks. -/
theorem DecoderBehind.extend {z : Lzw} {g : GifDecoder} {p : List Byte} (h : DecoderBehind z g p) {c c' : Nat} {k : Byte}
    (hcur : z.cur = some c) (hstring : codeString z.dict c' = codeString z.dict c ++ [k]) :
    DecoderBehind { z with cur := some c' } g p :=
  { h with
    newest := by
      have hfirst : ((codeString z.dict c) ++ [k]).take 1 = (codeString z.dict c).take 1 :=
        List.take_append_of_le_length (List.length_pos_iff.2 (codeString_ne_nil _ _))
      rw [matchString_some rfl, hstring, hfirst, ← matchString_some hcur]
      exact h.newest
    cur := by simp }

/-! #### Decoding a code stream -/

/-- On the codes of a data byte the decoder stays with the engine, and what it puts out and the new match are the old match
and the byte. -/
theorem ByteStep.decode {k : Byte} {z z' : Lzw} {bs : List Byte} {cs : List Coded} {g : GifDecoder} (hz : LzwInv z)
    (hg : DecoderAt z g) (h : ByteStep k z z' bs cs) :
    ∃ g' out, DecoderAt z' g' ∧ out ++ matchString z' = matchString z ++ [k] ∧
      ∀ n rest, gifLoop (cs.length + n) g (cs.flatMap codeBits ++ rest) = (gifLoop n g' rest).map (out ++ ·) := by
  cases h with
  | start hcur =>
    obtain hfresh | ⟨p, hb⟩ := hg
    · exact ⟨g, [], .inl hfresh, (ByteStep.start hcur).match_append hz, by simp⟩
    · exact absurd hcur hb.cur
  | extend e hcur he hbyte =>
    have hmatch := (ByteStep.extend e hcur he hbyte).match_append hz
    exact ⟨g, [], hg.imp id fun ⟨p, hb⟩ => ⟨p, hb.extend hcur (hbyte ▸ hz.dict.codeString_entry he)⟩, hmatch, by simp⟩
  | emit p hcur hl hn =>
    obtain ⟨g', hlevel, hread⟩ := hg.read hz hcur
    refine ⟨g', matchString z, .inr ⟨_, hlevel.decoderBehind hz hcur k hl rfl rfl rfl rfl⟩, ?_, fun n rest => ?_⟩
    · obtain ⟨-, hmatch⟩ := (ByteStep.emit p hcur hl hn).match_restart hz
      rw [hmatch]
    · rw [List.length_singleton, Nat.add_comm 1, List.flatMap_singleton, hread]
  | clear p hcur hn =>
    obtain ⟨g', hlevel, hread⟩ := hg.read hz hcur
    refine ⟨GifDecoder.fresh, matchString z, .inl ⟨rfl, rfl, rfl, rfl⟩, ?_, fun n rest => ?_⟩
    · obtain ⟨-, hmatch⟩ := (ByteStep.clear p hcur hn).match_restart hz
      rw [hmatch]
    · have hwidth : z.width = g'.w := by
        rw [hlevel.width, hz.widened_eq_schedule, hz.width_eq_schedule, show z.next - 258 = 3837 by omega]
        decide
      have hclear := eoi_lt_two_pow hz.width_ge
      rw [List.flatMap_cons, List.flatMap_singleton, List.append_assoc, List.length_cons, List.length_singleton,
        Nat.add_comm 2, hread, gifLoop_clear rest hwidth (by omega)]

/-- END's codes make the decoder put out the match and stop. -/
theorem LzwInv.gifLoop_endCodes {z : Lzw} {g : GifDecoder} (hz : LzwInv z) (hg : DecoderAt z g) (m : Nat)
    (rest : List Bool) :
    gifLoop ((endCodes z).length + m) g ((endCodes z).flatMap codeBits ++ rest) = some (matchString z) := by
  cases hcur : z.cur with
  | none =>
    obtain ⟨-, -, hwidth, rfl⟩ | ⟨p, hb⟩ := hg
    · rw [endCodes_none hcur, matchString_none hcur, List.length_singleton, Nat.add_comm 1, List.flatMap_singleton,
        gifLoop_eoi rest hwidth (eoi_lt_two_pow hz.width_ge)]
    · exact absurd hcur hb.cur
  | some p =>
    obtain ⟨g', hlevel, hread⟩ := hg.read hz hcur
    have hge : 9 ≤ if z.next = 2 ^ z.width then z.width + 1 else z.width := hz.width_succ ▸ Nat.le_max_left _ _
    rw [endCodes_some hcur, List.flatMap_cons, List.flatMap_singleton, List.append_assoc, List.length_cons,
      List.length_singleton, Nat.add_comm 2, hread, gifLoop_eoi rest hlevel.width.symm (eoi_lt_two_pow hge)]
    exact congrArg some (List.append_nil _)

/-- A decoder that follows the engine gives back the match and the data bytes still to come (R183). -/
theorem LzwInv.gifLoop_codesFrom {z : Lzw} {g : GifDecoder} (hz : LzwInv z) (hg : DecoderAt z g) (x : List Byte)
    (m : Nat) (rest : List Bool) :
    gifLoop ((codesFrom x z).length + m) g ((codesFrom x z).flatMap codeBits ++ rest) = some (matchString z ++ x) := by
  induction x generalizing z g with
  | nil =>
    rw [List.append_nil]
    exact hz.gifLoop_endCodes hg m rest
  | cons k x ih =>
    obtain ⟨g', out, hg', hout, hread⟩ := (byteStep k z).decode hz hg
    rw [codesFrom, List.length_append, List.flatMap_append, List.append_assoc, Nat.add_assoc, hread,
      ih (hz.lzwByte k) hg', Option.map_some, ← List.append_assoc, hout, List.append_assoc]
    rfl

theorem widthSchedule_pos (j : Nat) : 1 ≤ widthSchedule j := by
  unfold widthSchedule
  split_ifs <;> decide

/-- Every code takes at least one bit, so the number of bits bounds the decoder's turns. -/
theorem OnSchedule.length_le {j : Nat} {cs : List Coded} (h : OnSchedule j cs) :
    cs.length ≤ (cs.flatMap codeBits).length := by
  induction cs generalizing j with
  | nil => exact Nat.le_refl _
  | cons c cs ih =>
    obtain ⟨hwidth, -, hrest⟩ := h
    have hpos := widthSchedule_pos (j + 1)
    have hle := ih hrest
    rw [List.flatMap_cons, List.length_append, codeBits_eq, bitsOf_length, List.length_cons]
    omega

/-- Settles O30: the stream's bits are those of the code stream, a fresh decoder is with the fresh engine behind the first
CLEAR, and it stays with it to EOI. -/
theorem gifDecodeInvertsLzw : Obligations.GifDecodeInvertsLzw := by
  intro x
  obtain ⟨pad, -, hbits⟩ := streamBits_lzwStream x
  have hg : DecoderAt lzwInit.1 GifDecoder.fresh := .inl (by simp [lzwInit_eq])
  have hcodes := (lzwCodes_onSchedule (x := x) (pre := []) rfl).length_le
  have hturns : (codesFrom x lzwInit.1).length + 1 ≤ (streamBits (lzwStream x)).length := by
    rw [hbits, lzwCodes, List.flatMap_cons, List.append_assoc, List.length_append, List.length_append, Nat.add_comm]
    exact Nat.add_le_add (by decide) (hcodes.trans (Nat.le_add_right _ _))
  obtain ⟨m, hm⟩ := Nat.exists_eq_add_of_le hturns
  rw [Nat.add_right_comm] at hm
  rw [gifDecode, hm, hbits, lzwCodes, List.flatMap_cons, List.append_assoc,
    gifLoop_clear (w := Const.initWidth) _ rfl (by decide), lzwInv_lzwInit.gifLoop_codesFrom hg, matchString_lzwInit]
  rfl

end Sys2Proof
end

section
/-! ### The chunker (42_chunker.md R220 to R228) -/

namespace Sys2Proof

open Machine

/-- CHUNK of no bytes is the terminator (R223). -/
theorem chunked_nil : chunked [] = [0x00] := rfl

/-- CHUNK of some bytes is a sub-block of the first 255, then CHUNK of the rest (R220). -/
theorem chunked_of_ne_nil {y : List Byte} (hy : y ≠ []) :
    chunked y = subBlock (y.take 255) ++ chunked (y.drop 255) := by
  simpa only [chunkTail_eq_chunked] using chunkTail_of_ne_nil hy

/-- CHUNK adds a length byte for every sub-block, and the terminator (R221). -/
theorem chunked_length (y : List Byte) : (chunked y).length = y.length + (y.length + 254) / 255 + 1 := by
  obtain ⟨hkept, hsent⟩ := chunkBytes_length (x := y) (c := []) (Nat.zero_le _)
  rw [List.length_nil, Nat.zero_add] at hkept hsent
  rw [← chunkTail_eq_chunked, chunkTail, List.length_append, chunkEnd_length, hsent]
  split
  next hempty => rw [hempty, List.length_nil] at hkept; omega
  next hrest => have hpos := List.length_pos_iff.2 hrest; omega

/-- UNCHUNK stops at the terminator (R222). -/
theorem unchunkLoop_terminator (n : Nat) (s : List Byte) : unchunkLoop (n + 1) (0x00 :: s) = some [] := rfl

/-- UNCHUNK gives back the payload of a sub-block, whose length fits its prefix and is not the terminator (R222). -/
theorem unchunkLoop_subBlock {p : List Byte} (hp : p ≠ []) (hlen : p.length ≤ 255) (n : Nat) (s : List Byte) :
    unchunkLoop (n + 1) (subBlock p ++ s) = (unchunkLoop n s).map (p ++ ·) := by
  have hpos := List.length_pos_iff.2 hp
  have hprefix : (BitVec.ofNat 8 p.length).toNat = p.length := by simp; omega
  have hzero : BitVec.ofNat 8 p.length ≠ 0#8 := fun h => by simp [h] at hprefix; omega
  simp [subBlock, unchunkLoop, hprefix, hzero]

/-- UNCHUNK takes one turn for each sub-block and one for the terminator, so `y.length + 1` turns suffice (R222). -/
theorem unchunkLoop_chunked {n : Nat} {y : List Byte} (h : y.length < n) : unchunkLoop n (chunked y) = some y := by
  induction n generalizing y with
  | zero => omega
  | succ n ih =>
    by_cases hy : y = []
    · subst hy
      exact unchunkLoop_terminator n []
    · have hpos := List.length_pos_iff.2 hy
      have hrest : unchunkLoop n (chunked (y.drop 255)) = some (y.drop 255) := ih (by simp; omega)
      rw [chunked_of_ne_nil hy, unchunkLoop_subBlock (by simpa using hy) (by simp), hrest]
      simp

/-- One payload byte pushes a full sub-block or nothing (R226). -/
theorem chunkByte_sent_length (b : Byte) (c : List Byte) :
    (chunkByte b c).2.length = if c.length = 254 then 256 else 0 := by
  split
  next hfull => simp [chunkByte_full hfull, hfull]
  next hshort => rw [chunkByte_short hshort, List.length_nil]

/-- The terminator is the last byte pushed (R227). -/
theorem chunkEnd_getLast? (c : List Byte) : (chunkEnd c).getLast? = some 0x00 := List.getLast?_concat ..

/-- Settles O31: the streaming chunker fills the same sub-blocks as CHUNK's loop. -/
theorem streamingChunkerIsChunk : Obligations.StreamingChunkerIsChunk := chunkTail_eq_chunked

/-- Settles O32: the streaming chunker's counts, added up. -/
theorem chunkedLength : Obligations.ChunkedLength := chunked_length

/-- Settles O33: each turn of UNCHUNK takes off the sub-block that a turn of CHUNK put on, and CHUNK(y) is longer than y,
so the turns suffice. -/
theorem unchunkInvertsChunk : Obligations.UnchunkInvertsChunk :=
  ⟨chunked_nil, fun y => unchunkLoop_chunked (by rw [chunked_length]; omega)⟩

/-- Settles O34: a byte sends out a sub-block only when it fills it, and END sends what is left. -/
theorem chunkerPushCounts : Obligations.ChunkerPushCounts := by
  intro c hc
  refine ⟨fun b => ⟨?_, chunkBytes_cbuf_le (x := [b]) hc⟩, ?_⟩
  · rw [chunkByte_sent_length]
    split <;> simp
  · rw [chunkEnd_length]
    by_cases hempty : c = []
    · simp [hempty, chunkEnd_getLast?]
    · simp [hempty, hc, chunkEnd_getLast?]

end Sys2Proof
end

section
/-! Proofs of the stream-jobs family: what starts, tokens and pops do, a job's output, and when a job is finished. -/

/-! ### Starts and tokens (43_stream_jobs.md R250 to R256) -/

namespace Sys2Proof

open Machine

section
variable {s : State}

/-- A start that `start_check` refuses records the error and does nothing else (R253). -/
theorem exec_start_of_error {i : Instr} {e : ErrCode} (hi : isStart i = true) (he : startError s = some e) :
    exec i s = .next (refusedWith e s) := by
  rw [← refuse_eq_refusedWith]
  cases i with
  | lzwStart => simp [exec, execLzwStart, he]
  | chunkStart => simp [exec, execChunkStart, he]
  | imgdataStart => simp [exec, execImgdataStart, he]
  | _ => cases hi

/-- A refused data token is dropped (R254). -/
theorem exec_feed_of_error {e : ErrCode} (he : tokenError s = some e) (k : Byte) :
    exec (.feed k) s = .next (refusedWith e s) := by
  simp [exec, execFeed, he, ← refuse_eq_refusedWith]

/-- A refused END token is dropped (R255). -/
theorem exec_end_of_error {e : ErrCode} (he : tokenError s = some e) : exec .endToken s = .next (refusedWith e s) := by
  simp [exec, execEnd, he, ← refuse_eq_refusedWith]

theorem tokenError_of_idle (h : s.phase = .idle) : tokenError s = some .nojob := by simp [tokenError, h]

theorem tokenError_of_no_room (h : s.phase = .run) (hq : s.cfg.outqCap < s.queue.length + 261) :
    tokenError s = some .overrun := by
  simp [tokenError, h, hasRoom, hq]

/-- Settles O35: with no error from `start_check` each start runs its initialisations, `lzw_init` sinking one zero byte. -/
theorem startsOpenTheirJobs : Obligations.StartsOpenTheirJobs := by
  intro s hidle hroom
  have hok := startError_eq_none.2 ⟨hidle, hroom⟩
  refine ⟨?_, ?_, ?_⟩
  · simp only [exec, execLzwStart, hok, lzwInit_eq]
    rfl
  · simp only [exec, execChunkStart, hok]
    rfl
  · simp [exec, execImgdataStart, hok, lzwInit_eq, throughChunker, chunkBytes, chunkByte, push, setLzw, setCbuf, openJob,
      complete, respond]

/-- Settles O36: `start_check` tests PHASE before the room in Q. -/
theorem startsAreRefusedWhenBusyOrFull : Obligations.StartsAreRefusedWhenBusyOrFull := by
  intro i s hi
  refine ⟨fun hrun => exec_start_of_error hi ?_, fun hidle hfull => exec_start_of_error hi ?_⟩
  · simp [startError, hrun]
  · simp [startError, hidle, hfull]

/-- Settles O37: a token tests PHASE before the room in Q. -/
theorem tokensAreRefusedWhenNotReady : Obligations.TokensAreRefusedWhenNotReady := by
  intro k s
  refine ⟨fun hidle => ?_, fun hrun hq => ?_⟩
  · have he := tokenError_of_idle hidle
    exact ⟨exec_feed_of_error he k, exec_end_of_error he⟩
  · have he := tokenError_of_no_room hrun hq
    exact ⟨exec_feed_of_error he k, exec_end_of_error he⟩

/-! An accepted data token, mode by mode (R254). -/

section
variable (hready : inReady s = true) (k : Byte)
include hready

theorem exec_feed_lzw (hm : s.mode = .lzw) :
    exec (.feed k) s = complete (push (lzwByte k s.lzw).2 (setLzw (lzwByte k s.lzw).1 s)) := by
  simp [exec, execFeed, acceptByte, tokenError_eq_none.2 hready, hm]

theorem exec_feed_chunk (hm : s.mode = .chunk) :
    exec (.feed k) s = complete (push (chunkByte k s.cbuf).2 (setCbuf (chunkByte k s.cbuf).1 s)) := by
  simp [exec, execFeed, acceptByte, tokenError_eq_none.2 hready, hm, throughChunker, chunkBytes]

theorem exec_feed_imgdata (hm : s.mode = .imgdata) :
    exec (.feed k) s = complete (throughChunker (lzwByte k s.lzw).2 (setLzw (lzwByte k s.lzw).1 s)) := by
  simp [exec, execFeed, acceptByte, tokenError_eq_none.2 hready, hm]

end

end

/-- Settles O38: with IN_READY the token runs the units of its mode. -/
theorem dataTokensFeedTheUnits : Obligations.DataTokensFeedTheUnits := by
  intro k s hrun hroom
  have hready := inReady_iff.2 ⟨hrun, hroom⟩
  exact ⟨exec_feed_lzw hready k, exec_feed_chunk hready k, exec_feed_imgdata hready k⟩

/-- Settles O39: `lzw_byte` sinks at most 3 bytes, and at most 255 payload bytes complete no sub-block or one, of 256 bytes
with its length. -/
theorem dataTokenPushCounts : Obligations.DataTokenPushCounts := by
  intro k s hinv hready
  cases hm : s.mode with
  | none => exact absurd hm (hinv.mode (inReady_iff.1 hready).1)
  | lzw =>
    have hsunk := (hinv.lzw_of_ready hready (.inl hm)).lzwByte_length_le k
    exact ⟨_, _, exec_feed_lzw hready k hm, rfl, fun _ => hsunk, fun h => absurd rfl h⟩
  | chunk =>
    refine ⟨_, _, exec_feed_chunk hready k hm, rfl, (nomatch ·), fun _ => ?_⟩
    rw [chunkByte_sent_length]
    split <;> simp
  | imgdata =>
    have hsunk := (hinv.lzw_of_ready hready (.inr hm)).lzwByte_length_le k
    have hc := hinv.cbuf_of_ready hready (.inr hm)
    refine ⟨_, _, exec_feed_imgdata hready k hm, rfl, (nomatch ·), fun _ => ?_⟩
    rw [setLzw_cbuf, (chunkBytes_length hc).2]
    omega

/-- The word of an entry as the shifts of R257. -/
theorem outWord_eq_or (e : Entry) : outWord e = e.byte.setWidth 32 ||| ((1 : Word) <<< 8) ||| (bit01 e.eoj <<< 9) := by
  have hword : outWord e = (0#22 ++ BitVec.ofBool e.eoj ++ 1#1 ++ e.byte).setWidth 32 := (BitVec.setWidth_eq _).symm
  rw [hword]
  simp only [BitVec.setWidth_append_eq_shiftLeft_setWidth_or, BitVec.shiftLeft_or_distrib, ← BitVec.shiftLeft_add,
    BitVec.setWidth_zero, BitVec.zero_shiftLeft, BitVec.zero_or, setWidth_ofBool]
  grind

theorem exec_pop_nil {s : State} (hq : s.queue = []) : exec .pop s = answer 0 s := by simp [exec, execPop, hq]

theorem exec_pop_cons {s : State} {e : Entry} {q : List Entry} (hq : s.queue = e :: q) :
    exec .pop s = answer (outWord e) (setQueue q s) := by
  simp [exec, execPop, hq]

/-- Settles O41, by the two cases of POP. -/
theorem popReturnsTheHead : Obligations.PopReturnsTheHead := by
  refine fun s => ⟨fun hq => exec_pop_nil hq, fun e q hq => ?_⟩
  rw [← outWord_eq_or]
  exact exec_pop_cons hq

end Sys2Proof
end

section
/-! ### The END of a job (43_stream_jobs.md R255, R259) -/

namespace Sys2Proof

open Machine

@[simp] theorem plainEntries_length (x : List Byte) : (plainEntries x).length = x.length := List.length_map ..

theorem plainEntries_ne_nil {x : List Byte} (hx : x ≠ []) : plainEntries x ≠ [] := by simpa [plainEntries] using hx

@[simp] theorem jobEntries_length (x : List Byte) : (jobEntries x).length = x.length := by simp [jobEntries]

/-- Behind earlier entries the mark falls on the job's own last entry (R259). -/
theorem markLast_append_plainEntries {x : List Byte} (hx : x ≠ []) (q : List Entry) :
    markLast (q ++ plainEntries x) = q ++ jobEntries x :=
  markLast_append (plainEntries_ne_nil hx) q

/-- Pushing a job's last bytes and marking the end (R255, R259). -/
theorem markEoj_push {bs : List Byte} (hbs : bs ≠ []) (s : State) :
    markEoj (push bs s) = setQueue (s.queue ++ jobEntries bs) s :=
  congrArg (setQueue · s) (markLast_append_plainEntries hbs s.queue)

/-- `chunk_end` after some payload pushes what that payload sends and what it leaves, and empties CBUF (R227). -/
theorem endChunks_throughChunker (bs : List Byte) (s : State) :
    endChunks (throughChunker bs s) =
      push ((chunkBytes bs s.cbuf).2 ++ chunkEnd (chunkBytes bs s.cbuf).1) (setCbuf [] s) := by
  simp [endChunks, throughChunker, push, setCbuf]

/-! What a job has yet to push at END, mode by mode (R255). -/

theorem jobTail_nil_lzw {s : State} (hm : s.mode = .lzw) : jobTail [] s = (lzwEnd s.lzw).2 := by
  simp [jobTail, hm, lzwTail, lzwBytes]

theorem jobTail_nil_chunk {s : State} (hm : s.mode = .chunk) : jobTail [] s = chunkEnd s.cbuf := by
  simp [jobTail, hm, chunkTail, chunkBytes]

theorem jobTail_nil_imgdata {s : State} (hm : s.mode = .imgdata) :
    jobTail [] s = (chunkBytes (lzwEnd s.lzw).2 s.cbuf).2 ++ chunkEnd (chunkBytes (lzwEnd s.lzw).2 s.cbuf).1 := by
  simp [jobTail, hm, lzwTail, lzwBytes, chunkTail]

section
variable {s : State} (hready : inReady s = true)
include hready

/-! An accepted END, mode by mode (R255). -/

theorem exec_end_lzw (hm : s.mode = .lzw) :
    exec .endToken s = complete (closeJob (markEoj (push (jobTail [] s) (setLzw (lzwEnd s.lzw).1 s)))) := by
  simp [exec, execEnd, acceptEnd, tokenError_eq_none.2 hready, hm, jobTail_nil_lzw]

theorem exec_end_chunk (hm : s.mode = .chunk) :
    exec .endToken s = complete (closeJob (markEoj (push (jobTail [] s) (setCbuf [] s)))) := by
  simp only [exec, execEnd, acceptEnd, tokenError_eq_none.2 hready, hm, jobTail_nil_chunk hm]
  rfl

theorem exec_end_imgdata (hm : s.mode = .imgdata) :
    exec .endToken s =
      complete (closeJob (markEoj (push (jobTail [] s) (setCbuf [] (setLzw (lzwEnd s.lzw).1 s))))) := by
  simp [exec, execEnd, acceptEnd, tokenError_eq_none.2 hready, hm, jobTail_nil_imgdata, endChunks_throughChunker]

variable (hinv : Inv s)
include hinv

/-- How many bytes END pushes in each mode (R255). -/
theorem jobTail_nil_length :
    (s.mode = .lzw → 2 ≤ (jobTail [] s).length ∧ (jobTail [] s).length ≤ 4) ∧
    (s.mode = .chunk → 1 ≤ (jobTail [] s).length ∧ (jobTail [] s).length ≤ 256) ∧
    (s.mode = .imgdata → 2 ≤ (jobTail [] s).length ∧ (jobTail [] s).length ≤ 261) := by
  refine ⟨fun hm => ?_, fun hm => ?_, fun hm => ?_⟩
  · rw [jobTail_nil_lzw hm]
    exact (hinv.lzw_of_ready hready (.inl hm)).lzwEnd_length
  · have hc := hinv.cbuf_of_ready hready (.inl hm)
    rw [jobTail_nil_chunk hm, chunkEnd_length]
    split <;> omega
  · obtain ⟨hge, hle⟩ := (hinv.lzw_of_ready hready (.inr hm)).lzwEnd_length
    have hc := hinv.cbuf_of_ready hready (.inr hm)
    obtain ⟨hkept, hsent⟩ := chunkBytes_length (x := (lzwEnd s.lzw).2) hc
    rw [jobTail_nil_imgdata hm, List.length_append]
    refine ⟨?_, chunkBytes_chunkEnd_length_le hc hle⟩
    rw [chunkEnd_length, hsent]
    split
    next hempty => rw [hempty, List.length_nil] at hkept; omega
    next => omega

/-- END always pushes, so there is an entry to mark (R259). -/
theorem jobTail_nil_ne_nil : jobTail [] s ≠ [] := by
  obtain ⟨hlzw, hchunk, himgdata⟩ := jobTail_nil_length hready hinv
  apply List.ne_nil_of_length_pos
  cases hm : s.mode with
  | none => exact absurd hm (hinv.mode (inReady_iff.1 hready).1)
  | lzw => exact Nat.lt_of_lt_of_le (by decide) (hlzw hm).1
  | chunk => exact (hchunk hm).1
  | imgdata => exact Nat.lt_of_lt_of_le (by decide) (himgdata hm).1

/-- An accepted END queues the rest of the job's output with its mark and closes the job; an engine that the job does not
use stays (R255, R259). -/
theorem exec_end_closes : ∃ z c,
    exec .endToken s = .next { s with
      phase := .idle, done := true, resp := .done, queue := s.queue ++ jobEntries (jobTail [] s), lzw := z, cbuf := c } ∧
    (s.mode = .lzw → c = s.cbuf) ∧ (s.mode = .chunk → z = s.lzw) := by
  have hne := jobTail_nil_ne_nil hready hinv
  cases hm : s.mode with
  | none => exact absurd hm (hinv.mode (inReady_iff.1 hready).1)
  | lzw =>
    refine ⟨(lzwEnd s.lzw).1, s.cbuf, ?_, fun _ => rfl, (nomatch ·)⟩
    rw [exec_end_lzw hready hm, markEoj_push hne]
    simp [complete, respond, closeJob, setQueue, setLzw, hm]
  | chunk =>
    refine ⟨s.lzw, [], ?_, (nomatch ·), fun _ => rfl⟩
    rw [exec_end_chunk hready hm, markEoj_push hne]
    simp [complete, respond, closeJob, setQueue, setCbuf, hm]
  | imgdata =>
    refine ⟨(lzwEnd s.lzw).1, [], ?_, (nomatch ·), (nomatch ·)⟩
    rw [exec_end_imgdata hready hm, markEoj_push hne]
    simp [complete, respond, closeJob, setQueue, setCbuf, setLzw, hm]

/-- What the host sees of it: the block is idle, ERR is as it was, and Q ends in the job's last entries (R255). -/
theorem exec_end_queues : ∃ t,
    exec .endToken s = .next t ∧ t.phase = .idle ∧ t.err = s.err ∧ t.queue = s.queue ++ jobEntries (jobTail [] s) := by
  obtain ⟨z, c, hexec, -, -⟩ := exec_end_closes hready hinv
  exact ⟨_, hexec, rfl, rfl, rfl⟩

end

/-- Settles O40: the bytes are what the job has yet to push at END. -/
theorem endClosesTheJob : Obligations.EndClosesTheJob := by
  intro s hinv hready
  obtain ⟨z, c, hexec, hc, hz⟩ := exec_end_closes hready hinv
  obtain ⟨hlzw, hchunk, himgdata⟩ := jobTail_nil_length hready hinv
  exact ⟨jobTail [] s, z, c, hexec, fun hm => ⟨jobTail_nil_lzw hm, hc hm, hlzw hm⟩,
    fun hm => ⟨jobTail_nil_chunk hm, hz hm, hchunk hm⟩, fun hm => ⟨jobTail_nil_imgdata hm, himgdata hm⟩⟩

end Sys2Proof
end

section
/-! ### A job's output (43_stream_jobs.md R258, R260) -/

namespace Sys2Proof

open Machine

/-- What is queued in a running job, followed by what it will push for the data bytes `x` and END; the end-of-job mark is
not set yet (R258, R259). -/
def entriesAhead (x : List Byte) (s : State) : List Entry := s.queue ++ plainEntries (jobTail x s)

/-- A job's output is never empty (R258). -/
theorem jobOutput_ne_nil {m : Mode} {start : Instr} (h : startOf m = some start) (x : List Byte) :
    jobOutput m x ≠ [] := by
  cases m with
  | none => cases h
  | lzw => simp [jobOutput, lzwStream, lzwInit_eq]
  | chunk => simpa [jobOutput, chunkTail_eq_chunked] using chunkTail_ne_nil x []
  | imgdata => simp [jobOutput]

/-- An accepted start puts the job's whole output behind what was queued (R250 to R252). -/
theorem entriesAhead_of_start {m : Mode} {start : Instr} {s t : State} (hstart : startOf m = some start)
    (hok : startError s = none) (h : exec start s = .next t) :
    t.phase = .run ∧ ∀ x, entriesAhead x t = s.queue ++ plainEntries (jobOutput m x) := by
  cases m with
  | none => cases hstart
  | lzw =>
    cases hstart
    obtain ⟨e, he, -⟩ | ⟨-, rfl⟩ := execLzwStart_next h
    · simp [hok] at he
    · refine ⟨rfl, fun x => ?_⟩
      simp [entriesAhead, jobTail, jobOutput, plainEntries, lzwStream_eq_lzwTail]
  | chunk =>
    cases hstart
    obtain ⟨e, he, -⟩ | ⟨-, rfl⟩ := execChunkStart_next h
    · simp [hok] at he
    · refine ⟨rfl, fun x => ?_⟩
      simp [entriesAhead, jobTail, jobOutput, chunkTail_eq_chunked]
  | imgdata =>
    cases hstart
    obtain ⟨e, he, -⟩ | ⟨-, rfl⟩ := execImgdataStart_next h
    · simp [hok] at he
    · refine ⟨rfl, fun x => ?_⟩
      simp [entriesAhead, jobTail, jobOutput, throughChunker_queue, plainEntries, lzwStream_eq_lzwTail,
        ← chunkTail_eq_chunked, chunkTail_append]

section
variable {i : Instr} {s t : State}

/-- An accepted data token pushes what was ahead for it (R254). -/
theorem entriesAhead_of_feed {k : Byte} (hready : inReady s = true) (h : exec (.feed k) s = .next t) (x : List Byte) :
    entriesAhead x t = entriesAhead (k :: x) s := by
  obtain ⟨e, he, -⟩ | ⟨-, hm, rfl⟩ | ⟨-, hm, rfl⟩ | ⟨-, hm, rfl⟩ := execFeed_next h
  · simp [tokenError_eq_none.2 hready] at he
  · simp [entriesAhead, jobTail, hm, lzwTail_cons, plainEntries]
  · have htail := chunkTail_append [k] x s.cbuf
    rw [List.singleton_append] at htail
    simp [entriesAhead, jobTail, hm, htail, throughChunker_queue, plainEntries]
  · simp [entriesAhead, jobTail, hm, lzwTail_cons, chunkTail_append, throughChunker_queue, plainEntries]

/-- Only POP takes entries (R257). -/
theorem poppedEntries_of_ne_pop (hi : i ≠ .pop) (s : State) : poppedEntries i s = [] := by
  cases i with
  | pop => exact absurd rfl hi
  | _ => rfl

/-- POP takes the first of what is ahead (R257). -/
theorem entriesAhead_of_pop (h : exec .pop s = .next t) (x : List Byte) :
    poppedEntries .pop s ++ entriesAhead x t = entriesAhead x s := by
  obtain ⟨hq, rfl⟩ | ⟨e, q, hq, rfl⟩ := execPop_next h <;> simp [poppedEntries, entriesAhead, jobTail, hq]

/-- Within a job nothing but POP and an accepted token changes what is ahead (R258). -/
theorem Machine.Effect.keeps_ahead (he : Effect s i t) (hrun : s.phase = .run) (hwithin : withinJob i s = true)
    (hacc : acceptedByte i s = []) (hpop : i ≠ .pop) (x : List Byte) : entriesAhead x t = entriesAhead x s := by
  cases he with
  | nothing | answered | result | errclr => rfl
  | refused => simp [entriesAhead, jobTail]
  | popped => exact absurd rfl hpop
  | srst => simp [withinJob] at hwithin
  | startLzw hok | startChunk hok | startImgdata hok => simp [startError_eq_none, hrun] at hok
  | feedLzw k hready | feedChunk k hready | feedImgdata k hready => simp [acceptedByte, hready] at hacc
  | endLzw hready | endChunk hready | endImgdata hready => simp [withinJob, hready] at hwithin

/-- An operation within the running job leaves it running (R258). -/
theorem Machine.Effect.keeps_running (he : Effect s i t) (hrun : s.phase = .run) (hwithin : withinJob i s = true) :
    t.phase = .run := by
  cases he with
  | nothing | answered | refused | result | errclr | popped | feedLzw | feedChunk | feedImgdata => simpa using hrun
  | srst => simp [withinJob] at hwithin
  | startLzw | startChunk | startImgdata => rfl
  | endLzw hready | endChunk hready | endImgdata hready => simp [withinJob, hready] at hwithin

/-- Within a job what is popped and what is then ahead is what was ahead for the byte the job accepts (R258). -/
theorem entriesAhead_within_job (hrun : s.phase = .run) (hwithin : withinJob i s = true) (h : exec i s = .next t)
    (x : List Byte) : poppedEntries i s ++ entriesAhead x t = entriesAhead (acceptedByte i s ++ x) s := by
  by_cases hpop : i = .pop
  · subst hpop
    exact entriesAhead_of_pop h x
  · rw [poppedEntries_of_ne_pop hpop, List.nil_append]
    by_cases hacc : acceptedByte i s = []
    · rw [hacc]
      exact (exec_effect h).keeps_ahead hrun hwithin hacc hpop x
    · obtain ⟨k, rfl, hready, hk⟩ := acceptedByte_ne_nil hacc
      rw [hk]
      exact entriesAhead_of_feed hready h x

/-- A run of operations is its first operation and the run from there, fed and popped bytes included. -/
theorem runOps_cons_result {is : List Instr} {r : RunResult} (h : runOps (i :: is) s = some r) :
    ∃ u q, exec i s = .next u ∧ runOps is u = some q ∧
      r = ⟨q.state, acceptedByte i s ++ q.fed, poppedEntries i s ++ q.popped⟩ := by
  unfold runOps at h
  split at h
  · next u hu =>
    obtain ⟨q, hq, rfl⟩ := Option.map_eq_some_iff.1 h
    exact ⟨u, q, hu, hq, rfl⟩
  · cases h
  · cases h

end

/-- Every run of operations keeps the invariant. -/
theorem Inv.runOps {is : List Instr} {s : State} {r : RunResult} (h : Inv s) (hrun : runOps is s = some r) :
    Inv r.state := by
  induction is generalizing s r with
  | nil =>
    cases hrun
    exact h
  | cons i is ih =>
    obtain ⟨u, q, hu, hq, rfl⟩ := runOps_cons_result hrun
    exact ih (r := q) (h.effect (exec_effect hu)) hq

/-- Along a run within the job what is popped and what is then ahead is what was ahead for the accepted bytes (R258). -/
theorem entriesAhead_runOps {body : List Instr} {s : State} {r : RunResult} (hphase : s.phase = .run)
    (hwithin : runsWithinJob body s) (hrun : runOps body s = some r) (x : List Byte) :
    r.popped ++ entriesAhead x r.state = entriesAhead (r.fed ++ x) s := by
  induction body generalizing s r with
  | nil =>
    cases hrun
    rfl
  | cons i body ih =>
    obtain ⟨u, q, hu, hq, rfl⟩ := runOps_cons_result hrun
    obtain ⟨hi, hrest⟩ := hwithin
    have hphaseu := (exec_effect hu).keeps_running hphase hi
    rw [List.append_assoc, ih hphaseu (hrest u hu) hq, entriesAhead_within_job hphase hi hu, List.append_assoc]

/-- Settles O52: at the start the job's output is ahead, behind what was queued; a run within the job only moves it to Q and
to the host; and END queues the rest, marking its last entry. -/
theorem jobOutputIsTheFunctionOfItsInput : Obligations.JobOutputIsTheFunctionOfItsInput := by
  intro m start body s s1 r r2 hinv hstart hok hs1 hwithin hbody hready hend
  obtain ⟨hphase, hahead⟩ := entriesAhead_of_start hstart hok hs1
  have hinvr : Inv r.state := (hinv.effect (exec_effect hs1)).runOps hbody
  obtain ⟨v, hv, -, -, hqueue⟩ := exec_end_queues hready hinvr
  obtain ⟨u, q, hu, hq, rfl⟩ := runOps_cons_result hend
  cases hq
  obtain rfl := Host.Outcome.next.inj (hv.symm.trans hu)
  have hmoved : (r.popped ++ r.state.queue) ++ plainEntries (jobTail [] r.state) =
      s.queue ++ plainEntries (jobOutput m r.fed) := by
    rw [List.append_assoc, ← hahead, ← List.append_nil r.fed]
    exact entriesAhead_runOps hphase hwithin hbody []
  calc
    r.popped ++ v.queue = (r.popped ++ r.state.queue) ++ jobEntries (jobTail [] r.state) := by
      rw [hqueue, List.append_assoc]
    _ = markLast ((r.popped ++ r.state.queue) ++ plainEntries (jobTail [] r.state)) :=
      (markLast_append_plainEntries (jobTail_nil_ne_nil hready hinvr) _).symm
    _ = s.queue ++ jobEntries (jobOutput m r.fed) := by
      rw [hmoved, markLast_append_plainEntries (jobOutput_ne_nil hstart r.fed)]

end Sys2Proof
end

section
/-! ### The watch of a job (43_stream_jobs.md R259, R262) -/

namespace Sys2Proof

open Machine

section
variable {e : Event} {i : Instr} {s t : State}

/-- Every way an event answers a next state: a reset, an operation, or an access that is none and leaves the job and Q. -/
theorem serveEvent_next (h : serveEvent e s = .next t) :
    (e = .reset ∧ t = hardReset s) ∨ (∃ i, spells e s i = true ∧ exec i s = .next t) ∨
      (∃ a, e = .access a ∧ (∀ i, spells (.access a) s i = false) ∧ t.phase = s.phase ∧ t.queue = s.queue) := by
  cases e with
  | reset => exact .inl ⟨rfl, (Host.Outcome.next.inj h).symm⟩
  | access a =>
    obtain ⟨i, hd, hexec⟩ | ⟨hd, rfl⟩ | ⟨hd, rfl⟩ | ⟨hd, rfl⟩ := serveAccess_next h
    · exact .inr (.inl ⟨i, by simp [spells, hd], hexec⟩)
    all_goals exact .inr (.inr ⟨a, rfl, fun i => by simp [spells, hd], by simp, by simp⟩)

/-- Every event keeps the invariant. -/
theorem Inv.serveEvent (hinv : Inv s) (h : Machine.serveEvent e s = .next t) : Inv t := by
  cases e with
  | access a => exact hinv.serveAccess h
  | reset => exact Host.Outcome.next.inj h ▸ hinv.softReset.respond _

/-- An access spells one operation. -/
theorem spells_eq_decide (h : spells e s i = true) (j : Instr) : spells e s j = decide (i = j) := by
  cases e with
  | reset => cases h
  | access a => simp [spells, of_decide_eq_true h]

theorem isResetEvent_of_spells (h : spells e s i = true) : isResetEvent e s = isSoftReset i := by
  cases e with
  | reset => cases h
  | access a =>
    simp only [isResetEvent, spells_eq_decide h]
    cases i with
    | srst b =>
      rcases BitVec.eq_zero_or_eq_one b with rfl | rfl <;> simp [isSoftReset]
    | _ => simp [isSoftReset]

/-! What an operation makes of a watched job. -/

theorem watchEvent_running (h : spells e s i = true) :
    watchEvent e s t .running =
      if isSoftReset i then .abandoned
      else if i = .endToken ∧ inReady s = true then .left t.queue.length else .running := by
  simp [watchEvent, isResetEvent_of_spells h, spells_eq_decide h]

theorem watchEvent_left_succ (h : spells e s i = true) (n : Nat) :
    watchEvent e s t (.left (n + 1)) =
      if isSoftReset i then .abandoned else if i = .pop then .left n else .left (n + 1) := by
  simp [watchEvent, isResetEvent_of_spells h, spells_eq_decide h]

/-- An access that spells no operation leaves a watched job as it is. -/
theorem watchEvent_of_not_spells {a : Access} (h : ∀ i, spells (.access a) s i = false) (w : JobWatch) :
    watchEvent (.access a) s t w = w := by
  unfold watchEvent
  split <;> simp [isResetEvent, h]

/-- Anything but an accepted END and a soft reset stays within the job (R258). -/
theorem withinJob_of_not_end (hreset : isSoftReset i = false) (hend : ¬ (i = .endToken ∧ inReady s = true)) :
    withinJob i s = true := by
  cases i with
  | endToken => simpa [withinJob] using hend
  | srst => cases hreset
  | _ => rfl

/-- Only POP and a reset take entries out of Q; every other operation leaves what is queued in its place (R257). -/
theorem queue_kept_of_exec (hinv : Inv s) (h : exec i s = .next t) (hreset : isSoftReset i = false) (hpop : i ≠ .pop) :
    s.queue <+: t.queue := by
  by_cases hend : i = .endToken ∧ inReady s = true
  · obtain ⟨rfl, hready⟩ := hend
    obtain ⟨v, hv, -, -, hqueue⟩ := exec_end_queues hready hinv
    obtain rfl := Host.Outcome.next.inj (hv.symm.trans h)
    rw [hqueue]
    exact List.prefix_append ..
  · cases exec_effect h with
    | nothing | answered | refused | result | errclr | startLzw | startChunk | startImgdata | feedLzw | feedChunk
      | feedImgdata => simp [throughChunker_queue]
    | srst => cases hreset
    | popped => exact absurd rfl hpop
    | endLzw hready | endChunk hready | endImgdata hready => exact absurd ⟨rfl, hready⟩ hend

end

/-- What the watch says of a state: a running job runs, and the last entry still counted of a job after its END is queued
and carries the job's mark (R259, R262). -/
def WatchRight (s : State) : JobWatch → Prop
  | .running => s.phase = .run
  | .left 0 => True
  | .left (n + 1) => ∃ e, s.queue[n]? = some e ∧ e.eoj = true
  | .abandoned => True

/-- With the block idle the last entry of Q is marked, so all of Q may be counted (R259). -/
theorem watchRight_of_idle {s : State} (hinv : Inv s) (hidle : s.phase = .idle) : WatchRight s (.left s.queue.length) := by
  cases hq : s.queue using List.reverseRecOn with
  | nil => trivial
  | append_singleton q e =>
    rw [List.length_append]
    exact ⟨e, by simp [hq], hinv.ended hidle e (by simp [hq])⟩

section
variable {e : Event} {i : Instr} {s t : State}

theorem watchRight_running (hinv : Inv s) (hrun : s.phase = .run) (hi : spells e s i = true) (h : exec i s = .next t) :
    WatchRight t (watchEvent e s t .running) := by
  rw [watchEvent_running hi]
  split
  · trivial
  next hreset =>
    split
    next hend =>
      obtain ⟨rfl, hready⟩ := hend
      obtain ⟨v, hv, hidle, -, -⟩ := exec_end_queues hready hinv
      obtain rfl := Host.Outcome.next.inj (hv.symm.trans h)
      exact watchRight_of_idle (hinv.effect (exec_effect h)) hidle
    next hend => exact (exec_effect h).keeps_running hrun (withinJob_of_not_end (by simpa using hreset) hend)

theorem watchRight_left_succ {n : Nat} (hinv : Inv s) (hw : WatchRight s (.left (n + 1))) (hi : spells e s i = true)
    (h : exec i s = .next t) : WatchRight t (watchEvent e s t (.left (n + 1))) := by
  obtain ⟨d, hd, heoj⟩ := hw
  rw [watchEvent_left_succ hi]
  split
  · trivial
  next hreset =>
    split
    next hpop =>
      subst hpop
      obtain ⟨hq, -⟩ | ⟨f, q, hq, rfl⟩ := execPop_next h
      · simp [hq] at hd
      · cases n with
        | zero => trivial
        | succ n => exact ⟨d, by simpa [hq] using hd, heoj⟩
    next hpop =>
      obtain ⟨q, hq⟩ := queue_kept_of_exec hinv h (by simpa using hreset) hpop
      obtain ⟨hlt, -⟩ := List.getElem?_eq_some_iff.1 hd
      exact ⟨d, by rw [← hq, List.getElem?_append_left hlt, hd], heoj⟩

/-- Every event keeps the watch right. -/
theorem watchRight_event {w : JobWatch} (hinv : Inv s) (hw : WatchRight s w) (h : serveEvent e s = .next t) :
    WatchRight t (watchEvent e s t w) := by
  obtain ⟨rfl, -⟩ | ⟨i, hi, hexec⟩ | ⟨a, rfl, hnone, hphase, hqueue⟩ := serveEvent_next h
  · match w with
    | .running | .left 0 | .left (n + 1) | .abandoned => trivial
  · match w with
    | .running => exact watchRight_running hinv hw hi hexec
    | .left (n + 1) => exact watchRight_left_succ hinv hw hi hexec
    | .left 0 | .abandoned => trivial
  · rw [watchEvent_of_not_spells hnone]
    match w with
    | .running => exact hphase.trans hw
    | .left (n + 1) =>
      obtain ⟨d, hd⟩ := hw
      exact ⟨d, hqueue ▸ hd⟩
    | .left 0 | .abandoned => trivial

end

/-- Every run of events keeps the watch right. -/
theorem watchRight_run {es : List Event} {s t : State} {w v : JobWatch} (hinv : Inv s) (hw : WatchRight s w)
    (h : watchJob es s w = some (t, v)) : WatchRight t v := by
  induction es generalizing s w with
  | nil =>
    cases h
    exact hw
  | cons e es ih =>
    obtain ⟨u, hu, h⟩ := watchJob_cons h
    exact ih (hinv.serveEvent hu) (watchRight_event hinv hw hu) h

/-- Settles O58: the watch is right of a running job, and every event keeps it right. -/
theorem watchedEntriesEndAtTheJobsMark : Obligations.WatchedEntriesEndAtTheJobsMark := by
  intro es s t n hinv hrun h
  obtain ⟨e, he, heoj⟩ : WatchRight t (.left (n + 1)) := watchRight_run hinv (w := .running) hrun h
  obtain ⟨hlt, -⟩ := List.getElem?_eq_some_iff.1 he
  exact ⟨hlt, e, he, heoj⟩

end Sys2Proof
end

section
/-! ### Jobs that finish cleanly (43_stream_jobs.md R262, 70_reset_and_hazards.md R351) -/

namespace Sys2Proof

open Machine

/-- The access of an operation runs it on every block with the same BASE (R61, R104). -/
theorem serveEvent_opEvent {s t : State} (hcfg : t.cfg = s.cfg) (i : Instr) : serveEvent (opEvent s i) t = exec i t :=
  serveAccess_instr (hcfg ▸ decodeInvertsEncode s.cfg.base i)

theorem spells_opEvent_self {s t : State} (hcfg : t.cfg = s.cfg) (i : Instr) : spells (opEvent s i) t i = true := by
  rw [spells_opEvent s t i i hcfg.symm (decodeInvertsEncode _ _)]
  exact decide_eq_true rfl

/-- An accepted start leaves a running job and ERR as it was (R250 to R252). -/
theorem exec_start_opens {i : Instr} {s : State} (hi : isStart i = true) (hok : startError s = none) :
    ∃ t, exec i s = .next t ∧ t.phase = .run ∧ t.err = s.err := by
  obtain ⟨hidle, hroom⟩ := startError_eq_none.1 hok
  obtain ⟨hlzw, hchunk, himgdata⟩ := startsOpenTheirJobs s hidle hroom
  cases i with
  | lzwStart => exact ⟨_, hlzw, rfl, rfl⟩
  | chunkStart => exact ⟨_, hchunk, rfl, rfl⟩
  | imgdataStart => exact ⟨_, himgdata, rfl, rfl⟩
  | _ => cases hi

/-- A start takes no entry of an ended job (R262). -/
theorem watchEvent_left_of_start {e : Event} {i : Instr} {s t : State} (hi : isStart i = true)
    (h : spells e s i = true) (n : Nat) : watchEvent e s t (.left n) = .left n := by
  cases n with
  | zero => rfl
  | succ n =>
    rw [watchEvent_left_succ h]
    cases i with
    | lzwStart | chunkStart | imgdataStart => rfl
    | _ => cases hi

/-- The state `v` is `u` after `m` pops, as far as a job's completion goes (R257). -/
structure PoppedTimes (m : Nat) (u v : State) : Prop where
  cfg : v.cfg = u.cfg
  phase : v.phase = u.phase
  err : v.err = u.err
  queue : v.queue = u.queue.drop m

/-- POP takes the head of Q, if there is one (R257). -/
theorem exec_pop_once (u : State) : ∃ v, exec .pop u = .next v ∧ PoppedTimes 1 u v := by
  cases hq : u.queue with
  | nil => exact ⟨_, exec_pop_nil hq, rfl, rfl, rfl, by simp [hq]⟩
  | cons e q => exact ⟨_, exec_pop_cons hq, rfl, rfl, rfl, by simp [hq]⟩

/-- Each of `m` pops counts one entry of a watched job. -/
theorem watchJob_pops {s u : State} (hcfg : u.cfg = s.cfg) (m j : Nat) :
    ∃ v, watchJob (List.replicate m (opEvent s .pop)) u (.left (m + j)) = some (v, .left j) ∧ PoppedTimes m u v := by
  induction m generalizing u with
  | zero => exact ⟨u, by simp, rfl, rfl, rfl, rfl⟩
  | succ m ih =>
    obtain ⟨t, ht, hpop⟩ := exec_pop_once u
    obtain ⟨v, hv, hpops⟩ := ih (hpop.cfg.trans hcfg)
    refine ⟨v, ?_, hpops.cfg.trans hpop.cfg, hpops.phase.trans hpop.phase, hpops.err.trans hpop.err, ?_⟩
    · rw [List.replicate_succ, watchJob_cons_next ((serveEvent_opEvent hcfg .pop).trans ht), Nat.add_right_comm,
        watchEvent_left_succ (spells_opEvent_self hcfg .pop)]
      exact hv
    · rw [hpops.queue, hpop.queue, List.drop_drop, Nat.add_comm]

/-! What does not finish a job (R262). -/

section
variable {es : List Event} {s v t : State} {j : Nat}

/-- With entries left to pop the job is not finished. -/
theorem not_finishedCleanly_of_left (h : watchJob es s .running = some (v, .left (j + 1))) :
    ¬ FinishedCleanly es s t := by
  rintro ⟨-, hw, -⟩
  simp [h] at hw

/-- A reset with entries left to pop abandons the job for good (R351). -/
theorem not_finishedCleanly_of_reset (h : watchJob es s .running = some (v, .left (j + 1))) {e : Event}
    (he : isResetEvent e v = true) (fs : List Event) : ¬ FinishedCleanly (es ++ [e] ++ fs) s t := by
  rintro ⟨-, hw, -⟩
  rw [List.append_assoc, watchJob_append, h] at hw
  obtain ⟨u, -, hw⟩ := watchJob_cons hw
  rw [watchEvent, if_pos he] at hw
  exact JobWatch.noConfusion (watchJob_abandoned hw)

/-- A token refused after the job leaves an error behind (R254, R311). -/
theorem not_finishedCleanly_of_refused_feed {w : JobWatch} (h : watchJob es s .running = some (v, w))
    (hcfg : v.cfg = s.cfg) (hidle : v.phase = .idle) (k : Byte) :
    ¬ FinishedCleanly (es ++ [opEvent s (.feed k)]) s t := by
  rintro ⟨-, hw, herr⟩
  have hfeed := exec_feed_of_error (tokenError_of_idle hidle) k
  rw [watchJob_append, h, Option.bind_some, watchJob_cons_next ((serveEvent_opEvent hcfg _).trans hfeed)] at hw
  obtain ⟨rfl, -⟩ := Prod.mk.inj (Option.some.inj hw)
  cases hv : v.err <;> simp [refusedWith, firstError, hv] at herr

end

section
variable {s t : State} (hready : inReady s = true) (ht : exec .endToken s = .next t)
include hready ht

/-- After the accepted END the watch counts all of Q (R259). -/
theorem watchJob_end (es : List Event) :
    watchJob (opEvent s .endToken :: es) s .running = watchJob es t (.left t.queue.length) := by
  rw [watchJob_cons_next ((serveEvent_opEvent rfl _).trans ht), watchEvent_running (spells_opEvent_self rfl _),
    if_neg (by simp [isSoftReset]), if_pos ⟨rfl, hready⟩]

/-- END and `m` pops leave the rest of Q to be counted. -/
theorem watchJob_end_pops {m j : Nat} (hlen : t.queue.length = m + j) :
    ∃ v, watchJob ([opEvent s .endToken] ++ List.replicate m (opEvent s .pop)) s .running = some (v, .left j) ∧
      PoppedTimes m t v := by
  rw [List.singleton_append, watchJob_end hready ht, hlen]
  exact watchJob_pops (exec_effect ht).cfg_port.1 m j

/-- END and fewer pops than Q has entries leave entries to be counted. -/
theorem watchJob_end_fewer_pops {m n : Nat} (hlen : t.queue.length = n + 1) (hm : m ≤ n) :
    ∃ v j, watchJob ([opEvent s .endToken] ++ List.replicate m (opEvent s .pop)) s .running = some (v, .left (j + 1)) ∧
      v.cfg = s.cfg := by
  obtain ⟨j, rfl⟩ := Nat.exists_eq_add_of_le hm
  obtain ⟨v, hv, hpops⟩ := watchJob_end_pops hready ht (m := m) (j := j + 1) hlen
  exact ⟨v, j, hv, hpops.cfg.trans (exec_effect ht).cfg_port.1⟩

/-- The job also finishes if the next job is started between its pops: the start finds the block idle, with room in Q after
the first pop (R253). -/
theorem watchJob_end_start {n : Nat} (hlen : t.queue.length = n + 1) (hidle : t.phase = .idle)
    (hqueue : t.queue.length ≤ t.cfg.outqCap) {i : Instr} (hi : isStart i = true) :
    ∃ v, watchJob ([opEvent s .endToken, opEvent s .pop, opEvent s i] ++ List.replicate n (opEvent s .pop)) s .running =
      some (v, .left 0) ∧ v.phase = .run ∧ v.err = t.err := by
  have hcfg : t.cfg = s.cfg := (exec_effect ht).cfg_port.1
  obtain ⟨u, hu, hpop⟩ := exec_pop_once t
  have hucfg := hpop.cfg.trans hcfg
  have hok : startError u = none := by
    refine startError_eq_none.2 ⟨hpop.phase.trans hidle, ?_⟩
    rw [hpop.queue, hpop.cfg, List.length_drop]
    omega
  obtain ⟨q, hq, hrun, herr⟩ := exec_start_opens hi hok
  have hqcfg : q.cfg = s.cfg := (exec_effect hq).cfg_port.1.trans hucfg
  obtain ⟨v, hv, hpops⟩ := watchJob_pops hqcfg n 0
  refine ⟨v, ?_, hpops.phase.trans hrun, hpops.err.trans (herr.trans hpop.err)⟩
  rw [List.cons_append, watchJob_end hready ht, hlen, List.cons_append,
    watchJob_cons_next ((serveEvent_opEvent hcfg .pop).trans hu),
    watchEvent_left_succ (spells_opEvent_self hcfg .pop), List.cons_append,
    watchJob_cons_next ((serveEvent_opEvent hucfg i).trans hq), if_neg (by simp [isSoftReset]), if_pos rfl,
    watchEvent_left_of_start hi (spells_opEvent_self hucfg i)]
  exact hv

end

/-- Settles O59: END leaves n+1 entries to count, each pop counts one, a start none; so the last of n+1 pops finishes the
job, and before it a reset abandons the job. -/
theorem jobsFinishCleanlyWhenPoppedToTheirMark : Obligations.JobsFinishCleanlyWhenPoppedToTheirMark := by
  intro s hinv hready herr
  have hrun := (inReady_iff.1 hready).1
  obtain ⟨t, ht, hidle, hterr, hqueue⟩ := exec_end_queues hready hinv
  have hcfg : t.cfg = s.cfg := (exec_effect ht).cfg_port.1
  have hcap := (hinv.effect (exec_effect ht)).queue
  have hne : t.queue.length ≠ 0 := by simp [hqueue, jobTail_nil_ne_nil hready hinv]
  obtain ⟨n, hlen⟩ := Nat.exists_eq_succ_of_ne_zero hne
  obtain ⟨v, hv, hpops⟩ := watchJob_end_pops hready ht (j := 0) hlen
  refine ⟨n, ⟨v, ⟨hrun, hv, ?_⟩, hpops.phase.trans hidle, ?_⟩, fun i hi => ?_, fun m u hm => ?_, fun m es u hm => ?_,
    fun k u => ?_⟩
  · rw [hpops.err, hterr, herr]
  · exact hpops.queue.trans (List.drop_eq_nil_of_le hlen.le)
  · obtain ⟨w, hw, hwrun, hwerr⟩ := watchJob_end_start hready ht hlen hidle hcap hi
    exact ⟨w, ⟨hrun, hw, by rw [hwerr, hterr, herr]⟩, hwrun⟩
  · obtain ⟨w, j, hw, -⟩ := watchJob_end_fewer_pops hready ht hlen hm
    exact not_finishedCleanly_of_left hw
  · obtain ⟨w, j, hw, hwcfg⟩ := watchJob_end_fewer_pops hready ht hlen hm
    refine ⟨not_finishedCleanly_of_reset hw rfl es, not_finishedCleanly_of_reset hw ?_ es⟩
    exact isResetEvent_of_spells (spells_opEvent_self hwcfg (.srst 0))
  · exact not_finishedCleanly_of_refused_feed hv (hpops.cfg.trans hcfg) (hpops.phase.trans hidle) k

end Sys2Proof
end

section
/-! ### No-operation, CTRL writes and register reads (44_control.md R290 to R296)

A field picture is again the shifts of the rule; its 16-bit top field cuts off only what the shift moves out of the word. -/

namespace Sys2Proof

open Machine

theorem ofNat_shiftLeft {v : Nat} (n k : Nat) : BitVec.ofNat v (n <<< k) = BitVec.ofNat v n <<< k := by
  apply BitVec.eq_of_toNat_eq
  simp [Nat.shiftLeft_eq]

/-- A shift makes up for the bits a narrow field lacks. -/
theorem setWidth_ofNat_shiftLeft {w v k : Nat} (h : v ≤ w + k) (n : Nat) :
    (BitVec.ofNat w n).setWidth v <<< k = BitVec.ofNat v n <<< k := by
  apply BitVec.eq_of_getLsbD_eq
  intro j hj
  simp only [BitVec.getLsbD_shiftLeft, BitVec.getLsbD_setWidth, BitVec.getLsbD_ofNat]
  by_cases hk : j < k
  · simp [hk]
  · have hin : j - k < w ∧ j - k < v := by omega
    simp [hin]

theorem outValid_eq_decide (s : State) : outValid s = decide (1 ≤ s.queue.length) := rfl

theorem busy_eq_decide (s : State) : busy s = decide (s.phase = .run) := rfl

theorem inReady_eq_decide (s : State) :
    inReady s = decide (s.phase = .run ∧ s.queue.length + 261 ≤ s.cfg.outqCap) :=
  Bool.eq_iff_iff.2 (inReady_iff.trans decide_eq_true_iff.symm)

/-- STATUS as the shifts of R294. -/
theorem statusWord_eq_or (s : State) :
    statusWord s =
      (BitVec.ofNat 32 s.queue.length <<< 16) ||| ((modeBits s.mode).setWidth 32 <<< 8) |||
        ((errBits s.err).setWidth 32 <<< 4) ||| (bit01 (outValid s) <<< 3) ||| (bit01 (inReady s) <<< 2) |||
        (bit01 s.done <<< 1) ||| bit01 (busy s) := by
  have hword : statusWord s = (BitVec.ofNat 16 s.queue.length ++ 0#6 ++ modeBits s.mode ++ errBits s.err ++
      BitVec.ofBool (outValid s) ++ BitVec.ofBool (inReady s) ++ BitVec.ofBool s.done ++
      BitVec.ofBool (busy s)).setWidth 32 := (BitVec.setWidth_eq _).symm
  rw [hword, ← setWidth_ofNat_shiftLeft (w := 16) (by decide)]
  simp only [BitVec.setWidth_append_eq_shiftLeft_setWidth_or, BitVec.shiftLeft_or_distrib, ← BitVec.shiftLeft_add,
    BitVec.setWidth_zero, BitVec.or_zero, setWidth_ofBool]

/-- CAPS as the number of R296. -/
theorem capsWord_eq_ofNat (c : Config) :
    capsWord c = BitVec.ofNat 32 ((c.outqCap <<< 16) ||| (12 <<< 8) ||| 8) := by
  have hword : capsWord c = (BitVec.ofNat 16 c.outqCap ++ 0#4 ++ 12#4 ++ 8#8).setWidth 32 :=
    (BitVec.setWidth_eq _).symm
  rw [hword, BitVec.ofNat_or, BitVec.ofNat_or, ofNat_shiftLeft, ← setWidth_ofNat_shiftLeft (w := 16) (by decide)]
  simp only [BitVec.setWidth_append_eq_shiftLeft_setWidth_or, BitVec.shiftLeft_or_distrib, ← BitVec.shiftLeft_add,
    BitVec.setWidth_zero, BitVec.or_zero]
  rfl

theorem exec_rdStatus (s : State) : exec .rdStatus s = answer (statusWord s) s := rfl

theorem exec_rdCaps (s : State) : exec .rdCaps s = answer (capsWord s.cfg) s := rfl

/-- Settles O43: the read answers STATUS, whose field picture is the formula of R294. -/
theorem statusReadsTheState : Obligations.StatusReadsTheState := by
  refine ⟨fun s => ?_, rfl, rfl⟩
  rw [exec_rdStatus, statusWord_eq_or, outValid_eq_decide, inReady_eq_decide, busy_eq_decide]
  rfl

/-- Settles O44: the reads answer RESULT and CAPS, whose field picture is the constant of R296. -/
theorem resultAndCapsRead : Obligations.ResultAndCapsRead := by
  refine fun s => ⟨rfl, ?_⟩
  rw [exec_rdCaps, capsWord_eq_ofNat]
  rfl

/-- Settles O42: the three writes are `complete` of the state and of `clearErr` of it. -/
theorem nopAndControlWrites : Obligations.NopAndControlWrites := fun _ => ⟨rfl, rfl, rfl⟩

end Sys2Proof
end

section
/-! ### The recorded error (60_exceptions.md R311, R317; 44_control.md R293) -/

namespace Sys2Proof

open Machine

/-- Clearing finds nothing to change where no error is recorded. -/
theorem clearErr_of_none {s : State} (h : s.err = none) : clearErr s = s := by
  rw [clearErr, ← h]

/-- Clearing forgets the raised code; `raiseErr` wrote no other field. -/
theorem clearErr_raiseErr (e : ErrCode) (s : State) : clearErr (raiseErr e s) = clearErr s := by
  rw [raiseErr_eq]
  rfl

/-- Settles O10: the two cases of `raiseErr`; clearing then undoes the first, as it leaves a state with no error alone. -/
theorem raiseErrKeepsTheFirstError : Obligations.RaiseErrKeepsTheFirstError := fun s e =>
  ⟨fun h => raiseErr_of_none h e, fun h => raiseErr_of_ne_none h e,
    fun h => (clearErr_raiseErr e s).trans (clearErr_of_none h)⟩

end Sys2Proof
end
